-- ==== Sys2Proof/Word.lean ====
section
/-! DEFINITION. The machine word (rules R5, R10): the type of every general register, PC, IR, memory
word, device value and character code of the complxer-web CORE. -/

namespace Sys2Proof

/-- A 16-bit unsigned word (rules R5, R10, R19). It is the unit of every address and of every memory
access; the architecture has no bytes. Addition and subtraction wrap modulo 2^16 (rule R11). -/
abbrev Word := BitVec 16

end Sys2Proof
end

