-- ==== Sys2Proof/Config.lean ====
section
/-! DEFINITION. The construction configuration and parameters (rules R6, R7, R38): what is fixed for
the life of a machine instance. Their default values stand in `Sys2Proof/Machine/Params.lean`. -/

namespace Sys2Proof

/-- The two privilege modes (rules R18, R192): the mode bit is 0 for supervisor and 1 for user. -/
inductive Mode where
  | supervisor
  | user
deriving DecidableEq, Repr

/-- The scalar inputs of a machine instance. The two remaining parameters of rule R7, RANDOM_FILL and
SUPERVISOR_IMAGE, matter only while the memory is filled: they are arguments of `State.construct`. -/
structure Config where
  /-- `ignorePrivilege` (rule R6): disables the region tests of the MAC and the fetch-range test. -/
  ignorePrivilege : Bool
  /-- `randomize` (rule R6): memory starts as RANDOM_FILL instead of zero. -/
  randomize : Bool
  /-- `tickRate` (rule R6): milliseconds between RunTick steps; no architectural effect. -/
  tickRate : Nat
  /-- `executionLimit` (rule R6): the steps one Run may take. -/
  executionLimit : Nat
  /-- `startPC` (rule R6): the initial PC. -/
  startPC : Word
  /-- HALT_VECTOR (rule R7): the trap vector that stops the machine. -/
  haltVector : BitVec 8
  /-- INIT_MODE (rule R7): the mode after construction. -/
  initMode : Mode
  /-- SAVED_USP_INIT (rule R7). -/
  savedUSPInit : Word
  /-- SAVED_SSP_INIT (rule R7). -/
  savedSSPInit : Word
deriving DecidableEq, Repr

end Sys2Proof
end

