-- ==== Sys2Proof/Syntax.lean ====
section
/-! DEFINITION. The abstract syntax: one constructor of `Instr` for each of the 19 rows of
spec/opcode_table.json, in the table's order (rules R82, R83, R86). -/

namespace Sys2Proof

/-- The general registers R0 to R7 (rule R20). -/
inductive Reg where
  | r0 | r1 | r2 | r3 | r4 | r5 | r6 | r7
deriving DecidableEq, Repr

/-- The instructions. Fields are those the instruction reads; bits marked unused in rule R83 are not
part of the syntax (rule R88). Immediates and offsets stay as the raw field, whose sign extension is
part of the meaning (rule R84). -/
inductive Instr where
  /-- BR: branch on the mask n, z, p (rule R120). -/
  | br (n z p : Bool) (offset9 : BitVec 9)
  /-- ADD, register form (rule R130, bit 5 = 0). -/
  | addReg (dr sr1 sr2 : Reg)
  /-- ADD, immediate form (rule R130, bit 5 = 1). -/
  | addImm (dr sr1 : Reg) (imm5 : BitVec 5)
  /-- LD: load, PC-relative (rule R140). -/
  | ld (dr : Reg) (offset9 : BitVec 9)
  /-- ST: store, PC-relative (rule R150). -/
  | st (sr : Reg) (offset9 : BitVec 9)
  /-- JSR: call, PC-relative (rule R160, bit 11 = 1). -/
  | jsr (offset11 : BitVec 11)
  /-- JSRR: call through a base register (rule R161, bit 11 = 0). -/
  | jsrr (baseR : Reg)
  /-- AND, register form (rule R131, bit 5 = 0). -/
  | andReg (dr sr1 sr2 : Reg)
  /-- AND, immediate form (rule R131, bit 5 = 1). -/
  | andImm (dr sr1 : Reg) (imm5 : BitVec 5)
  /-- LDR: load, base plus offset (rule R141). -/
  | ldr (dr baseR : Reg) (offset6 : BitVec 6)
  /-- STR: store, base plus offset (rule R151). -/
  | str (sr baseR : Reg) (offset6 : BitVec 6)
  /-- RTI: return from trap (rule R173). -/
  | rti
  /-- NOT: bitwise complement (rule R132). -/
  | not (dr sr : Reg)
  /-- LDI: load indirect (rule R142). -/
  | ldi (dr : Reg) (offset9 : BitVec 9)
  /-- STI: store indirect (rule R152). -/
  | sti (sr : Reg) (offset9 : BitVec 9)
  /-- JMP, and RET when the base register is R7 (rule R162). -/
  | jmp (baseR : Reg)
  /-- The reserved opcode 1101 with its twelve remaining bits (rules R87, R104). -/
  | reserved (any : BitVec 12)
  /-- LEA: load effective address (rule R143). -/
  | lea (dr : Reg) (offset9 : BitVec 9)
  /-- TRAP: system call, or halt with the HALT vector (rules R171, R172). -/
  | trap (trapvect8 : BitVec 8)
deriving DecidableEq, Repr

end Sys2Proof
end

