-- ==== Sys2Proof/WellFormed.lean ====
section
/-! DEFINITION. Well-formed instructions. The field types of `Instr` already bound every register
number, immediate, offset and trap vector, so the one check left is legality (rule R87). -/

namespace Sys2Proof

/-- A term is a legal instruction unless it is the reserved opcode pattern, for which "No handler
exists" (rule R87). -/
def Instr.wellFormed (i : Instr) : Bool :=
  match i with
  | .reserved _ => false
  | .br _ _ _ _ => true
  | .addReg _ _ _ => true
  | .addImm _ _ _ => true
  | .ld _ _ => true
  | .st _ _ => true
  | .jsr _ => true
  | .jsrr _ => true
  | .andReg _ _ _ => true
  | .andImm _ _ _ => true
  | .ldr _ _ _ => true
  | .str _ _ _ => true
  | .rti => true
  | .not _ _ => true
  | .ldi _ _ => true
  | .sti _ _ => true
  | .jmp _ => true
  | .lea _ _ => true
  | .trap _ => true

end Sys2Proof
end

