-- ==== Sys2Proof/Decode.lean ====
section
/-! DEFINITION. Decoding and encoding (rules R80 to R93). `opcodeMap` is the one table of opcode
numbers (decision D1 asks for a single replaceable table); `decode` reads the fields of rule R82 and
`encode` writes the formats of rules R83 and R93. -/

namespace Sys2Proof

/-- The sixteen names the opcode field can carry (rule R86). -/
inductive Opcode where
  | br | add | ld | st | jsr | and | ldr | str | rti | not | ldi | sti | jmp | reserved | lea | trap
deriving DecidableEq, Repr

/-- OPCODE_MAP, the numbering of rule R86 (decision D1). -/
def opcodeMap : List (BitVec 4 × Opcode) :=
  [(0x0, .br), (0x1, .add), (0x2, .ld), (0x3, .st), (0x4, .jsr), (0x5, .and), (0x6, .ldr),
   (0x7, .str), (0x8, .rti), (0x9, .not), (0xA, .ldi), (0xB, .sti), (0xC, .jmp),
   (0xD, .reserved), (0xE, .lea), (0xF, .trap)]

/-- The name of an opcode value. The map covers all sixteen values (rule R87), so the default, the
reserved pattern, is never taken. -/
def opcodeAt (b : BitVec 4) : Opcode :=
  match opcodeMap.find? (fun e => e.1 == b) with
  | some e => e.2
  | none => .reserved

/-- The opcode value of a name, read from the same map. -/
def opcodeBits (o : Opcode) : BitVec 4 :=
  match opcodeMap.find? (fun e => e.2 == o) with
  | some e => e.1
  | none => 0xD

/-- The register a 3-bit field names (rules R20, R85). -/
def Reg.ofBits (b : BitVec 3) : Reg :=
  match b.toNat with
  | 0 => .r0
  | 1 => .r1
  | 2 => .r2
  | 3 => .r3
  | 4 => .r4
  | 5 => .r5
  | 6 => .r6
  | _ => .r7

/-- The 3-bit field that names a register (rules R20, R85). -/
def Reg.toBits (r : Reg) : BitVec 3 :=
  match r with
  | .r0 => 0
  | .r1 => 1
  | .r2 => 2
  | .r3 => 3
  | .r4 => 4
  | .r5 => 5
  | .r6 => 6
  | .r7 => 7

/-- The opcode field, bits 15:12 (rule R81). -/
def opcodeField (w : Word) : BitVec 4 := w.extractLsb' 12 4

/-- The register in bits 11:9: DR, or SR of a store (rule R82). -/
def reg11to9 (w : Word) : Reg := Reg.ofBits (w.extractLsb' 9 3)

/-- The register in bits 8:6: SR1, SR of NOT, or BaseR (rule R82). -/
def reg8to6 (w : Word) : Reg := Reg.ofBits (w.extractLsb' 6 3)

/-- The register in bits 2:0: SR2 (rule R82). -/
def reg2to0 (w : Word) : Reg := Reg.ofBits (w.extractLsb' 0 3)

/-- Bit 5 set selects the immediate form of ADD and AND (rules R82, R85; decision D3). -/
def immToggle (w : Word) : Bool := w.getLsbD 5

/-- Bit 11 set selects JSR, clear selects JSRR (rules R82, R85; decision D3). -/
def jsrToggle (w : Word) : Bool := w.getLsbD 11

/-- The instruction of an opcode with the operand fields of a word (rules R82, R83, R85). -/
def decodeAs (o : Opcode) (w : Word) : Instr :=
  match o with
  | .br => .br (w.getLsbD 11) (w.getLsbD 10) (w.getLsbD 9) (w.extractLsb' 0 9)
  | .add =>
    if immToggle w then .addImm (reg11to9 w) (reg8to6 w) (w.extractLsb' 0 5)
    else .addReg (reg11to9 w) (reg8to6 w) (reg2to0 w)
  | .ld => .ld (reg11to9 w) (w.extractLsb' 0 9)
  | .st => .st (reg11to9 w) (w.extractLsb' 0 9)
  | .jsr => if jsrToggle w then .jsr (w.extractLsb' 0 11) else .jsrr (reg8to6 w)
  | .and =>
    if immToggle w then .andImm (reg11to9 w) (reg8to6 w) (w.extractLsb' 0 5)
    else .andReg (reg11to9 w) (reg8to6 w) (reg2to0 w)
  | .ldr => .ldr (reg11to9 w) (reg8to6 w) (w.extractLsb' 0 6)
  | .str => .str (reg11to9 w) (reg8to6 w) (w.extractLsb' 0 6)
  | .rti => .rti
  | .not => .not (reg11to9 w) (reg8to6 w)
  | .ldi => .ldi (reg11to9 w) (w.extractLsb' 0 9)
  | .sti => .sti (reg11to9 w) (w.extractLsb' 0 9)
  | .jmp => .jmp (reg8to6 w)
  | .reserved => .reserved (w.extractLsb' 0 12)
  | .lea => .lea (reg11to9 w) (w.extractLsb' 0 9)
  | .trap => .trap (w.extractLsb' 0 8)

/-- The instruction a word stands for: dispatch on the opcode field, then on the format's toggle bit.
Every word has exactly one reading (rules R81, R87, R90). -/
def decode (w : Word) : Instr := decodeAs (opcodeAt (opcodeField w)) w

/-- Why a sequence of words holds no instruction at its head. -/
inductive DecodeError where
  /-- The sequence is empty. -/
  | noWord
  /-- An instruction of more than 16 bits was offered; there is no such instruction (rule R80). -/
  | notOneWord (nbits : Nat)
deriving DecidableEq, Repr

/-- The instruction at the head of a word sequence, and the words after it. Every instruction is one
word (rule R80), and the architecture has no smaller unit to decode from (rule R19). -/
def decodeWords (ws : List Word) : Except DecodeError (Instr × List Word) :=
  match ws with
  | [] => .error .noWord
  | w :: rest => .ok (decode w, rest)

/-- The word sequence of an instruction of `nbits` bits whose value is `w`, bit 0 least significant. -/
def tableWords (nbits w : Nat) : Except DecodeError (List Word) :=
  if nbits ≤ 16 then .ok [BitVec.ofNat 16 (w % 2 ^ nbits)] else .error (.notOneWord nbits)

/-- The host's question: what does the decoder read from these bits of spec/opcode_table.json? -/
def decodeTableWord (nbits w : Nat) : Option Instr :=
  match tableWords nbits w with
  | .error _ => none
  | .ok ws =>
    match decodeWords ws with
    | .ok (i, _) => some i
    | .error _ => none

/-- The opcode name of an instruction. ADD and AND have two forms each and JSR and JSRR share one
opcode (rule R86). -/
def Instr.opcode (i : Instr) : Opcode :=
  match i with
  | .br _ _ _ _ => .br
  | .addReg _ _ _ => .add
  | .addImm _ _ _ => .add
  | .ld _ _ => .ld
  | .st _ _ => .st
  | .jsr _ => .jsr
  | .jsrr _ => .jsr
  | .andReg _ _ _ => .and
  | .andImm _ _ _ => .and
  | .ldr _ _ _ => .ldr
  | .str _ _ _ => .str
  | .rti => .rti
  | .not _ _ => .not
  | .ldi _ _ => .ldi
  | .sti _ _ => .sti
  | .jmp _ => .jmp
  | .reserved _ => .reserved
  | .lea _ _ => .lea
  | .trap _ => .trap

/-- A field placed with its bit 0 at bit `lo` of a word. -/
def place {n : Nat} (f : BitVec n) (lo : Nat) : Word := f.setWidth 16 <<< lo

/-- Bits 11:0 of the canonical word of an instruction, by the formulas of rule R93. Unused bits are 0,
except that NOT carries 111111 in bits 5:0 (log 12). -/
def operandBits (i : Instr) : Word :=
  match i with
  | .br n z p off =>
    place (BitVec.ofBool n) 11 ||| place (BitVec.ofBool z) 10 ||| place (BitVec.ofBool p) 9 ||| place off 0
  | .addReg dr sr1 sr2 => place dr.toBits 9 ||| place sr1.toBits 6 ||| place sr2.toBits 0
  | .addImm dr sr1 imm => place dr.toBits 9 ||| place sr1.toBits 6 ||| 0x0020 ||| place imm 0
  | .ld dr off => place dr.toBits 9 ||| place off 0
  | .st sr off => place sr.toBits 9 ||| place off 0
  | .jsr off => 0x0800 ||| place off 0
  | .jsrr baseR => place baseR.toBits 6
  | .andReg dr sr1 sr2 => place dr.toBits 9 ||| place sr1.toBits 6 ||| place sr2.toBits 0
  | .andImm dr sr1 imm => place dr.toBits 9 ||| place sr1.toBits 6 ||| 0x0020 ||| place imm 0
  | .ldr dr baseR off => place dr.toBits 9 ||| place baseR.toBits 6 ||| place off 0
  | .str sr baseR off => place sr.toBits 9 ||| place baseR.toBits 6 ||| place off 0
  | .rti => 0x0000
  | .not dr sr => place dr.toBits 9 ||| place sr.toBits 6 ||| 0x003F
  | .ldi dr off => place dr.toBits 9 ||| place off 0
  | .sti sr off => place sr.toBits 9 ||| place off 0
  | .jmp baseR => place baseR.toBits 6
  | .reserved bits => place bits 0
  | .lea dr off => place dr.toBits 9 ||| place off 0
  | .trap vect => place vect 0

/-- The canonical word of an instruction (rules R83, R93): the opcode in bits 15:12, then the operand
bits. -/
def encode (i : Instr) : Word := place (opcodeBits i.opcode) 12 ||| operandBits i

/-- One row of spec/opcode_table.json: a word belongs to the row when it agrees with `pattern` on the
bits of `mask`; `reads` marks every bit the row's instruction reads (rule R83, the bits not `-`). -/
structure TableRow where
  mnemonic : String
  mask : Word
  pattern : Word
  reads : Word
deriving DecidableEq, Repr

/-- The row of spec/opcode_table.json an instruction stands for. -/
def Instr.row (i : Instr) : TableRow :=
  match i with
  | .br _ _ _ _ => ⟨"BR", 0xF000, 0x0000, 0xFFFF⟩
  | .addReg _ _ _ => ⟨"ADD", 0xF020, 0x1000, 0xFFE7⟩
  | .addImm _ _ _ => ⟨"ADD", 0xF020, 0x1020, 0xFFFF⟩
  | .ld _ _ => ⟨"LD", 0xF000, 0x2000, 0xFFFF⟩
  | .st _ _ => ⟨"ST", 0xF000, 0x3000, 0xFFFF⟩
  | .jsr _ => ⟨"JSR", 0xF800, 0x4800, 0xFFFF⟩
  | .jsrr _ => ⟨"JSRR", 0xF800, 0x4000, 0xF9C0⟩
  | .andReg _ _ _ => ⟨"AND", 0xF020, 0x5000, 0xFFE7⟩
  | .andImm _ _ _ => ⟨"AND", 0xF020, 0x5020, 0xFFFF⟩
  | .ldr _ _ _ => ⟨"LDR", 0xF000, 0x6000, 0xFFFF⟩
  | .str _ _ _ => ⟨"STR", 0xF000, 0x7000, 0xFFFF⟩
  | .rti => ⟨"RTI", 0xF000, 0x8000, 0xF000⟩
  | .not _ _ => ⟨"NOT", 0xF000, 0x9000, 0xFFC0⟩
  | .ldi _ _ => ⟨"LDI", 0xF000, 0xA000, 0xFFFF⟩
  | .sti _ _ => ⟨"STI", 0xF000, 0xB000, 0xFFFF⟩
  | .jmp _ => ⟨"JMP", 0xF000, 0xC000, 0xF1C0⟩
  | .reserved _ => ⟨"reserved", 0xF000, 0xD000, 0xFFFF⟩
  | .lea _ _ => ⟨"LEA", 0xF000, 0xE000, 0xFFFF⟩
  | .trap _ => ⟨"TRAP", 0xF000, 0xF000, 0xF0FF⟩

end Sys2Proof
end

