-- ==== Sys2Proof/Machine/Params.lean ====
section
/-! DEFINITION. The named constants of rule R73, each defined once, and the default values of the
configuration and the parameters (rules R6, R7). -/

namespace Sys2Proof.Machine

/-- USER_BASE (rule R73): lowest user address, start of the fetch range. -/
def userBase : Nat := 0x3000

/-- DEVICE_BASE (rule R73): end of the fetch range, start of the device region. -/
def deviceBase : Nat := 0xFE00

/-- KBSR, the keyboard status register (rules R51, R73). -/
def kbsrAddr : Nat := 0xFE00

/-- KBDR, the keyboard data register (rules R51, R73). -/
def kbdrAddr : Nat := 0xFE02

/-- DSR, the display status register (rules R51, R73). -/
def dsrAddr : Nat := 0xFE04

/-- DDR, the display data register (rules R51, R73). -/
def ddrAddr : Nat := 0xFE06

/-- MEM_WORDS (rule R73): the number of memory words. -/
def memWords : Nat := 65536

/-- ADDR_MAX (rule R73): the highest address. -/
def addrMax : Nat := 0xFFFF

/-- What a status register reads as when ready: bit 15 (rules R59, R61; decision D10, log 15). -/
def readyWord : Word := 0x8000

/-- What KBSR reads as when the input queue is empty (rule R59). -/
def notReadyWord : Word := 0x0000

/-- The default configuration. `startPC`, HALT_VECTOR, INIT_MODE, SAVED_USP_INIT and SAVED_SSP_INIT
are the defaults of rules R6 and R7. DESIGN CHOICE (logs 3 and 4, unsafe): the spec gives
`ignorePrivilege`, `randomize`, `tickRate` and `executionLimit` no default; the values here are the
conventions of spec/95_test_vectors.md, and 0 for `tickRate`. -/
def standardConfig : Config :=
  { ignorePrivilege := false
    randomize := false
    tickRate := 0
    executionLimit := 1000
    startPC := 0x3000
    haltVector := 0x25
    initMode := .user
    savedUSPInit := 0x0000
    savedSSPInit := 0x3000 }

end Sys2Proof.Machine
end

