-- ==== Sys2Proof/Machine/Memory.lean ====
section
/-! DEFINITION. The backing memory array (rules R31, R50): 65536 words of 16 bits. It is plain data in
one canonical form: a list of (address, word) pairs, addresses strictly rising, no entry equal to what
an unlisted address reads as. A cell holds a word because the architecture has no bytes (rule R19; log
1). These operations are the array itself; every access of an instruction goes through the memory
access controller in `Sys2Proof/Machine/Ops.lean` (rule R65). -/

namespace Sys2Proof.Machine

/-- The memory array as its listed (address, word) cells. -/
abbrev Memory := List (Nat × Word)

/-- What an unlisted address reads as: the fill of construction without `randomize` (rule R39). -/
def Memory.background : Word := 0x0000

/-- Mem[a] of rule R14: the backing word at an address. -/
def Memory.read (m : Memory) (a : Nat) : Word :=
  match m with
  | [] => Memory.background
  | (k, v) :: rest => if k = a then v else Memory.read rest a

/-- Put a cell before the first cell of a higher address. -/
def Memory.insert (m : Memory) (a : Nat) (v : Word) : Memory :=
  match m with
  | [] => [(a, v)]
  | (k, w) :: rest =>
    if a < k then (a, v) :: (k, w) :: rest else (k, w) :: Memory.insert rest a v

/-- Take out every cell of an address. -/
def Memory.erase (m : Memory) (a : Nat) : Memory :=
  match m with
  | [] => []
  | (k, w) :: rest => if k = a then Memory.erase rest a else (k, w) :: Memory.erase rest a

/-- Mem[a] <- v of rule R14. Writing the background value unlists the address. -/
def Memory.write (m : Memory) (a : Nat) (v : Word) : Memory :=
  if v = Memory.background then Memory.erase m a else Memory.insert (Memory.erase m a) a v

/-- The canonical form above a lower bound on the addresses. -/
def Memory.wfFrom (lo : Nat) (m : Memory) : Bool :=
  match m with
  | [] => true
  | (k, v) :: rest =>
    decide (lo ≤ k) && decide (k < memWords) && decide (v ≠ Memory.background)
      && Memory.wfFrom (k + 1) rest

/-- The canonical form: addresses strictly rising, inside the address space, no background entry. -/
def Memory.wf (m : Memory) : Bool := Memory.wfFrom 0 m

/-- Fill addresses 0 to `n` - 1 from a function (rule R211, step 1, when `randomize` is true). -/
def Memory.fill (n : Nat) (f : Word → Word) : Memory :=
  match n with
  | 0 => []
  | k + 1 => Memory.write (Memory.fill k f) k (f (BitVec.ofNat 16 k))

/-- Write the words of a finite map, given as a list, over a memory (rule R211, step 2). Where the list
names an address twice its first entry counts, as in a lookup (log 22). -/
def Memory.overlay (m : Memory) (image : List (Word × Word)) : Memory :=
  match image with
  | [] => m
  | (a, v) :: rest => Memory.write (Memory.overlay m rest) a.toNat v

end Sys2Proof.Machine
end

