-- ==== Sys2Proof/Machine/State.lean ====
section
/-! DEFINITION. The state of the machine (spec/10_state.md), its named updates, the reasons a step can
stop, and the state after construction (rule R39). -/

namespace Sys2Proof.Machine

/-- The tri-state condition code (rule R26): exactly one of N, Z and P holds. -/
inductive CondCode where
  | N
  | Z
  | P
deriving DecidableEq, Repr

/-- The register file (rule R20). -/
structure RegFile where
  r0 : Word
  r1 : Word
  r2 : Word
  r3 : Word
  r4 : Word
  r5 : Word
  r6 : Word
  r7 : Word
deriving DecidableEq, Repr

/-- Everything the spec gives the machine (spec/10_state.md, rules R20 to R38). -/
structure State where
  /-- The construction configuration (rule R38): constant for the life of the machine, carried here because
  `exec` and `step` take nothing but a state (log 2). -/
  cfg : Config
  /-- The general registers R0 to R7 (rule R20). -/
  regs : RegFile
  /-- The program counter (rules R23, R24). -/
  pc : Word
  /-- The instruction register, the most recently fetched word (rule R25). -/
  ir : Word
  /-- The condition code (rule R26). -/
  cc : CondCode
  /-- The mode bit, the whole of the processor status (rule R28). -/
  mode : Mode
  /-- The saved user stack pointer (rule R30). -/
  savedUSP : Word
  /-- The saved supervisor stack pointer (rule R30). -/
  savedSSP : Word
  /-- The memory array (rule R31). -/
  mem : Memory
  /-- The input queue, its head first (rule R32). -/
  inQ : List Word
  /-- The output log, oldest entry first (rule R33). -/
  outLog : List Word
  /-- The stop flag (rule R34). -/
  halted : Bool
  /-- Steps remaining in the current Run (rule R35); host-side, read by no instruction. -/
  budget : Nat
  /-- The recurring-timer handle of RunTick (rules R35, R109): the interval in milliseconds of a pending
  timer; host-side, read by no instruction (log 19). -/
  timer : Option Nat
  /-- The diagnostic call stack, oldest entry first (rule R36); read by no instruction. -/
  diag : List Word
deriving DecidableEq, Repr

/-! The named updates of one field each. -/

def State.setRegs (s : State) (x : RegFile) : State := { s with regs := x }

def State.setPc (s : State) (x : Word) : State := { s with pc := x }

def State.setIr (s : State) (x : Word) : State := { s with ir := x }

def State.setCc (s : State) (x : CondCode) : State := { s with cc := x }

def State.setMode (s : State) (x : Mode) : State := { s with mode := x }

def State.setSavedUSP (s : State) (x : Word) : State := { s with savedUSP := x }

def State.setSavedSSP (s : State) (x : Word) : State := { s with savedSSP := x }

def State.setMem (s : State) (x : Memory) : State := { s with mem := x }

def State.setInQ (s : State) (x : List Word) : State := { s with inQ := x }

def State.setOutLog (s : State) (x : List Word) : State := { s with outLog := x }

def State.setHalted (s : State) (x : Bool) : State := { s with halted := x }

def State.setBudget (s : State) (x : Nat) : State := { s with budget := x }

def State.setTimer (s : State) (x : Option Nat) : State := { s with timer := x }

def State.setDiag (s : State) (x : List Word) : State := { s with diag := x }

/-- The error kinds of rule R180. A fault ends the Step, Run or load in progress and is reported to the
host (rules R15, R183). `left` is the state the fault leaves (rule R186), from which a host may resume
(rule R110, log 10). -/
inductive Fault where
  /-- AccessViolation: a memory access whose address fails the permission test (rules R55, R181). Raised
  by `memRead` and `memWrite`, and before any access by `trapEntry` and `trapReturn`: by LD, LDR, LDI,
  ST, STR, STI, TRAP, RTI and the loader. Safe: the spec ends the Step here. -/
  | accessViolation (address : Int) (pc ir : Word) (left : State)
  /-- UnknownInstruction: the reserved opcode (rule R104). Raised by `execReserved`. Safe: the spec ends
  the Step here. -/
  | unknownInstruction (ir : Word) (opcode : BitVec 4) (left : State)
  /-- OutOfBounds: PC outside the permitted fetch range (rule R101). Raised by `fetch`. Safe: the spec
  ends the Step here. -/
  | outOfBounds (pc : Word) (left : State)
  /-- RunawayProgram: the instruction budget is exhausted (rule R107). Raised by `run`, never by a step.
  Safe: the spec ends the Run here. -/
  | runawayProgram (pc : Word) (left : State)
  /-- MalformedImage: a loader input that is not a whole number of segments (rule R214). Raised by
  `load`, never by a step. Safe: the spec refuses the image. -/
  | malformedImage (offset : Nat) (left : State)
deriving DecidableEq, Repr

/-- The state a fault leaves (rule R186). -/
def Fault.left (f : Fault) : State :=
  match f with
  | .accessViolation _ _ _ s => s
  | .unknownInstruction _ _ s => s
  | .outOfBounds _ s => s
  | .runawayProgram _ s => s
  | .malformedImage _ s => s

/-- Why the model gives no meaning. No instruction of this model is refused. -/
inductive Refusal where
  /-- An instruction with no meaning yet; raised only by an arm of `exec`, and no arm does. Safe. -/
  | notModelled (mnemonic : String)
deriving DecidableEq, Repr

/-- The machine right after construction with the default configuration (rule R39). The spec gives every
value but these (DESIGN CHOICE, unsafe): the configuration values without a default (logs 3, 4), an
empty SUPERVISOR_IMAGE (log 5), and `budget` and `timer` before any Run (log 8). -/
def State.reset : State :=
  { cfg := standardConfig
    regs := ⟨0x0000, 0x0000, 0x0000, 0x0000, 0x0000, 0x0000, 0x0000, 0x0000⟩
    pc := 0x3000
    ir := 0x0000
    cc := .Z
    mode := .user
    savedUSP := 0x0000
    savedSSP := 0x3000
    mem := []
    inQ := []
    outLog := []
    halted := false
    budget := 0
    timer := none
    diag := [] }

end Sys2Proof.Machine
end

