-- ==== Sys2Proof/Machine/Registers.lean ====
section
/-! DEFINITION. Reading and writing the general registers (rules R13, R20). No register is hardwired. -/

namespace Sys2Proof.Machine

/-- The value of a register of the file. -/
def RegFile.get (f : RegFile) (r : Reg) : Word :=
  match r with
  | .r0 => f.r0
  | .r1 => f.r1
  | .r2 => f.r2
  | .r3 => f.r3
  | .r4 => f.r4
  | .r5 => f.r5
  | .r6 => f.r6
  | .r7 => f.r7

/-- The file with one register written. -/
def RegFile.set (f : RegFile) (r : Reg) (v : Word) : RegFile :=
  match r with
  | .r0 => { f with r0 := v }
  | .r1 => { f with r1 := v }
  | .r2 => { f with r2 := v }
  | .r3 => { f with r3 := v }
  | .r4 => { f with r4 := v }
  | .r5 => { f with r5 := v }
  | .r6 => { f with r6 := v }
  | .r7 => { f with r7 := v }

/-- x[i] of rule R13. -/
def State.reg (s : State) (r : Reg) : Word := s.regs.get r

/-- x[i] <- v of rule R13. -/
def State.setReg (s : State) (r : Reg) (v : Word) : State := s.setRegs (s.regs.set r v)

end Sys2Proof.Machine
end

