-- ==== Sys2Proof/Machine/Flags.lean ====
section
/-! DEFINITION. The condition code and the processor-status word (rules R16, R26 to R29, R120). -/

namespace Sys2Proof.Machine

/-- The condition code of a value: N when bit 15 is 1, Z when it is 0x0000, P otherwise (rule R16). -/
def ccOf (v : Word) : CondCode :=
  if v.getLsbD 15 then .N else if v = 0x0000 then .Z else .P

/-- setcc(v) of rule R16. -/
def setcc (v : Word) (s : State) : State := s.setCc (ccOf v)

/-- x[DR] <- v; setcc(v): how every instruction that sets the condition code ends (rule R27). -/
def writeResult (dr : Reg) (v : Word) (s : State) : State := setcc v (s.setReg dr v)

/-- Whether a BR mask meets the condition code (rule R120). -/
def branchTaken (n z p : Bool) (cc : CondCode) : Bool :=
  match cc with
  | .N => n
  | .Z => z
  | .P => p

/-- The mode bit: 0 supervisor, 1 user (rule R28). -/
def modeBit (m : Mode) : BitVec 1 :=
  match m with
  | .supervisor => 0
  | .user => 1

/-- The pushed processor-status word: the mode in bit 15, bits 14:0 zero (rule R29; decision D7, log 14). -/
def statusWord (m : Mode) : Word := modeBit m ++ 0#15

/-- The mode a popped status word restores: bit 15; bits 14:0 are ignored (rule R29). -/
def modeOfStatus (w : Word) : Mode := if w.getLsbD 15 then .user else .supervisor

end Sys2Proof.Machine
end

