-- ==== Sys2Proof/Machine/Operands.lean ====
section
/-! DEFINITION. Operand forms and effective addresses (rules R11, R12, R84, R85). -/

namespace Sys2Proof.Machine

/-- sext_N of rule R12: the field's sign bit is copied into every higher bit. -/
def sext {n : Nat} (f : BitVec n) : Word := f.signExtend 16

/-- zext_16 of rule R12: the higher bits are 0. -/
def zext {n : Nat} (f : BitVec n) : Word := f.setWidth 16

/-- The PC-relative address or target, modulo 2^16 (rules R11, R84). PC already holds the address of the
instruction plus 1 (rule R17). -/
def pcRelative {n : Nat} (s : State) (offset : BitVec n) : Word := s.pc + sext offset

/-- The base-plus-offset address, modulo 2^16 (rules R11, R84). -/
def baseRelative (s : State) (baseR : Reg) (offset6 : BitVec 6) : Word := s.reg baseR + sext offset6

/-- The trap-vector table entry of a vector: the zero-extended vector, the table standing at 0x0000
(rules R51, R84; decision D8, log 14). -/
def trapTableEntry (trapvect8 : BitVec 8) : Word := zext trapvect8

end Sys2Proof.Machine
end

