-- ==== Sys2Proof/Machine/Ops.lean ====
section
/-! DEFINITION. The named operations: the memory access controller and its devices (rules R55 to R64),
the stack (rule R170), the shared ends of loads, stores and calls, trap entry (rule R171) and trap
return (rule R173). -/

namespace Sys2Proof.Machine

/-- The device-register addresses (rule R51). -/
def isDeviceRegister (a : Int) : Bool :=
  decide (a = kbsrAddr) || decide (a = kbdrAddr) || decide (a = dsrAddr) || decide (a = ddrAddr)

/-- PermOK(a) of rule R55. It reads the address and `ignorePrivilege` only, never the mode (90_conflicts
C1). The address is an integer, since the loader's sum is unbounded (rule R215). -/
def permOK (cfg : Config) (a : Int) : Bool :=
  decide (0 ≤ a) && decide (a ≤ addrMax)
    && (cfg.ignorePrivilege
      || (decide ((userBase : Int) ≤ a) && (decide (a < deviceBase) || isDeviceRegister a)))

/-- The AccessViolation an access to `a` raises, with the info of rule R181. -/
def accessFault (a : Int) (s : State) : Fault := .accessViolation a s.pc s.ir s

/-- KBSR_value() of rule R59. -/
def kbsrValue (s : State) : Word := if s.inQ = [] then notReadyWord else readyWord

/-- KBDR_read() of rule R60: the head of the input queue, which it removes; 0x0000 when empty. -/
def kbdrRead (s : State) : Word × State :=
  match s.inQ with
  | [] => (0x0000, s)
  | c :: rest => (c, s.setInQ rest)

/-- MemRead(a, 1) of rule R56: the permission test, the device intercepts, then the backing word. A read
of DDR falls through to the backing word (rule R63). -/
def memRead (a : Int) (s : State) : Except Fault (Word × State) :=
  if permOK s.cfg a then
    if a = kbsrAddr then .ok (kbsrValue s, s)
    else if a = kbdrAddr then .ok (kbdrRead s)
    else if a = dsrAddr then .ok (readyWord, s)
    else .ok (s.mem.read a.toNat, s)
  else .error (accessFault a s)

/-- MemWrite(a, 1, v) of rule R57: the permission test, the DDR intercept, then the backing word. Writes
to KBSR, KBDR and DSR reach the backing word (rule R63). -/
def memWrite (a : Int) (v : Word) (s : State) : Except Fault State :=
  if permOK s.cfg a then
    if a = ddrAddr then .ok (s.setOutLog (s.outLog ++ [v]))
    else .ok (s.setMem (s.mem.write a.toNat v))
  else .error (accessFault a s)

/-- push(v) of rule R170: pre-decrement R6, then write (decision D6, log 14). -/
def push (v : Word) (s : State) : Except Fault State :=
  memWrite ((s.reg .r6 - 1).toNat : Int) v (s.setReg .r6 (s.reg .r6 - 1))

/-- pop() of rule R170: read, then post-increment R6 (decision D6, log 14). -/
def pop (s : State) : Except Fault (Word × State) :=
  match memRead ((s.reg .r6).toNat : Int) s with
  | .error f => .error f
  | .ok (v, s1) => .ok (v, s1.setReg .r6 (s.reg .r6 + 1))

/-- The first address of a list that fails the permission test. TRAP and RTI test all their addresses
before the first access (rule R170; decision D14, log 11). -/
def firstDenied (cfg : Config) (as : List Word) : Option Word :=
  as.find? (fun a => !permOK cfg (a.toNat : Int))

/-- The second half of LD, LDR and LDI: read `ea`, write the destination and cc (rules R140 to R142). -/
def loadFrom (dr : Reg) (ea : Word) (s : State) : Host.Outcome State Fault Refusal :=
  match memRead (ea.toNat : Int) s with
  | .error f => .fault f
  | .ok (v, s1) => .next (writeResult dr v s1)

/-- The second half of ST, STR and STI: write x[SR] at `ea` (rules R150 to R152). -/
def storeTo (ea : Word) (v : Word) (s : State) : Host.Outcome State Fault Refusal :=
  match memWrite (ea.toNat : Int) v s with
  | .error f => .fault f
  | .ok s1 => .next s1

/-- The call of JSR and JSRR: the return address goes onto the diagnostic call stack and into R7, then
PC takes the target, which the caller computed before (rules R160, R161). -/
def callTo (target : Word) (s : State) : Host.Outcome State Fault Refusal :=
  .next (((s.setDiag (s.diag ++ [s.pc])).setReg .r7 s.pc).setPc target)

/-- The jump of JMP: a jump through R7 pops the diagnostic call stack, and popping an empty one does
nothing (rule R162; decision D25, log 21). -/
def jumpThrough (baseR : Reg) (s : State) : Host.Outcome State Fault Refusal :=
  .next ((s.setPc (s.reg baseR)).setDiag (if baseR = .r7 then s.diag.dropLast else s.diag))

/-- The stack pointer a trap entry pushes through: savedSSP from user mode, R6 from supervisor mode
(rule R171). -/
def trapStack (s : State) : Word := if s.mode = .user then s.savedSSP else s.reg .r6

/-- What the end of a trap entry writes: the user R6 is saved when entering from user mode, R6 takes the
new stack top, the mode bit is cleared and PC takes the target (rules R171, R188). -/
def enterSupervisor (top target : Word) (s : State) : State :=
  (((s.setSavedUSP (if s.mode = .user then s.reg .r6 else s.savedUSP)).setReg .r6 top).setMode
    .supervisor).setPc target

/-- Taking a trap (rules R171, R188): all three permission tests, in order, come before the first access;
then the PC and the status word are pushed and the table entry is read; the registers are written last. -/
def trapEntry (trapvect8 : BitVec 8) (s : State) : Host.Outcome State Fault Refusal :=
  match firstDenied s.cfg [trapStack s - 1, trapStack s - 2, trapTableEntry trapvect8] with
  | some a => .fault (accessFault (a.toNat : Int) s)
  | none =>
    match memWrite ((trapStack s - 1).toNat : Int) s.pc s with
    | .error f => .fault f
    | .ok s1 =>
      match memWrite ((trapStack s - 2).toNat : Int) (statusWord s.mode) s1 with
      | .error f => .fault f
      | .ok s2 =>
        match memRead ((trapTableEntry trapvect8).toNat : Int) s2 with
        | .error f => .fault f
        | .ok (target, s3) => .next (enterSupervisor (trapStack s - 2) target s3)

/-- What the end of a trap return writes: R6 takes the popped stack top, the mode comes from the status
word, and when that is user mode R6 goes to savedSSP and savedUSP comes back into R6; PC takes the popped
word (rules R173, R189). -/
def leaveTrap (top status target : Word) (s : State) : State :=
  if modeOfStatus status = .user then
    (((s.setSavedSSP top).setReg .r6 s.savedUSP).setMode .user).setPc target
  else ((s.setReg .r6 top).setMode .supervisor).setPc target

/-- Returning from a trap (rules R173, R189): both permission tests come before the first pop. There is
no mode check (decision D36, log 17). -/
def trapReturn (s : State) : Host.Outcome State Fault Refusal :=
  match firstDenied s.cfg [s.reg .r6, s.reg .r6 + 1] with
  | some a => .fault (accessFault (a.toNat : Int) s)
  | none =>
    match memRead ((s.reg .r6).toNat : Int) s with
    | .error f => .fault f
    | .ok (status, s1) =>
      match memRead ((s.reg .r6 + 1).toNat : Int) s1 with
      | .error f => .fault f
      | .ok (target, s2) => .next (leaveTrap (s.reg .r6 + 2) status target s2)

end Sys2Proof.Machine
end

