-- ==== Sys2Proof/Machine/Alu.lean ====
section
/-! DEFINITION. ADD, AND and NOT (spec/42_alu.md). Sources are read before DR is written (rule R133). -/

namespace Sys2Proof.Machine

/-- ADD, register form (rule R130). -/
def execAddReg (dr sr1 sr2 : Reg) (s : State) : Host.Outcome State Fault Refusal :=
  .next (writeResult dr (s.reg sr1 + s.reg sr2) s)

/-- ADD, immediate form (rule R130). -/
def execAddImm (dr sr1 : Reg) (imm5 : BitVec 5) (s : State) : Host.Outcome State Fault Refusal :=
  .next (writeResult dr (s.reg sr1 + sext imm5) s)

/-- AND, register form (rule R131). -/
def execAndReg (dr sr1 sr2 : Reg) (s : State) : Host.Outcome State Fault Refusal :=
  .next (writeResult dr (s.reg sr1 &&& s.reg sr2) s)

/-- AND, immediate form (rule R131). -/
def execAndImm (dr sr1 : Reg) (imm5 : BitVec 5) (s : State) : Host.Outcome State Fault Refusal :=
  .next (writeResult dr (s.reg sr1 &&& sext imm5) s)

/-- NOT (rule R132). -/
def execNot (dr sr : Reg) (s : State) : Host.Outcome State Fault Refusal :=
  .next (writeResult dr (~~~(s.reg sr)) s)

end Sys2Proof.Machine
end

