-- ==== Sys2Proof/Machine/Branch.lean ====
section
/-! DEFINITION. BR (spec/41_branch.md). -/

namespace Sys2Proof.Machine

/-- BR (rule R120): the target is not checked here but by the next fetch. -/
def execBr (n z p : Bool) (offset9 : BitVec 9) (s : State) : Host.Outcome State Fault Refusal :=
  .next (if branchTaken n z p s.cc then s.setPc (pcRelative s offset9) else s)

end Sys2Proof.Machine
end

