-- ==== Sys2Proof/Machine/Control.lean ====
section
/-! DEFINITION. JSR, JSRR and JMP (spec/45_control.md). Targets are checked by the next fetch only. -/

namespace Sys2Proof.Machine

/-- JSR (rule R160). -/
def execJsr (offset11 : BitVec 11) (s : State) : Host.Outcome State Fault Refusal :=
  callTo (pcRelative s offset11) s

/-- JSRR (rule R161): the target is read before R7 is written (decision D24, log 21). -/
def execJsrr (baseR : Reg) (s : State) : Host.Outcome State Fault Refusal :=
  callTo (s.reg baseR) s

/-- JMP, and RET when the base register is R7 (rule R162): it always succeeds (90_conflicts C4). -/
def execJmp (baseR : Reg) (s : State) : Host.Outcome State Fault Refusal :=
  jumpThrough baseR s

end Sys2Proof.Machine
end

