-- ==== Sys2Proof/Machine/Load.lean ====
section
/-! DEFINITION. LD, LDR, LDI and LEA (spec/43_load.md). -/

namespace Sys2Proof.Machine

/-- LD (rule R140). -/
def execLd (dr : Reg) (offset9 : BitVec 9) (s : State) : Host.Outcome State Fault Refusal :=
  loadFrom dr (pcRelative s offset9) s

/-- LDR (rule R141): the address uses the base register's old value, also when it is DR. -/
def execLdr (dr baseR : Reg) (offset6 : BitVec 6) (s : State) : Host.Outcome State Fault Refusal :=
  loadFrom dr (baseRelative s baseR offset6) s

/-- LDI (rule R142): the pointer read is performed before the datum's address is tested, so its effect
stands when the second access faults (rule R186; decision D14, log 11). -/
def execLdi (dr : Reg) (offset9 : BitVec 9) (s : State) : Host.Outcome State Fault Refusal :=
  match memRead ((pcRelative s offset9).toNat : Int) s with
  | .error f => .fault f
  | .ok (pointer, s1) => loadFrom dr pointer s1

/-- LEA (rule R143): no memory access, cc unchanged. -/
def execLea (dr : Reg) (offset9 : BitVec 9) (s : State) : Host.Outcome State Fault Refusal :=
  .next (s.setReg dr (pcRelative s offset9))

end Sys2Proof.Machine
end

