-- ==== Sys2Proof/Machine/Store.lean ====
section
/-! DEFINITION. ST, STR and STI (spec/44_store.md). -/

namespace Sys2Proof.Machine

/-- ST (rule R150). -/
def execSt (sr : Reg) (offset9 : BitVec 9) (s : State) : Host.Outcome State Fault Refusal :=
  storeTo (pcRelative s offset9) (s.reg sr) s

/-- STR (rule R151). -/
def execStr (sr baseR : Reg) (offset6 : BitVec 6) (s : State) : Host.Outcome State Fault Refusal :=
  storeTo (baseRelative s baseR offset6) (s.reg sr) s

/-- STI (rule R152): the pointer access is a read, and it is performed before the second address is
tested (rule R186; decision D14, log 11). -/
def execSti (sr : Reg) (offset9 : BitVec 9) (s : State) : Host.Outcome State Fault Refusal :=
  match memRead ((pcRelative s offset9).toNat : Int) s with
  | .error f => .fault f
  | .ok (pointer, s1) => storeTo pointer (s1.reg sr) s1

end Sys2Proof.Machine
end

