-- ==== Sys2Proof/Machine/System.lean ====
section
/-! DEFINITION. TRAP and RTI (spec/46_system.md), and the reserved opcode (spec/40_engine.md). -/

namespace Sys2Proof.Machine

/-- TRAP: the HALT vector stops the machine with no other effect (rule R172); any other vector is a
system call (rule R171). R7 is not written (decision D26, log 14). -/
def execTrap (trapvect8 : BitVec 8) (s : State) : Host.Outcome State Fault Refusal :=
  if trapvect8 = s.cfg.haltVector then .next (s.setHalted true) else trapEntry trapvect8 s

/-- RTI (rule R173). -/
def execRti (s : State) : Host.Outcome State Fault Refusal :=
  trapReturn s

/-- The reserved opcode 0xD raises UnknownInstruction with the fetched word (rules R87, R104). -/
def execReserved (s : State) : Host.Outcome State Fault Refusal :=
  .fault (.unknownInstruction s.ir 0xD s)

end Sys2Proof.Machine
end

