-- ==== Sys2Proof/Machine/Dispatch.lean ====
section
/-! DEFINITION. The dispatcher (rule R103): one arm per constructor of `Instr`. -/

namespace Sys2Proof.Machine

-- The state given to a meaning is the state after the fetch: PC holds the address of the instruction
-- plus 1 and IR its word (rule R17).
def exec (i : Instr) (s : State) : Host.Outcome State Fault Refusal :=
  match i with
  | .br n z p offset9 => Sys2Proof.Machine.execBr n z p offset9 s
  | .addReg dr sr1 sr2 => Sys2Proof.Machine.execAddReg dr sr1 sr2 s
  | .addImm dr sr1 imm5 => Sys2Proof.Machine.execAddImm dr sr1 imm5 s
  | .ld dr offset9 => Sys2Proof.Machine.execLd dr offset9 s
  | .st sr offset9 => Sys2Proof.Machine.execSt sr offset9 s
  | .jsr offset11 => Sys2Proof.Machine.execJsr offset11 s
  | .jsrr baseR => Sys2Proof.Machine.execJsrr baseR s
  | .andReg dr sr1 sr2 => Sys2Proof.Machine.execAndReg dr sr1 sr2 s
  | .andImm dr sr1 imm5 => Sys2Proof.Machine.execAndImm dr sr1 imm5 s
  | .ldr dr baseR offset6 => Sys2Proof.Machine.execLdr dr baseR offset6 s
  | .str sr baseR offset6 => Sys2Proof.Machine.execStr sr baseR offset6 s
  | .rti => Sys2Proof.Machine.execRti s
  | .not dr sr => Sys2Proof.Machine.execNot dr sr s
  | .ldi dr offset9 => Sys2Proof.Machine.execLdi dr offset9 s
  | .sti sr offset9 => Sys2Proof.Machine.execSti sr offset9 s
  | .jmp baseR => Sys2Proof.Machine.execJmp baseR s
  | .reserved _ => Sys2Proof.Machine.execReserved s
  | .lea dr offset9 => Sys2Proof.Machine.execLea dr offset9 s
  | .trap trapvect8 => Sys2Proof.Machine.execTrap trapvect8 s

end Sys2Proof.Machine
end

