-- ==== Sys2Proof/Machine/Fetch.lean ====
section
/-! DEFINITION. The fetch phase of a Step (rules R101, R102). -/

namespace Sys2Proof.Machine

/-- The fetch-range test (rule R101): it does not read the mode. -/
def fetchOK (s : State) : Bool :=
  s.cfg.ignorePrivilege || (decide (userBase ≤ s.pc.toNat) && decide (s.pc.toNat < deviceBase))

/-- The fetch: the range test, then IR takes the word at PC, read through the MAC, and PC is incremented
modulo 2^16 (rules R101, R102). With privilege checks off a fetch at a device address is a device read. -/
def fetch (s : State) : Except Fault State :=
  if fetchOK s then
    match memRead (s.pc.toNat : Int) s with
    | .error f => .error f
    | .ok (w, s1) => .ok ((s1.setIr w).setPc (s.pc + 1))
  else .error (.outOfBounds s.pc s)

end Sys2Proof.Machine
end

