-- ==== Sys2Proof/Machine/Cycle.lean ====
section
/-! DEFINITION. One fetch-decode-execute cycle (rule R106). -/

namespace Sys2Proof.Machine

/-- Step() of rule R106: nothing on a halted machine (rule R100); otherwise fetch, decode IR, and run the
handler. -/
def cycle (s : State) : Host.Outcome State Fault Refusal :=
  if s.halted then .next s
  else
    match fetch s with
    | .error f => .fault f
    | .ok s1 => exec (decode s1.ir) s1

end Sys2Proof.Machine
end

