-- ==== Sys2Proof/Machine/Step.lean ====
section
/-! DEFINITION. The step of the machine (rule R106), and where the host places an instruction. -/

namespace Sys2Proof.Machine

/-- One Step (rules R100 to R106). -/
def step (s : State) : Host.Outcome State Fault Refusal := cycle s

/-- The state with one instruction word stored where `step` fetches next: the backing word at PC. It
stands for the host's load transaction (rules R111, R215; log 9). -/
def State.withFetchWord (s : State) (nbits w : Nat) : State :=
  s.setMem (s.mem.write s.pc.toNat (BitVec.ofNat 16 (w % 2 ^ nbits)))

end Sys2Proof.Machine
end

