-- ==== Sys2Proof/Machine/Construct.lean ====
section
/-! DEFINITION. Construction, the only reset (rules R210 to R212): the state a configuration, a
RANDOM_FILL and a SUPERVISOR_IMAGE give. -/

namespace Sys2Proof.Machine

/-- Memory at construction (rule R211): the fill, then the supervisor image over it, both written to the
array directly and not through the MAC (rule R67; 90_conflicts C2). -/
def constructMemory (randomize : Bool) (randomFill : Word → Word) (image : List (Word × Word)) :
    Memory :=
  Memory.overlay (if randomize then Memory.fill memWords randomFill else []) image

/-- What makes a list a SUPERVISOR_IMAGE (rule R7): every address it names lies below USER_BASE. -/
def supervisorImageOK (image : List (Word × Word)) : Bool :=
  image.all (fun e => decide (e.1.toNat < userBase))

/-- construct(config, params) of rule R111: the state of rule R39 for every configuration. `budget` and
`timer` mean nothing before a Run (log 8). -/
def State.construct (cfg : Config) (randomFill : Word → Word) (image : List (Word × Word)) : State :=
  { cfg := cfg
    regs := ⟨0x0000, 0x0000, 0x0000, 0x0000, 0x0000, 0x0000, 0x0000, 0x0000⟩
    pc := cfg.startPC
    ir := 0x0000
    cc := .Z
    mode := cfg.initMode
    savedUSP := cfg.savedUSPInit
    savedSSP := cfg.savedSSPInit
    mem := constructMemory cfg.randomize randomFill image
    inQ := []
    outLog := []
    halted := false
    budget := 0
    timer := none
    diag := [] }

end Sys2Proof.Machine
end

