-- ==== Sys2Proof/Machine/Engine.lean ====
section
/-! DEFINITION. The host's control of the engine (rules R107 to R112): Run, RunTick, Stop, input, output
and observation, each a function on the state beside `step`. -/

namespace Sys2Proof.Machine

/-- The loop of Run (rule R107) with `n` steps of budget left: `halted` is tested before the budget, and
a fault of a step ends Run with that fault. -/
def runLoop (n : Nat) (s : State) : Host.Outcome State Fault Refusal :=
  if s.halted then .next s
  else
    match n with
    | 0 => .fault (.runawayProgram s.pc s)
    | k + 1 =>
      match step s with
      | .next s1 => runLoop k (s1.setBudget k)
      | .fault f => .fault f
      | .refused r => .refused r

/-- Run() of rule R107: the budget restarts at `executionLimit` on each call (decision D22, log 19). -/
def run (s : State) : Host.Outcome State Fault Refusal :=
  runLoop s.cfg.executionLimit (s.setBudget s.cfg.executionLimit)

/-- Stop of rule R108: sets `halted` and cancels a pending recurring timer. -/
def stop (s : State) : State := (s.setHalted true).setTimer none

/-- RunTick of rule R109: schedules a Step per interval with the single recurring timer (log 19). -/
def runTick (s : State) : State := s.setTimer (some s.cfg.tickRate)

/-- The same fault, leaving another state. -/
def Fault.withLeft (f : Fault) (g : State → State) : Fault :=
  match f with
  | .accessViolation a pc ir s => .accessViolation a pc ir (g s)
  | .unknownInstruction ir op s => .unknownInstruction ir op (g s)
  | .outOfBounds pc s => .outOfBounds pc (g s)
  | .runawayProgram pc s => .runawayProgram pc (g s)
  | .malformedImage o s => .malformedImage o (g s)

/-- One firing of the recurring timer (rule R109): exactly one Step; a fault ends RunTick by cancelling
the timer without setting `halted` (decision D32, log 19). Without a pending timer nothing fires. -/
def tick (s : State) : Host.Outcome State Fault Refusal :=
  match s.timer with
  | none => .next s
  | some _ =>
    match step s with
    | .next s1 => .next s1
    | .fault f => .fault (f.withLeft (fun t => t.setTimer none))
    | .refused r => .refused r

/-- pushInput(c) of rule R111: append at the tail of the input queue (rule R32). -/
def pushInput (c : Word) (s : State) : State := s.setInQ (s.inQ ++ [c])

/-- drainOutput of rule R111: the entries of the output log; the core does nothing. -/
def drainOutput (s : State) : List Word := s.outLog

/-- What the host may observe between steps (rule R111). -/
structure Observation where
  regs : RegFile
  pc : Word
  ir : Word
  cc : CondCode
  mode : Mode
  savedUSP : Word
  savedSSP : Word
  halted : Bool
  mem : Memory
  diag : List Word
deriving DecidableEq, Repr

/-- observe of rule R111. -/
def observe (s : State) : Observation :=
  ⟨s.regs, s.pc, s.ir, s.cc, s.mode, s.savedUSP, s.savedSSP, s.halted, s.mem, s.diag⟩

/-- Resuming after a fault (rule R110; decision D31, log 10): the host steps on from the state the fault
left. -/
def resume (f : Fault) : State := f.left

/-- The numeric code of an error kind (rule R180; decision D21, log 18). -/
def faultCode (f : Fault) : Nat :=
  match f with
  | .accessViolation _ _ _ _ => 1
  | .unknownInstruction _ _ _ => 2
  | .outOfBounds _ _ => 3
  | .runawayProgram _ _ => 4
  | .malformedImage _ _ => 5

end Sys2Proof.Machine
end

