-- ==== Sys2Proof/Machine/Loader.lean ====
section
/-! DEFINITION. The object-image loader (rules R213 to R216), a transaction of the host. -/

namespace Sys2Proof.Machine

/-- One segment of an object image: its start address and its data words (rule R213). -/
structure Segment where
  start : Word
  data : List Word
deriving DecidableEq, Repr

/-- The structure check of rule R214, from the header at word offset `offset`: the segments of the image,
or the offset of the header of the first incomplete segment. `fuel` bounds the number of headers; each
takes two words, so the image's length is enough. -/
def parseSegments (fuel offset : Nat) (img : List Word) : Except Nat (List Segment) :=
  match fuel, img with
  | _, [] => .ok []
  | 0, _ :: _ => .error offset
  | _ + 1, [_] => .error offset
  | fuel + 1, start :: length :: rest =>
    if rest.length < length.toNat then .error offset
    else
      match parseSegments fuel (offset + 2 + length.toNat) (rest.drop length.toNat) with
      | .error e => .error e
      | .ok segs => .ok (⟨start, rest.take length.toNat⟩ :: segs)

/-- The structure check of a whole image (rule R214). -/
def parseImage (img : List Word) : Except Nat (List Segment) := parseSegments img.length 0 img

/-- The writes of one segment from an unbounded address on, through the MAC (rule R215). -/
def loadWords (a : Nat) (data : List Word) (s : State) : Except Fault State :=
  match data with
  | [] => .ok s
  | v :: rest =>
    match memWrite (a : Int) v s with
    | .error f => .error f
    | .ok s1 => loadWords (a + 1) rest s1

/-- The writes of the segments in order; the first AccessViolation ends the load and the words written
before it stay (rules R186, R215). -/
def loadSegments (segs : List Segment) (s : State) : Except Fault State :=
  match segs with
  | [] => .ok s
  | g :: rest =>
    match loadWords g.start.toNat g.data s with
    | .error f => .error f
    | .ok s1 => loadSegments rest s1

/-- Load(img) of rule R215: the structure check, then the writes. It changes nothing but what its writes
do (rule R216). -/
def load (img : List Word) (s : State) : Host.Outcome State Fault Refusal :=
  match parseImage img with
  | .error offset => .fault (.malformedImage offset s)
  | .ok segs =>
    match loadSegments segs s with
    | .error f => .fault f
    | .ok s1 => .next s1

end Sys2Proof.Machine
end

