-- ==== Sys2Proof/Safety.lean ====
section
/-! DEFINITION. What counts as a safe run, and the terms the claims use: the spec's permission test and
device reads written a second time as predicates, the frames, and runs of many steps. -/

namespace Sys2Proof.Machine

/-- The value of the `n` bits of a word from bit `lo` up (rule R82). -/
def bitsAt (w : Word) (lo n : Nat) : Nat := w.toNat / 2 ^ lo % 2 ^ n

/-- An integer as an address or value of the core, modulo 2^16 (rule R11). -/
def wrap (x : Int) : Word := BitVec.ofInt 16 x

/-- The condition code a value of rule R10's sign calls for (rules R10, R16). -/
def SignCode (v : Word) (c : CondCode) : Prop :=
  (c = .N ↔ 0x8000 ≤ v.toNat) ∧ (c = .Z ↔ v.toNat = 0) ∧ (c = .P ↔ 0 < v.toNat ∧ v.toNat < 0x8000)

/-- The permission test of rule R55 for a 16-bit address. -/
def Permitted (cfg : Config) (a : Word) : Prop :=
  cfg.ignorePrivilege = true ∨
    (0x3000 ≤ a.toNat ∧
      (a.toNat < 0xFE00 ∨ a = 0xFE00#16 ∨ a = 0xFE02#16 ∨ a = 0xFE04#16 ∨ a = 0xFE06#16))

/-- The fetch-range test of rule R101. -/
def Fetchable (s : State) : Prop :=
  s.cfg.ignorePrivilege = true ∨ (0x3000 ≤ s.pc.toNat ∧ s.pc.toNat < 0xFE00)

/-- What a permitted read returns (rules R56, R59 to R61, R63). -/
def readValue (s : State) (a : Word) : Word :=
  if a = 0xFE00#16 then (if s.inQ = [] then 0x0000#16 else 0x8000#16)
  else if a = 0xFE02#16 then s.inQ.headD 0x0000#16
  else if a = 0xFE04#16 then 0x8000#16
  else s.mem.read a.toNat

/-- The input queue after a permitted read (rules R54, R60). -/
def queueAfterRead (q : List Word) (a : Word) : List Word := if a = 0xFE02#16 then q.tail else q

/-- No register changed. -/
def SameRegisters (s t : State) : Prop := ∀ r, t.reg r = s.reg r

/-- One register holds a value and every other is unchanged. -/
def OnlyRegister (d : Reg) (v : Word) (s t : State) : Prop := ∀ r, t.reg r = if r = d then v else s.reg r

/-- Every word of memory reads as before. -/
def SameMemory (s t : State) : Prop := ∀ a : Nat, t.mem.read a = s.mem.read a

/-- The input queue and the output log are unchanged. -/
def SameDevices (s t : State) : Prop := t.inQ = s.inQ ∧ t.outLog = s.outLog

/-- The state only TRAP, RTI, the fetch or the host writes is unchanged. -/
def SameControl (s t : State) : Prop :=
  t.cfg = s.cfg ∧ t.ir = s.ir ∧ t.mode = s.mode ∧ t.savedUSP = s.savedUSP ∧
    t.savedSSP = s.savedSSP ∧ t.halted = s.halted ∧ t.budget = s.budget ∧ t.timer = s.timer

/-- Effect and frame of an instruction that computes a value into a register and sets cc from it. -/
def Computes (dr : Reg) (v : Word) (s t : State) : Prop :=
  OnlyRegister dr v s t ∧ SignCode v t.cc ∧ t.pc = s.pc ∧ t.diag = s.diag ∧ SameControl s t ∧
    SameMemory s t ∧ SameDevices s t

/-- Effect and frame of a load of the word at `ea`: as a computation of the value read, but for the entry
a KBDR read takes from the input queue. -/
def Loads (dr : Reg) (ea : Word) (s t : State) : Prop :=
  OnlyRegister dr (readValue s ea) s t ∧ SignCode (readValue s ea) t.cc ∧ t.pc = s.pc ∧
    t.diag = s.diag ∧ SameControl s t ∧ SameMemory s t ∧ t.inQ = queueAfterRead s.inQ ea ∧
    t.outLog = s.outLog

/-- Effect and frame of a store of `v` at `ea`: the word at `ea`, or the output log for DDR, and nothing
else. -/
def Stores (ea v : Word) (s t : State) : Prop :=
  (∀ a : Nat, t.mem.read a = if a = ea.toNat ∧ ea ≠ 0xFE06#16 then v else s.mem.read a) ∧
    t.outLog = (if ea = 0xFE06#16 then s.outLog ++ [v] else s.outLog) ∧ t.inQ = s.inQ ∧
    SameRegisters s t ∧ t.cc = s.cc ∧ t.pc = s.pc ∧ t.diag = s.diag ∧ SameControl s t

/-- The AccessViolation of an access to `a` that leaves `left`, with the info of rule R181. -/
def denied (a : Word) (left : State) : Host.Outcome State Fault Refusal :=
  .fault (.accessViolation (a.toNat : Int) left.pc left.ir left)

/-- The words of an object image with these segments (rule R213). -/
def imageWords (segs : List Segment) : List Word :=
  segs.flatMap (fun g => g.start :: BitVec.ofNat 16 g.data.length :: g.data)

/-- The writes a load of these segments asks for, in order: the data word of index i of a segment goes to
the unbounded sum of its start and i (rule R215). -/
def imageWrites (segs : List Segment) : List (Nat × Word) :=
  segs.flatMap (fun g => (List.range' g.start.toNat g.data.length).zip g.data)

/-- Effect and frame of a list of writes: a word other than DDR's holds the last value written to it, the
values written to DDR are appended to the output log in order, and nothing else changes (rules R57, R62). -/
def Written (ws : List (Nat × Word)) (s t : State) : Prop :=
  (∀ a : Nat, t.mem.read a =
    if a = 0xFE06 then s.mem.read a else (ws.reverse.lookup a).getD (s.mem.read a)) ∧
    t.outLog = s.outLog ++ (ws.filter (fun e => e.1 == 0xFE06)).map Prod.snd ∧ t.inQ = s.inQ ∧
    SameRegisters s t ∧ t.cc = s.cc ∧ t.pc = s.pc ∧ t.diag = s.diag ∧ SameControl s t

/-- An outcome with its state, next or left by a fault, changed by `g`. -/
def mapStates (g : State → State) (o : Host.Outcome State Fault Refusal) :
    Host.Outcome State Fault Refusal :=
  match o with
  | .next t => .next (g t)
  | .fault f => .fault (f.withLeft g)
  | .refused r => .refused r

/-- A state with another mode and other banked stack pointers. -/
def rebank (m : Mode) (usp ssp : Word) (s : State) : State :=
  ((s.setMode m).setSavedUSP usp).setSavedSSP ssp

/-- The register an instruction writes its result and the condition code from (rule R27). -/
def ccSource (i : Instr) : Option Reg :=
  match i with
  | .addReg dr _ _ => some dr
  | .addImm dr _ _ => some dr
  | .andReg dr _ _ => some dr
  | .andImm dr _ _ => some dr
  | .not dr _ => some dr
  | .ld dr _ => some dr
  | .ldr dr _ _ => some dr
  | .ldi dr _ => some dr
  | .lea _ _ => none
  | .br _ _ _ _ => none
  | .st _ _ => none
  | .str _ _ _ => none
  | .sti _ _ => none
  | .jsr _ => none
  | .jsrr _ => none
  | .jmp _ => none
  | .trap _ => none
  | .rti => none
  | .reserved _ => none

/-- The general register an instruction may write (rule R22). -/
def writtenReg (i : Instr) : Option Reg :=
  match i with
  | .addReg dr _ _ => some dr
  | .addImm dr _ _ => some dr
  | .andReg dr _ _ => some dr
  | .andImm dr _ _ => some dr
  | .not dr _ => some dr
  | .ld dr _ => some dr
  | .ldr dr _ _ => some dr
  | .ldi dr _ => some dr
  | .lea dr _ => some dr
  | .jsr _ => some .r7
  | .jsrr _ => some .r7
  | .trap _ => some .r6
  | .rti => some .r6
  | .br _ _ _ _ => none
  | .st _ _ => none
  | .str _ _ _ => none
  | .sti _ _ => none
  | .jmp _ => none
  | .reserved _ => none

/-- Whether an instruction may overwrite PC (rule R23). -/
def writesPc (i : Instr) : Bool :=
  match i with
  | .br _ _ _ _ => true
  | .jsr _ => true
  | .jsrr _ => true
  | .jmp _ => true
  | .trap _ => true
  | .rti => true
  | .addReg _ _ _ => false
  | .addImm _ _ _ => false
  | .andReg _ _ _ => false
  | .andImm _ _ _ => false
  | .not _ _ => false
  | .ld _ _ => false
  | .ldr _ _ _ => false
  | .ldi _ _ => false
  | .lea _ _ => false
  | .st _ _ => false
  | .str _ _ _ => false
  | .sti _ _ => false
  | .reserved _ => false

/-- A safe step: it answers a next state. -/
def SafeStep (s : State) : Prop := ∃ t, step s = .next t

/-- `n` steps of one Run (rule R107): none starts halted, and each takes one off the budget. -/
def RunsTo (n : Nat) (s t : State) : Prop :=
  match n with
  | 0 => s = t
  | k + 1 => ∃ u, s.halted = false ∧ step s = .next u ∧ RunsTo k (u.setBudget (s.budget - 1)) t

/-- The invariant of the memory (log 1): it is in canonical form. -/
def MemoryCanonical (s : State) : Prop := s.mem.wf = true

/-- The values of `n` successive reads of KBDR (rule R60). -/
def keyReads (n : Nat) (s : State) : List Word :=
  match n with
  | 0 => []
  | k + 1 =>
    match memRead 0xFE02 s with
    | .error _ => []
    | .ok (v, s1) => v :: keyReads k s1

end Sys2Proof.Machine
end

