-- ==== Sys2Proof/Certificates/Slice0/Obligations.lean ====
section
/-! DEFINITION. The statements for the provers. Each docstring names the rules of spec/ it formalises, and
where a clause rests on a choice of the model or an inference the spec marks as its own, it says so. -/

open Sys2Proof Sys2Proof.Machine

/-! Encoding. -/

/-- Decoding the canonical word of an instruction gives the instruction back, for every instruction and
every value of every operand (rules R82, R83, R86, R93). -/
def Obligations.DecodeOfEncodeIsTheInstruction : Prop :=
  ∀ i : Instr, decode (encode i) = i

/-- Two words decode alike exactly when they agree on the bits the first one's row reads: unused bits are
not read and no read bit is dropped (rules R83, R88; decision D4). -/
def Obligations.DecodingReadsExactlyTheListedBits : Prop :=
  ∀ w w' : Word,
    decode w' = decode w ↔ w' &&& (decode w).row.reads = w &&& (decode w).row.reads

/-- A word matches a row of spec/opcode_table.json exactly when that row is the decoded instruction's: the
rows cover all words and do not overlap (rules R81, R86). -/
def Obligations.EveryWordMatchesExactlyItsTableRow : Prop :=
  ∀ (w : Word) (i : Instr), w &&& i.row.mask = i.row.pattern ↔ i.row = (decode w).row

/-- The canonical word of every instruction as a number: each field stands at its place in the formats of
rule R83 with the opcodes of rule R86, no field reaches into another, and unused bits are 0 but those of NOT
(rule R93, which the spec marks derived; the reserved row as in rule R83). -/
def Obligations.EncodingIsTheSumOfItsFields : Prop :=
  (∀ n z p off, (encode (.br n z p off)).toNat =
    n.toNat * 2048 + z.toNat * 1024 + p.toNat * 512 + off.toNat) ∧
  (∀ dr sr1 sr2, (encode (.addReg dr sr1 sr2)).toNat =
    0x1000 + dr.toBits.toNat * 512 + sr1.toBits.toNat * 64 + sr2.toBits.toNat) ∧
  (∀ dr sr1 imm, (encode (.addImm dr sr1 imm)).toNat =
    0x1020 + dr.toBits.toNat * 512 + sr1.toBits.toNat * 64 + imm.toNat) ∧
  (∀ dr sr1 sr2, (encode (.andReg dr sr1 sr2)).toNat =
    0x5000 + dr.toBits.toNat * 512 + sr1.toBits.toNat * 64 + sr2.toBits.toNat) ∧
  (∀ dr sr1 imm, (encode (.andImm dr sr1 imm)).toNat =
    0x5020 + dr.toBits.toNat * 512 + sr1.toBits.toNat * 64 + imm.toNat) ∧
  (∀ dr sr, (encode (.not dr sr)).toNat = 0x903F + dr.toBits.toNat * 512 + sr.toBits.toNat * 64) ∧
  (∀ dr off, (encode (.ld dr off)).toNat = 0x2000 + dr.toBits.toNat * 512 + off.toNat) ∧
  (∀ dr off, (encode (.ldi dr off)).toNat = 0xA000 + dr.toBits.toNat * 512 + off.toNat) ∧
  (∀ dr off, (encode (.lea dr off)).toNat = 0xE000 + dr.toBits.toNat * 512 + off.toNat) ∧
  (∀ dr b off, (encode (.ldr dr b off)).toNat =
    0x6000 + dr.toBits.toNat * 512 + b.toBits.toNat * 64 + off.toNat) ∧
  (∀ sr off, (encode (.st sr off)).toNat = 0x3000 + sr.toBits.toNat * 512 + off.toNat) ∧
  (∀ sr off, (encode (.sti sr off)).toNat = 0xB000 + sr.toBits.toNat * 512 + off.toNat) ∧
  (∀ sr b off, (encode (.str sr b off)).toNat =
    0x7000 + sr.toBits.toNat * 512 + b.toBits.toNat * 64 + off.toNat) ∧
  (∀ off, (encode (.jsr off)).toNat = 0x4800 + off.toNat) ∧
  (∀ b, (encode (.jsrr b)).toNat = 0x4000 + b.toBits.toNat * 64) ∧
  (∀ b, (encode (.jmp b)).toNat = 0xC000 + b.toBits.toNat * 64) ∧
  (∀ v, (encode (.trap v)).toNat = 0xF000 + v.toNat) ∧
  (∀ any, (encode (.reserved any)).toNat = 0xD000 + any.toNat) ∧
  (encode .rti).toNat = 0x8000

/-- The ill-formed words are the 4096 words 0xD000 to 0xDFFF (rule R87); dispatching one raises
UnknownInstruction with IR and the opcode, leaving the state after the fetch, and dispatching any other
word never raises it (rule R104). -/
def Obligations.ReservedPatternIsTheOnlyIllegalEncoding : Prop :=
  ∀ w : Word,
    ((decode w).wellFormed = false ↔ 0xD000 ≤ w.toNat ∧ w.toNat ≤ 0xDFFF) ∧
    (∀ s : State, 0xD000 ≤ w.toNat → w.toNat ≤ 0xDFFF →
      exec (decode w) s = .fault (.unknownInstruction s.ir 0xD s)) ∧
    (∀ (s left : State) (ir : Word) (op : BitVec 4),
      exec (decode w) s = .fault (.unknownInstruction ir op left) →
        0xD000 ≤ w.toNat ∧ w.toNat ≤ 0xDFFF)

/-- Words of the spec's vectors, each decoding to the instruction the spec names beside it
(spec/95_test_vectors.md Part 2). -/
def Obligations.SpecVectorWordsDecode : Prop :=
  decode 0x0402 = .br false true false 0x002 ∧ decode 0x127F = .addImm .r1 .r1 0x1F ∧
  decode 0x1042 = .addReg .r0 .r1 .r2 ∧ decode 0x5283 = .andReg .r1 .r2 .r3 ∧
  decode 0x923F = .not .r1 .r0 ∧ decode 0x2202 = .ld .r1 0x002 ∧
  decode 0x607F = .ldr .r0 .r1 0x3F ∧ decode 0xA401 = .ldi .r2 0x001 ∧
  decode 0xE7FD = .lea .r3 0x1FD ∧ decode 0x3005 = .st .r0 0x005 ∧
  decode 0x7943 = .str .r4 .r5 0x03 ∧ decode 0xB002 = .sti .r0 0x002 ∧
  decode 0x4803 = .jsr 0x003 ∧ decode 0x4080 = .jsrr .r2 ∧ decode 0xC1C0 = .jmp .r7 ∧
  decode 0xF020 = .trap 0x20 ∧ decode 0x8000 = .rti ∧ decode 0xD123 = .reserved 0x123

/-! Notation. -/

/-- sext_N for 1 to 15 bits: low bits are the field, higher bits copies of its top bit, and the value is
that of the rule's formula; zext_16 keeps the low bits and puts 0 above (rule R12). -/
def Obligations.SignExtensionCopiesTheTopBit : Prop :=
  ∀ (n : Nat) (f : BitVec n), 1 ≤ n → n ≤ 15 →
    (∀ k, k < n → (sext f).getLsbD k = f.getLsbD k) ∧
    (∀ k, n ≤ k → k < 16 → (sext f).getLsbD k = f.getLsbD (n - 1)) ∧
    (sext f).toNat = (if f.getLsbD (n - 1) then f.toNat + (0x10000 - 2 ^ n) else f.toNat) ∧
    (∀ k, k < n → (zext f).getLsbD k = f.getLsbD k) ∧
    (∀ k, n ≤ k → (zext f).getLsbD k = false)

/-! The memory access controller and its devices. -/

/-- The permission test of an integer address is false exactly in the three cases of rule R55, and it is
exactly then that an access to the address raises AccessViolation, with the address, PC and IR, changing
nothing. The test is a function of the configuration and the address, so the mode does not enter. -/
def Obligations.PermissionTestFailsInThreeCases : Prop :=
  (∀ (cfg : Config) (a : Int),
    permOK cfg a = false ↔
      (a > 0xFFFF ∨ a < 0) ∨ (cfg.ignorePrivilege = false ∧ a < 0x3000) ∨
        (cfg.ignorePrivilege = false ∧ a ≥ 0xFE00 ∧
          ¬(a = 0xFE00 ∨ a = 0xFE02 ∨ a = 0xFE04 ∨ a = 0xFE06))) ∧
  (∀ (a : Int) (v : Word) (s : State),
    (permOK s.cfg a = false →
      memRead a s = .error (.accessViolation a s.pc s.ir s) ∧
        memWrite a v s = .error (.accessViolation a s.pc s.ir s)) ∧
    (permOK s.cfg a = true → (∃ x t, memRead a s = .ok (x, t)) ∧ ∃ t, memWrite a v s = .ok t))

/-- MemRead at a 16-bit address: a failed test raises AccessViolation with the address, PC and IR and
changes nothing; otherwise KBSR, KBDR and DSR answer as devices, every other address as the backing word,
and only a KBDR read changes anything, the input queue (rules R56, R59, R60, R61, R64). -/
def Obligations.MacReadAnswersByAddress : Prop :=
  ∀ (a : Word) (s : State),
    (¬ Permitted s.cfg a →
      memRead (a.toNat : Int) s = .error (.accessViolation (a.toNat : Int) s.pc s.ir s)) ∧
    (Permitted s.cfg a →
      memRead (a.toNat : Int) s = .ok (readValue s a, s.setInQ (queueAfterRead s.inQ a)))

/-- MemWrite at a 16-bit address: a failed test raises AccessViolation and changes nothing; a write to DDR
appends to the output log and writes no word; every other write changes the word at the address and
nothing else (rules R57, R62, R64). -/
def Obligations.MacWriteChangesOneWordOrTheLog : Prop :=
  ∀ (a v : Word) (s : State),
    (¬ Permitted s.cfg a →
      memWrite (a.toNat : Int) v s = .error (.accessViolation (a.toNat : Int) s.pc s.ir s)) ∧
    (Permitted s.cfg a → ∃ t, memWrite (a.toNat : Int) v s = .ok t ∧ Stores a v s t)

/-- Writes to KBSR, KBDR and DSR reach the backing word and do not change what a later read of the same
address answers; a read of DDR answers its backing word (rule R63). -/
def Obligations.UninterceptedDeviceAccessesReachTheBackingWord : Prop :=
  (∀ (a v : Word) (s : State), a = 0xFE00#16 ∨ a = 0xFE02#16 ∨ a = 0xFE04#16 →
    ∃ t, memWrite (a.toNat : Int) v s = .ok t ∧ t.mem.read a.toNat = v ∧
      ∃ x u u', memRead (a.toNat : Int) s = .ok (x, u) ∧ memRead (a.toNat : Int) t = .ok (x, u')) ∧
  (∀ s : State, memRead 0xFE06 s = .ok (s.mem.read 0xFE06, s))

/-- The keyboard is a FIFO: characters pushed onto an empty queue are read back from KBDR in order, and
one more read returns 0 (rules R32, R60). -/
def Obligations.KeyboardReadsReturnPushesInOrder : Prop :=
  ∀ (cs : List Word) (s : State), s.inQ = [] →
    keyReads (cs.length + 1) (cs.foldl (fun t c => pushInput c t) s) = cs ++ [0x0000#16]

/-! Instructions. Each statement of one instruction begins with its encoding: the words that decode to it, by
the numbers their fields hold. Then come its effect and its frame.

Branch. -/

/-- BR: PC moves by the sign-extended offset when the mask meets cc and stays otherwise; nothing else
changes (rule R120). -/
def Obligations.BranchMovesPcWhenTheMaskMeetsCc : Prop :=
  ∀ (n z p : Bool) (off : BitVec 9) (s : State),
    (∀ w : Word, decode w = .br n z p off ↔ bitsAt w 12 4 = 0x0 ∧ bitsAt w 11 1 = n.toNat ∧
      bitsAt w 10 1 = z.toNat ∧ bitsAt w 9 1 = p.toNat ∧ bitsAt w 0 9 = off.toNat) ∧
    ∃ t, exec (.br n z p off) s = .next t ∧
      t.pc = (if (n = true ∧ s.cc = .N) ∨ (z = true ∧ s.cc = .Z) ∨ (p = true ∧ s.cc = .P)
        then wrap (s.pc.toNat + off.toInt) else s.pc) ∧
      t.cc = s.cc ∧ t.diag = s.diag ∧ SameRegisters s t ∧ SameControl s t ∧ SameMemory s t ∧
      SameDevices s t

/-! Arithmetic and logic. -/

/-- ADD, both forms: DR takes the sum modulo 2^16, cc its sign, nothing else changes (rule R130). -/
def Obligations.AddWritesTheWrappedSum : Prop :=
  (∀ (dr sr1 sr2 : Reg) (w : Word), decode w = .addReg dr sr1 sr2 ↔ bitsAt w 12 4 = 0x1 ∧
    bitsAt w 5 1 = 0 ∧ bitsAt w 9 3 = dr.toBits.toNat ∧ bitsAt w 6 3 = sr1.toBits.toNat ∧
    bitsAt w 0 3 = sr2.toBits.toNat) ∧
  (∀ (dr sr1 : Reg) (imm : BitVec 5) (w : Word), decode w = .addImm dr sr1 imm ↔ bitsAt w 12 4 = 0x1 ∧
    bitsAt w 5 1 = 1 ∧ bitsAt w 9 3 = dr.toBits.toNat ∧ bitsAt w 6 3 = sr1.toBits.toNat ∧
    bitsAt w 0 5 = imm.toNat) ∧
  (∀ (dr sr1 sr2 : Reg) (s : State), ∃ t, exec (.addReg dr sr1 sr2) s = .next t ∧
    Computes dr (BitVec.ofNat 16 ((s.reg sr1).toNat + (s.reg sr2).toNat)) s t) ∧
  (∀ (dr sr1 : Reg) (imm : BitVec 5) (s : State), ∃ t, exec (.addImm dr sr1 imm) s = .next t ∧
    Computes dr (wrap ((s.reg sr1).toNat + imm.toInt)) s t)

/-- AND, both forms: each bit of DR is the and of the operands' bits, the immediate's bits above 4 being
copies of its bit 4; cc takes the sign; nothing else changes (rule R131). -/
def Obligations.AndWritesTheBitwiseAnd : Prop :=
  (∀ (dr sr1 sr2 : Reg) (w : Word), decode w = .andReg dr sr1 sr2 ↔ bitsAt w 12 4 = 0x5 ∧
    bitsAt w 5 1 = 0 ∧ bitsAt w 9 3 = dr.toBits.toNat ∧ bitsAt w 6 3 = sr1.toBits.toNat ∧
    bitsAt w 0 3 = sr2.toBits.toNat) ∧
  (∀ (dr sr1 : Reg) (imm : BitVec 5) (w : Word), decode w = .andImm dr sr1 imm ↔ bitsAt w 12 4 = 0x5 ∧
    bitsAt w 5 1 = 1 ∧ bitsAt w 9 3 = dr.toBits.toNat ∧ bitsAt w 6 3 = sr1.toBits.toNat ∧
    bitsAt w 0 5 = imm.toNat) ∧
  (∀ (dr sr1 sr2 : Reg) (s : State), ∃ t v, exec (.andReg dr sr1 sr2) s = .next t ∧
    Computes dr v s t ∧
    ∀ k, k < 16 → v.getLsbD k = ((s.reg sr1).getLsbD k && (s.reg sr2).getLsbD k)) ∧
  (∀ (dr sr1 : Reg) (imm : BitVec 5) (s : State), ∃ t v, exec (.andImm dr sr1 imm) s = .next t ∧
    Computes dr v s t ∧
    ∀ k, k < 16 → v.getLsbD k = ((s.reg sr1).getLsbD k && imm.getLsbD (min k 4)))

/-- NOT: DR takes 0xFFFF minus the source, cc its sign, nothing else changes (rule R132). -/
def Obligations.NotWritesTheComplement : Prop :=
  ∀ (dr sr : Reg) (s : State),
    (∀ w : Word, decode w = .not dr sr ↔ bitsAt w 12 4 = 0x9 ∧ bitsAt w 9 3 = dr.toBits.toNat ∧
      bitsAt w 6 3 = sr.toBits.toNat) ∧
    ∃ t, exec (.not dr sr) s = .next t ∧
    Computes dr (BitVec.ofNat 16 (0xFFFF - (s.reg sr).toNat)) s t

/-! Loads. -/

/-- LD: the word read at PC plus offset goes to DR and sets cc; a refused address raises AccessViolation
and leaves the state as after the fetch (rule R140). -/
def Obligations.LdLoadsTheWordAtPcPlusOffset : Prop :=
  ∀ (dr : Reg) (off : BitVec 9) (s : State),
    (∀ w : Word, decode w = .ld dr off ↔ bitsAt w 12 4 = 0x2 ∧ bitsAt w 9 3 = dr.toBits.toNat ∧
      bitsAt w 0 9 = off.toNat) ∧
    (Permitted s.cfg (wrap (s.pc.toNat + off.toInt)) →
      ∃ t, exec (.ld dr off) s = .next t ∧ Loads dr (wrap (s.pc.toNat + off.toInt)) s t) ∧
    (¬ Permitted s.cfg (wrap (s.pc.toNat + off.toInt)) →
      exec (.ld dr off) s = denied (wrap (s.pc.toNat + off.toInt)) s)

/-- LDR: the same at base register plus offset, with the base's old value (rule R141). -/
def Obligations.LdrLoadsTheWordAtBasePlusOffset : Prop :=
  ∀ (dr b : Reg) (off : BitVec 6) (s : State),
    (∀ w : Word, decode w = .ldr dr b off ↔ bitsAt w 12 4 = 0x6 ∧ bitsAt w 9 3 = dr.toBits.toNat ∧
      bitsAt w 6 3 = b.toBits.toNat ∧ bitsAt w 0 6 = off.toNat) ∧
    (Permitted s.cfg (wrap ((s.reg b).toNat + off.toInt)) →
      ∃ t, exec (.ldr dr b off) s = .next t ∧ Loads dr (wrap ((s.reg b).toNat + off.toInt)) s t) ∧
    (¬ Permitted s.cfg (wrap ((s.reg b).toNat + off.toInt)) →
      exec (.ldr dr b off) s = denied (wrap ((s.reg b).toNat + off.toInt)) s)

/-- LDI: the pointer is read at PC plus offset, then the datum at the pointer. A refused pointer address
changes nothing; when only the datum's address is refused the pointer read has happened, with its effect
on the input queue (rule R142). -/
def Obligations.LdiLoadsThroughThePointer : Prop :=
  ∀ (dr : Reg) (off : BitVec 9) (s s1 : State) (pa pointer : Word),
    pa = wrap (s.pc.toNat + off.toInt) → pointer = readValue s pa →
    s1 = s.setInQ (queueAfterRead s.inQ pa) →
    (∀ w : Word, decode w = .ldi dr off ↔ bitsAt w 12 4 = 0xA ∧ bitsAt w 9 3 = dr.toBits.toNat ∧
      bitsAt w 0 9 = off.toNat) ∧
    (¬ Permitted s.cfg pa → exec (.ldi dr off) s = denied pa s) ∧
    (Permitted s.cfg pa → ¬ Permitted s.cfg pointer → exec (.ldi dr off) s = denied pointer s1) ∧
    (Permitted s.cfg pa → Permitted s.cfg pointer →
      ∃ t, exec (.ldi dr off) s = .next t ∧ Loads dr pointer s1 t)

/-- LEA: DR takes PC plus offset; cc, memory and everything else stay, whatever the address (rule R143). -/
def Obligations.LeaWritesTheAddressAndKeepsCc : Prop :=
  ∀ (dr : Reg) (off : BitVec 9) (s : State),
    (∀ w : Word, decode w = .lea dr off ↔ bitsAt w 12 4 = 0xE ∧ bitsAt w 9 3 = dr.toBits.toNat ∧
      bitsAt w 0 9 = off.toNat) ∧
    ∃ t, exec (.lea dr off) s = .next t ∧
    OnlyRegister dr (wrap (s.pc.toNat + off.toInt)) s t ∧ t.cc = s.cc ∧ t.pc = s.pc ∧
    t.diag = s.diag ∧ SameControl s t ∧ SameMemory s t ∧ SameDevices s t

/-! Stores. -/

/-- ST: SR is stored at PC plus offset and nothing else changes; a refused address stores nothing
(rule R150). -/
def Obligations.StStoresAtPcPlusOffset : Prop :=
  ∀ (sr : Reg) (off : BitVec 9) (s : State),
    (∀ w : Word, decode w = .st sr off ↔ bitsAt w 12 4 = 0x3 ∧ bitsAt w 9 3 = sr.toBits.toNat ∧
      bitsAt w 0 9 = off.toNat) ∧
    (Permitted s.cfg (wrap (s.pc.toNat + off.toInt)) →
      ∃ t, exec (.st sr off) s = .next t ∧ Stores (wrap (s.pc.toNat + off.toInt)) (s.reg sr) s t) ∧
    (¬ Permitted s.cfg (wrap (s.pc.toNat + off.toInt)) →
      exec (.st sr off) s = denied (wrap (s.pc.toNat + off.toInt)) s)

/-- STR: the same at base register plus offset (rule R151). -/
def Obligations.StrStoresAtBasePlusOffset : Prop :=
  ∀ (sr b : Reg) (off : BitVec 6) (s : State),
    (∀ w : Word, decode w = .str sr b off ↔ bitsAt w 12 4 = 0x7 ∧ bitsAt w 9 3 = sr.toBits.toNat ∧
      bitsAt w 6 3 = b.toBits.toNat ∧ bitsAt w 0 6 = off.toNat) ∧
    (Permitted s.cfg (wrap ((s.reg b).toNat + off.toInt)) →
      ∃ t, exec (.str sr b off) s = .next t ∧
        Stores (wrap ((s.reg b).toNat + off.toInt)) (s.reg sr) s t) ∧
    (¬ Permitted s.cfg (wrap ((s.reg b).toNat + off.toInt)) →
      exec (.str sr b off) s = denied (wrap ((s.reg b).toNat + off.toInt)) s)

/-- STI: the pointer is read at PC plus offset, then SR is stored at the pointer; the pointer read and its
effect on the input queue stand when the store is refused (rule R152). -/
def Obligations.StiStoresThroughThePointer : Prop :=
  ∀ (sr : Reg) (off : BitVec 9) (s s1 : State) (pa pointer : Word),
    pa = wrap (s.pc.toNat + off.toInt) → pointer = readValue s pa →
    s1 = s.setInQ (queueAfterRead s.inQ pa) →
    (∀ w : Word, decode w = .sti sr off ↔ bitsAt w 12 4 = 0xB ∧ bitsAt w 9 3 = sr.toBits.toNat ∧
      bitsAt w 0 9 = off.toNat) ∧
    (¬ Permitted s.cfg pa → exec (.sti sr off) s = denied pa s) ∧
    (Permitted s.cfg pa → ¬ Permitted s.cfg pointer → exec (.sti sr off) s = denied pointer s1) ∧
    (Permitted s.cfg pa → Permitted s.cfg pointer →
      ∃ t, exec (.sti sr off) s = .next t ∧ Stores pointer (s.reg sr) s1 t)

/-! Control transfer. -/

/-- JSR: the return address goes to R7 and onto the diagnostic call stack, PC to PC plus offset; nothing
else changes (rule R160). -/
def Obligations.JsrLinksAndJumps : Prop :=
  ∀ (off : BitVec 11) (s : State),
    (∀ w : Word, decode w = .jsr off ↔ bitsAt w 12 4 = 0x4 ∧ bitsAt w 11 1 = 1 ∧
      bitsAt w 0 11 = off.toNat) ∧
    ∃ t, exec (.jsr off) s = .next t ∧
    OnlyRegister .r7 s.pc s t ∧ t.pc = wrap (s.pc.toNat + off.toInt) ∧ t.diag = s.diag ++ [s.pc] ∧
    t.cc = s.cc ∧ SameControl s t ∧ SameMemory s t ∧ SameDevices s t

/-- JSRR: as JSR, to the old value of the base register, also when that is R7 (rule R161). -/
def Obligations.JsrrLinksAndJumpsThroughTheOldBase : Prop :=
  ∀ (b : Reg) (s : State),
    (∀ w : Word, decode w = .jsrr b ↔ bitsAt w 12 4 = 0x4 ∧ bitsAt w 11 1 = 0 ∧
      bitsAt w 6 3 = b.toBits.toNat) ∧
    ∃ t, exec (.jsrr b) s = .next t ∧
    OnlyRegister .r7 s.pc s t ∧ t.pc = s.reg b ∧ t.diag = s.diag ++ [s.pc] ∧
    t.cc = s.cc ∧ SameControl s t ∧ SameMemory s t ∧ SameDevices s t

/-- JMP: PC takes the base register; through R7 the last diagnostic entry goes, if there is one; nothing
else changes and nothing is raised (rule R162). -/
def Obligations.JmpTakesTheBaseAndReturnPops : Prop :=
  ∀ (b : Reg) (s : State),
    (∀ w : Word, decode w = .jmp b ↔ bitsAt w 12 4 = 0xC ∧ bitsAt w 6 3 = b.toBits.toNat) ∧
    ∃ t, exec (.jmp b) s = .next t ∧ t.pc = s.reg b ∧
    (b ≠ .r7 → t.diag = s.diag) ∧ (b = .r7 → s.diag = [] → t.diag = []) ∧
    (∀ d x, b = .r7 → s.diag = d ++ [x] → t.diag = d) ∧
    SameRegisters s t ∧ t.cc = s.cc ∧ SameControl s t ∧ SameMemory s t ∧ SameDevices s t

/-- A subroutine call followed by its return comes back to the instruction after the call with the
diagnostic call stack as it was (spec/95_test_vectors.md S11). -/
def Obligations.CallThenReturnComesBack : Prop :=
  ∀ (i : Instr) (s t u v : State), (∃ off, i = .jsr off) ∨ (∃ b, i = .jsrr b) →
    exec i s = .next t → u.reg .r7 = t.reg .r7 → u.diag = t.diag →
    exec (.jmp .r7) u = .next v → v.pc = s.pc ∧ v.diag = s.diag

/-! System instructions. -/

/-- TRAP with the HALT vector sets `halted` and changes nothing else (rule R172). -/
def Obligations.HaltTrapOnlySetsHalted : Prop :=
  ∀ (s : State),
    (∀ w : Word, decode w = .trap s.cfg.haltVector ↔
      bitsAt w 12 4 = 0xF ∧ bitsAt w 0 8 = s.cfg.haltVector.toNat) ∧
    ∃ t, exec (.trap s.cfg.haltVector) s = .next t ∧ t.halted = true ∧
    t.pc = s.pc ∧ t.cc = s.cc ∧ t.diag = s.diag ∧ SameRegisters s t ∧ SameMemory s t ∧
    SameDevices s t ∧ t.cfg = s.cfg ∧ t.ir = s.ir ∧ t.mode = s.mode ∧ t.savedUSP = s.savedUSP ∧
    t.savedSSP = s.savedSSP ∧ t.budget = s.budget ∧ t.timer = s.timer

/-- TRAP with any other vector: the two push slots and the table entry are tested in that order before
any access; the first refused one raises AccessViolation and nothing changes. Otherwise PC and the status
word are pushed below savedSSP (from user mode) or R6 (from supervisor mode), the user R6 is saved, R6
becomes the new top, the mode supervisor, and PC the table entry; nothing else changes (rule R171). -/
def Obligations.TrapEntersSupervisorMode : Prop :=
  ∀ (vect : BitVec 8) (s : State) (sp0 a1 a2 tvec : Word),
    vect ≠ s.cfg.haltVector → sp0 = (if s.mode = .user then s.savedSSP else s.reg .r6) →
    a1 = wrap (sp0.toNat - 1) → a2 = wrap (sp0.toNat - 2) → tvec = BitVec.ofNat 16 vect.toNat →
    (∀ w : Word, decode w = .trap vect ↔ bitsAt w 12 4 = 0xF ∧ bitsAt w 0 8 = vect.toNat) ∧
    (¬ Permitted s.cfg a1 → exec (.trap vect) s = denied a1 s) ∧
    (Permitted s.cfg a1 → ¬ Permitted s.cfg a2 → exec (.trap vect) s = denied a2 s) ∧
    (Permitted s.cfg a1 → Permitted s.cfg a2 → ¬ Permitted s.cfg tvec →
      exec (.trap vect) s = denied tvec s) ∧
    (Permitted s.cfg a1 → Permitted s.cfg a2 → Permitted s.cfg tvec →
      ∃ t, exec (.trap vect) s = .next t ∧
        OnlyRegister .r6 a2 s t ∧ t.mode = .supervisor ∧ t.pc = t.mem.read tvec.toNat ∧
        t.savedUSP = (if s.mode = .user then s.reg .r6 else s.savedUSP) ∧
        t.savedSSP = s.savedSSP ∧
        (∀ a : Nat, t.mem.read a =
          if a = a2.toNat ∧ a2 ≠ 0xFE06#16 then (if s.mode = .user then 0x8000#16 else 0x0000#16)
          else if a = a1.toNat ∧ a1 ≠ 0xFE06#16 then s.pc else s.mem.read a) ∧
        t.outLog = s.outLog ++ (if a1 = 0xFE06#16 then [s.pc] else []) ++
          (if a2 = 0xFE06#16 then [if s.mode = .user then 0x8000#16 else 0x0000#16] else []) ∧
        t.inQ = s.inQ ∧ t.cc = s.cc ∧ t.diag = s.diag ∧ t.cfg = s.cfg ∧ t.ir = s.ir ∧
        t.halted = s.halted ∧ t.budget = s.budget ∧ t.timer = s.timer)

/-- With privilege checks on, every TRAP but HALT raises AccessViolation and leaves the state as after
the fetch (rule R171, exceptions line; 90_conflicts C1). -/
def Obligations.TrapFaultsWhilePrivilegeChecksAreOn : Prop :=
  ∀ (vect : BitVec 8) (s : State), s.cfg.ignorePrivilege = false → vect ≠ s.cfg.haltVector →
    ∃ a : Word, ¬ Permitted s.cfg a ∧ exec (.trap vect) s = denied a s

/-- RTI: both pop slots are tested before any access; the first refused one raises AccessViolation and
nothing changes. Otherwise the status word and PC are popped through R6; a status word with bit 15 set
restores user mode, saves the popped stack pointer in savedSSP and brings savedUSP into R6; otherwise the
mode is supervisor and R6 the popped stack pointer; nothing else changes but the entry a pop at KBDR
takes (rule R173). -/
def Obligations.RtiPopsStatusAndPc : Prop :=
  ∀ (s : State) (a1 a2 top status : Word),
    a1 = s.reg .r6 → a2 = wrap ((s.reg .r6).toNat + 1) → top = wrap ((s.reg .r6).toNat + 2) →
    status = readValue s a1 →
    (∀ w : Word, decode w = .rti ↔ bitsAt w 12 4 = 0x8) ∧
    (¬ Permitted s.cfg a1 → exec .rti s = denied a1 s) ∧
    (Permitted s.cfg a1 → ¬ Permitted s.cfg a2 → exec .rti s = denied a2 s) ∧
    (Permitted s.cfg a1 → Permitted s.cfg a2 →
      ∃ t, exec .rti s = .next t ∧ t.pc = readValue s a2 ∧
        (status.toNat < 0x8000 → t.mode = .supervisor ∧ OnlyRegister .r6 top s t ∧
          t.savedSSP = s.savedSSP) ∧
        (0x8000 ≤ status.toNat → t.mode = .user ∧ OnlyRegister .r6 s.savedUSP s t ∧
          t.savedSSP = top) ∧
        t.savedUSP = s.savedUSP ∧ SameMemory s t ∧ t.outLog = s.outLog ∧
        t.inQ = queueAfterRead (queueAfterRead s.inQ a1) a2 ∧ t.cc = s.cc ∧ t.diag = s.diag ∧
        t.cfg = s.cfg ∧ t.ir = s.ir ∧ t.halted = s.halted ∧ t.budget = s.budget ∧
        t.timer = s.timer)

/-- A trap routine that returns with the stack, the saved pointers and the two pushed words as the entry
left them brings back the caller's PC, mode and R6, from either mode and at any depth of nesting, wherever
the pushed words lie in plain memory (rules R188 to R190, which the spec marks derived; S12). -/
def Obligations.TrapThenRtiRestoresTheCaller : Prop :=
  ∀ (vect : BitVec 8) (s t u v : State), vect ≠ s.cfg.haltVector →
    exec (.trap vect) s = .next t →
    ((t.reg .r6).toNat < 0xFDFF ∨ 0xFE06 < (t.reg .r6).toNat) →
    (t.reg .r6).toNat ≠ 0xFFFF →
    u.reg .r6 = t.reg .r6 → u.savedUSP = t.savedUSP →
    u.mem.read (t.reg .r6).toNat = t.mem.read (t.reg .r6).toNat →
    u.mem.read ((t.reg .r6).toNat + 1) = t.mem.read ((t.reg .r6).toNat + 1) →
    exec .rti u = .next v →
    v.pc = s.pc ∧ v.mode = s.mode ∧ v.reg .r6 = s.reg .r6 ∧
      (s.mode = .user → v.savedSSP = s.savedSSP)

/-- A pop after a push returns the pushed word and the old stack pointer, where the slot is plain memory
(rule R170). -/
def Obligations.PopReturnsWhatPushStored : Prop :=
  ∀ (v : Word) (s t : State), push v s = .ok t →
    (t.reg .r6).toNat ≠ 0xFE00 → (t.reg .r6).toNat ≠ 0xFE02 → (t.reg .r6).toNat ≠ 0xFE04 →
    (t.reg .r6).toNat ≠ 0xFE06 →
    ∃ u, pop t = .ok (v, u) ∧ SameRegisters s u ∧ u.mem = t.mem ∧
      (∀ a : Nat, a ≠ (t.reg .r6).toNat → t.mem.read a = s.mem.read a)

/-- A TRAP that enters is two pushes, the PC and then the status word, after the stack swap, and an RTI
that returns is two pops, the status word and then the PC (rules R170, R171, R173). -/
def Obligations.TrapAndRtiUseTheStackPrimitives : Prop :=
  (∀ (vect : BitVec 8) (s t : State), vect ≠ s.cfg.haltVector → exec (.trap vect) s = .next t →
    ∃ s1 s2, push s.pc (s.setReg .r6 (if s.mode = .user then s.savedSSP else s.reg .r6)) = .ok s1 ∧
      push (if s.mode = .user then 0x8000#16 else 0x0000#16) s1 = .ok s2 ∧
      t.reg .r6 = s2.reg .r6 ∧ t.mem = s2.mem ∧ t.outLog = s2.outLog ∧
      t.pc = s2.mem.read vect.toNat) ∧
  (∀ s t : State, exec .rti s = .next t →
    ∃ status s1 target s2, pop s = .ok (status, s1) ∧ pop s1 = .ok (target, s2) ∧
      t.pc = target ∧ t.inQ = s2.inQ ∧ t.mem = s2.mem ∧
      (t.mode = .supervisor → t.reg .r6 = s2.reg .r6) ∧
      (t.mode = .user → t.savedSSP = s2.reg .r6))

/-! Whole-machine rules over all instructions. -/

/-- cc is written only by ADD, AND, NOT, LD, LDR and LDI, from the value they write to the destination
register, and read only by BR: for every other instruction another cc before changes nothing but the cc an
instruction that does not write it keeps (rule R27). -/
def Obligations.ConditionCodeWritersAndReaders : Prop :=
  ∀ (i : Instr) (s : State),
    (∀ t r, exec i s = .next t → ccSource i = some r → SignCode (t.reg r) t.cc) ∧
    (∀ t, exec i s = .next t → ccSource i = none → t.cc = s.cc) ∧
    (∀ c t, exec i s = .next t → ccSource i ≠ none → exec i (s.setCc c) = .next t) ∧
    (∀ c f, exec i s = .fault f →
      exec i (s.setCc c) = .fault (f.withLeft (fun t => t.setCc c))) ∧
    (∀ c t, exec i s = .next t → ccSource i = none → (∀ n z p off, i ≠ .br n z p off) →
      exec i (s.setCc c) = .next (t.setCc c))

/-- No instruction but TRAP and RTI reads or writes the mode or the banked stack pointers, and RTI does
not read the mode: every instruction runs alike in both modes (rules R28, R30; rule R174, which the spec
marks derived). -/
def Obligations.InstructionsRunAlikeInBothModes : Prop :=
  (∀ (i : Instr) (m : Mode) (usp ssp : Word) (s : State), (∀ v, i ≠ .trap v) → i ≠ .rti →
    exec i (rebank m usp ssp s) = mapStates (rebank m usp ssp) (exec i s)) ∧
  (∀ (m : Mode) (s t : State), exec .rti s = .next t → exec .rti (s.setMode m) = .next t) ∧
  (∀ (m : Mode) (s : State) (f : Fault), exec .rti s = .fault f →
    exec .rti (s.setMode m) = .fault (f.withLeft (fun t => t.setMode m)))

/-- Supervisor mode is entered by a TRAP that is not HALT or by RTI, user mode by RTI only; nothing else
changes the mode (rule R192). -/
def Obligations.OnlyTrapAndRtiChangeTheMode : Prop :=
  ∀ (i : Instr) (s t : State), exec i s = .next t → t.mode ≠ s.mode →
    i = .rti ∨ (∃ v, i = .trap v ∧ v ≠ s.cfg.haltVector ∧ t.mode = .supervisor)

/-- The registers an instruction may write are those of rule R22, which the spec marks derived; HALT and
a TRAP or RTI that faults write none. -/
def Obligations.OnlyTheNamedRegisterIsWritten : Prop :=
  ∀ (i : Instr) (s t : State) (r : Reg), exec i s = .next t → t.reg r ≠ s.reg r →
    writtenReg i = some r ∧ i ≠ .trap s.cfg.haltVector

/-- During execution PC is changed only by BR, JSR, JSRR, JMP, TRAP other than HALT, and RTI (rule R23). -/
def Obligations.OnlyControlTransfersChangePc : Prop :=
  ∀ (i : Instr) (s t : State), exec i s = .next t → t.pc ≠ s.pc →
    writesPc i = true ∧ i ≠ .trap s.cfg.haltVector

/-- The diagnostic call stack influences nothing but itself (rule R36). -/
def Obligations.DiagnosticStackInfluencesNothing : Prop :=
  ∀ (i : Instr) (s : State) (d : List Word),
    mapStates (fun t => t.setDiag []) (exec i (s.setDiag d)) =
      mapStates (fun t => t.setDiag []) (exec i s)

/-- A fault of an instruction is AccessViolation or UnknownInstruction, reports PC and IR of the state it
leaves, and that state differs from the one before at most by one entry taken from the input queue, and
only for LDI and STI (rule R186). -/
def Obligations.FaultingInstructionsLeaveTheStateIntact : Prop :=
  ∀ (i : Instr) (s : State) (f : Fault), exec i s = .fault f →
    ((∃ a, f = .accessViolation a s.pc s.ir f.left ∧ permOK s.cfg a = false) ∨
      f = .unknownInstruction s.ir 0xD s) ∧
    (f.left = s ∨
      (f.left = s.setInQ s.inQ.tail ∧ ((∃ r off, i = .ldi r off) ∨ (∃ r off, i = .sti r off))))

/-! The engine. -/

/-- On a machine that is not halted and whose PC passes the fetch-range test, a step puts the word read at
PC into IR, increments PC modulo 2^16, and is then the decoded instruction's meaning; the fetch of a
device address has that device's effect on the input queue (rules R102, R103, R106). -/
def Obligations.StepRunsTheDecodedInstruction : Prop :=
  ∀ s : State, s.halted = false → Fetchable s →
    step s = exec (decode (readValue s s.pc))
      (((s.setInQ (queueAfterRead s.inQ s.pc)).setIr (readValue s s.pc)).setPc
        (wrap (s.pc.toNat + 1)))

/-- A step of a halted machine changes nothing; otherwise a PC outside the fetch range raises OutOfBounds
with the PC and changes nothing (rules R100, R101). -/
def Obligations.StepStopsBeforeTheFetch : Prop :=
  ∀ s : State,
    (s.halted = true → step s = .next s) ∧
    (s.halted = false → ¬ Fetchable s → step s = .fault (.outOfBounds s.pc s))

/-- A word written through the MAC to a plain address is the instruction the next step at that address
runs (rule R71, which the spec marks derived). -/
def Obligations.StoredWordIsTheNextInstruction : Prop :=
  ∀ (a v : Word) (s t : State), memWrite (a.toNat : Int) v s = .ok t → t.halted = false →
    t.pc = a → Fetchable t → a.toNat ≠ 0xFE00 → a.toNat ≠ 0xFE02 → a.toNat ≠ 0xFE04 →
    a.toNat ≠ 0xFE06 →
    step t = exec (decode v) ((t.setIr v).setPc (wrap (a.toNat + 1)))

/-- A step that faults was not on a halted machine. It is OutOfBounds with nothing changed, or it comes
after the fetch: then PC is past the instruction, registers, cc, mode, saved pointers, memory, output log,
diagnostic stack and halted are as before, and at most one entry of the input queue is gone; the fault is
UnknownInstruction for the word in IR, or AccessViolation for a refused address with PC and IR as they
are left (rules R181, R183, R184, R186). -/
def Obligations.FaultingStepsLeaveTheStateOfTheFault : Prop :=
  ∀ (s : State) (f : Fault), step s = .fault f →
    s.halted = false ∧
    ((f = .outOfBounds s.pc s ∧ ¬ Fetchable s) ∨
      (Fetchable s ∧ f.left.pc = wrap (s.pc.toNat + 1) ∧ f.left.ir = readValue s s.pc ∧
        f.left.regs = s.regs ∧ f.left.cc = s.cc ∧ f.left.mode = s.mode ∧
        f.left.savedUSP = s.savedUSP ∧ f.left.savedSSP = s.savedSSP ∧ f.left.mem = s.mem ∧
        f.left.outLog = s.outLog ∧ f.left.diag = s.diag ∧ f.left.halted = false ∧
        (f.left.inQ = s.inQ ∨ f.left.inQ = s.inQ.tail) ∧
        (f = .unknownInstruction (readValue s s.pc) 0xD f.left ∨
          ∃ a : Int, permOK s.cfg a = false ∧
            f = .accessViolation a f.left.pc f.left.ir f.left)))

/-- With privilege checks off the only fault a step can raise is UnknownInstruction (rules R55, R101). -/
def Obligations.ChecksOffOnlyTheReservedOpcodeFaults : Prop :=
  ∀ (s : State) (f : Fault), s.cfg.ignorePrivilege = true → step s = .fault f →
    ∃ w left, f = .unknownInstruction w 0xD left

/-- No step and no run is refused: every instruction has a meaning (rule R103). -/
def Obligations.NothingIsRefused : Prop :=
  ∀ (s : State) (r : Refusal), step s ≠ .refused r ∧ run s ≠ .refused r

/-! Invariants. -/

/-- Every step keeps the memory in canonical form. The form is the model's own (log 1). -/
def Obligations.StepKeepsMemoryCanonical : Prop :=
  ∀ s t : State, MemoryCanonical s → step s = .next t → MemoryCanonical t

/-- The memory after reset, and after any construction, is in canonical form. The form is the model's own
(log 1). -/
def Obligations.ResetAndConstructedMemoryIsCanonical : Prop :=
  MemoryCanonical State.reset ∧
  ∀ (cfg : Config) (fill : Word → Word) (image : List (Word × Word)),
    MemoryCanonical (State.construct cfg fill image)

/-- While privilege checks are on, no step changes a word below 0x3000, nor one at or above 0xFE00 other
than the backing words of KBSR, KBDR and DSR (rules R55, R62, R65, R67). -/
def Obligations.ChecksOnProtectedWordsNeverChange : Prop :=
  ∀ (s t : State) (a : Nat), s.cfg.ignorePrivilege = false → step s = .next t →
    (a < 0x3000 ∨ (0xFE00 ≤ a ∧ a ≠ 0xFE00 ∧ a ≠ 0xFE02 ∧ a ≠ 0xFE04)) →
    t.mem.read a = s.mem.read a

/-- What only grows or stays over a step: the configuration, budget and timer stay; a halted machine stays
as it is, and only TRAP with the HALT vector halts one; the output log gains entries at its end only; the
input queue loses entries at its head only (rules R32 to R35, R38). -/
def Obligations.StepHistoryOnlyGrows : Prop :=
  ∀ s t : State, step s = .next t →
    t.cfg = s.cfg ∧ t.budget = s.budget ∧ t.timer = s.timer ∧ (s.halted = true → t = s) ∧
    (s.halted = false → t.halted = true → decode t.ir = .trap s.cfg.haltVector) ∧
    (∃ new, t.outLog = s.outLog ++ new) ∧ (∃ taken, s.inQ = taken ++ t.inQ)

/-! Construction, loading and the host's control. -/

/-- Construction sets every piece of state as rule R39 tabulates, for every configuration, RANDOM_FILL and
supervisor image: memory is the fill with the words of the image over it, so that the fill stands from
0x3000 on (rules R39, R211). An image is a finite map of addresses below 0x3000 (rule R7), so the list
that holds it names no address twice and only such addresses. The rules give `budget` and the timer no
value before a Run, so nothing is said of them (log 8). -/
def Obligations.ConstructionGivesTheInitialState : Prop :=
  ∀ (cfg : Config) (fill : Word → Word) (image : List (Word × Word)) (s : State),
    s = State.construct cfg fill image →
    s.cfg = cfg ∧ (∀ r, s.reg r = 0x0000#16) ∧ s.pc = cfg.startPC ∧ s.ir = 0x0000 ∧ s.cc = .Z ∧
    s.mode = cfg.initMode ∧ s.savedUSP = cfg.savedUSPInit ∧ s.savedSSP = cfg.savedSSPInit ∧
    (supervisorImageOK image = true → (image.map Prod.fst).Nodup →
      (∀ a w : Word, (a, w) ∈ image → s.mem.read a.toNat = w) ∧
      (∀ a : Word, a ∉ image.map Prod.fst →
        s.mem.read a.toNat = if cfg.randomize = true then fill a else 0x0000#16) ∧
      (∀ a : Word, 0x3000 ≤ a.toNat →
        s.mem.read a.toNat = if cfg.randomize = true then fill a else 0x0000#16)) ∧
    s.inQ = [] ∧ s.outLog = [] ∧ s.halted = false ∧ s.diag = []

/-- The model's reset state is the construction with the default configuration and an empty supervisor
image. The configuration values without a default and the empty image are the model's choice (logs 3 to
5). -/
def Obligations.ResetIsTheDefaultConstruction : Prop :=
  (∀ fill, State.reset = State.construct standardConfig fill []) ∧
  State.reset.pc = 0x3000 ∧ State.reset.mode = .user ∧ State.reset.cc = .Z ∧
  State.reset.savedUSP = 0x0000 ∧ State.reset.savedSSP = 0x3000 ∧
  State.reset.cfg.haltVector = 0x25

/-- A one-segment image whose addresses are all in user space loads: each data word stands at its address,
no other word changes, and neither does any register or other state. An image of any number of segments
all of whose writes are permitted loads, writing the segments in order, so that a later word wins, and
appending a data word placed at 0xFE06 to the output log; nothing else changes (rules R213, R215, R216). -/
def Obligations.LoadPlacesASegmentAndNothingElse : Prop :=
  (∀ (start : Word) (data : List Word) (s : State), data.length < 65536 →
    0x3000 ≤ start.toNat → start.toNat + data.length ≤ 0xFE00 →
    ∃ t, load (start :: BitVec.ofNat 16 data.length :: data) s = .next t ∧
      (∀ a : Nat, t.mem.read a =
        if start.toNat ≤ a ∧ a < start.toNat + data.length then data.getD (a - start.toNat) 0x0000#16
        else s.mem.read a) ∧
      SameRegisters s t ∧ t.pc = s.pc ∧ t.cc = s.cc ∧ t.diag = s.diag ∧ SameControl s t ∧
      SameDevices s t) ∧
  (∀ (segs : List Segment) (s : State), (∀ g ∈ segs, g.data.length < 65536) →
    (∀ e ∈ imageWrites segs, permOK s.cfg (e.1 : Int) = true) →
    ∃ t, load (imageWords segs) s = .next t ∧ Written (imageWrites segs) s t)

/-- Loading never changes a register, PC, IR, cc, the mode, a saved stack pointer, the input queue,
`halted`, the budget, the timer or the diagnostic call stack, whether it ends normally or in a fault
(rule R216). -/
def Obligations.LoadWritesMemoryAndTheLogOnly : Prop :=
  ∀ (img : List Word) (s t : State),
    load img s = .next t ∨ (∃ f, load img s = .fault f ∧ t = f.left) →
    SameRegisters s t ∧ t.pc = s.pc ∧ t.cc = s.cc ∧ t.diag = s.diag ∧ SameControl s t ∧
      t.inQ = s.inQ ∧ ∃ new, t.outLog = s.outLog ++ new

/-- An image that is a whole number of segments passes the structure check with those segments; one that
ends inside a header or a segment's data raises MalformedImage with the offset of that header, and writes
nothing (rule R214). -/
def Obligations.LoaderChecksTheStructureFirst : Prop :=
  (∀ segs : List Segment, (∀ g ∈ segs, g.data.length < 65536) →
    parseImage (segs.flatMap (fun g => g.start :: BitVec.ofNat 16 g.data.length :: g.data)) =
      .ok segs) ∧
  (∀ (segs : List Segment) (start length : Word) (data : List Word) (tail : List Word) (s : State),
    (∀ g ∈ segs, g.data.length < 65536) →
    (tail = [start] ∨ (tail = start :: length :: data ∧ data.length < length.toNat)) →
    load (segs.flatMap (fun g => g.start :: BitVec.ofNat 16 g.data.length :: g.data) ++ tail) s =
      .fault (.malformedImage
        (segs.flatMap (fun g => g.start :: BitVec.ofNat 16 g.data.length :: g.data)).length s))

/-- The first refused write of an image ends the load with AccessViolation at its address, with PC and IR
as they are; the words written before it stay, and nothing else changes, whichever case of the permission
test refuses: the region test of supervisor or device addresses with privilege checks on, or the range
test. In particular the sum of start and index does not wrap: one segment, with privilege checks off, that
runs past 0xFFFF writes up to 0xFFFF and then faults at 0x10000 (rules R186, R215; decision D35). -/
def Obligations.LoadPastTheTopFaultsAtTheRangeTest : Prop :=
  (∀ (start : Word) (before after : List Word) (v : Word) (s : State),
    s.cfg.ignorePrivilege = true → start.toNat + before.length = 0x10000 →
    start.toNat > 0xFE06 →
    (before ++ v :: after).length < 65536 →
    ∃ t, load (start :: BitVec.ofNat 16 (before ++ v :: after).length :: (before ++ v :: after)) s =
        .fault (.accessViolation 0x10000 s.pc s.ir t) ∧
      (∀ a : Nat, t.mem.read a =
        if start.toNat ≤ a ∧ a < 0x10000 then before.getD (a - start.toNat) 0x0000#16
        else s.mem.read a)) ∧
  (∀ (segs : List Segment) (before after : List (Nat × Word)) (a : Nat) (v : Word) (s : State),
    (∀ g ∈ segs, g.data.length < 65536) → imageWrites segs = before ++ (a, v) :: after →
    (∀ e ∈ before, permOK s.cfg (e.1 : Int) = true) → permOK s.cfg (a : Int) = false →
    ∃ t, load (imageWords segs) s = .fault (.accessViolation (a : Int) s.pc s.ir t) ∧
      Written before s t)

/-- Run takes at most `executionLimit` steps, none from a halted state. It ends normally exactly in a
halted state, with RunawayProgram and the PC exactly after `executionLimit` steps without halting, and
with a step's fault exactly when a step within the budget raises it (rule R107). -/
def Obligations.RunObeysItsBudget : Prop :=
  ∀ s s0 : State, s0 = s.setBudget s.cfg.executionLimit →
    (∀ t, run s = .next t ↔
      ∃ k, k ≤ s.cfg.executionLimit ∧ RunsTo k s0 t ∧ t.halted = true) ∧
    (∀ f, run s = .fault f ↔
      (∃ t, RunsTo s.cfg.executionLimit s0 t ∧ t.halted = false ∧ f = .runawayProgram t.pc t) ∨
      (∃ k t, k < s.cfg.executionLimit ∧ RunsTo k s0 t ∧ t.halted = false ∧ step t = .fault f))

/-- Stop sets `halted`, cancels a pending timer, is idempotent, undoes nothing, and makes every later step
and run leave the machine as it is but for the budget a Run sets (rule R108). -/
def Obligations.StopHaltsAndIsIdempotent : Prop :=
  ∀ s : State, (stop s).halted = true ∧ (stop s).timer = none ∧ stop (stop s) = stop s ∧
    SameRegisters s (stop s) ∧ SameMemory s (stop s) ∧ SameDevices s (stop s) ∧ (stop s).pc = s.pc ∧
    (stop s).ir = s.ir ∧ (stop s).cc = s.cc ∧ (stop s).mode = s.mode ∧
    (stop s).savedUSP = s.savedUSP ∧ (stop s).savedSSP = s.savedSSP ∧ (stop s).diag = s.diag ∧
    (stop s).cfg = s.cfg ∧ (stop s).budget = s.budget ∧
    step (stop s) = .next (stop s) ∧
    run (stop s) = .next ((stop s).setBudget s.cfg.executionLimit)

/-- A tick of a pending timer is one step: the same next state, or the same fault, with the same address,
PC, IR and opcode, whose state is the step's with the timer cancelled and `halted` as it was
(rule R109; decision D32). -/
def Obligations.TickIsOneStep : Prop :=
  ∀ s : State, (∀ t, step (runTick s) = .next t → tick (runTick s) = .next t) ∧
    (∀ f, step (runTick s) = .fault f →
      tick (runTick s) = .fault (f.withLeft (fun t => t.setTimer none)) ∧
        (f.withLeft (fun t => t.setTimer none)).left = f.left.setTimer none ∧
        faultCode (f.withLeft (fun t => t.setTimer none)) = faultCode f) ∧
    (∀ a pc ir t, step (runTick s) = .fault (.accessViolation a pc ir t) →
      tick (runTick s) = .fault (.accessViolation a pc ir (t.setTimer none))) ∧
    (∀ ir op t, step (runTick s) = .fault (.unknownInstruction ir op t) →
      tick (runTick s) = .fault (.unknownInstruction ir op (t.setTimer none))) ∧
    (∀ pc t, step (runTick s) = .fault (.outOfBounds pc t) →
      tick (runTick s) = .fault (.outOfBounds pc (t.setTimer none)))
end

