-- ==== Sys2Proof/Laws/Encoding.lean ====
section
/-! SUPPORT. The small lemmas of the decoder and the encoder: the bits of a placed field, the register
and opcode tables as inverses, and the opcode field of a canonical word. -/

namespace Sys2Proof

theorem Reg.ofBits_toBits (r : Reg) : Reg.ofBits r.toBits = r := by cases r <;> rfl

theorem Reg.toBits_ofBits : ∀ b : BitVec 3, (Reg.ofBits b).toBits = b := by decide

/-- A register field decodes to a register exactly when it is that register's field. -/
theorem Reg.ofBits_eq_iff (b : BitVec 3) (r : Reg) : Reg.ofBits b = r ↔ b = r.toBits := by
  constructor
  · rintro rfl; exact (Reg.toBits_ofBits b).symm
  · rintro rfl; exact Reg.ofBits_toBits r

theorem opcodeAt_opcodeBits (o : Opcode) : opcodeAt (opcodeBits o) = o := by cases o <;> rfl

theorem opcodeBits_opcodeAt : ∀ b : BitVec 4, opcodeBits (opcodeAt b) = b := by decide

/-- The bits of a field placed in a word. -/
theorem getLsbD_place {n : Nat} (f : BitVec n) (lo k : Nat) :
    (place f lo).getLsbD k = (decide (k < 16) && (decide (lo ≤ k) && f.getLsbD (k - lo))) := by
  unfold place
  simp only [BitVec.getLsbD_shiftLeft, BitVec.getLsbD_setWidth]
  by_cases h : k < lo
  · simp [h]
  · by_cases h2 : k < 16
    · simp [h, h2, Nat.le_of_not_lt h, show k - lo < 16 by omega]
    · simp [h2]

/-- No operand field reaches into the opcode. -/
theorem opcodeField_encode (i : Instr) : opcodeField (encode i) = opcodeBits i.opcode := by
  cases i <;>
    (unfold opcodeField encode operandBits
     ext k hk
     simp [← BitVec.getLsbD_eq_getElem, getLsbD_place]
     interval_cases k <;> simp)

/-- Decoding a canonical word dispatches on the instruction's own opcode. -/
theorem decode_encode_dispatch (i : Instr) : decode (encode i) = decodeAs i.opcode (encode i) := by
  unfold decode
  rw [opcodeField_encode, opcodeAt_opcodeBits]

/-- The decoded instruction's opcode name is the one the opcode field maps to (rule R81). -/
theorem decode_opcode (w : Word) : (decode w).opcode = opcodeAt (opcodeField w) := by
  unfold decode
  cases opcodeAt (opcodeField w) <;> unfold decodeAs <;> (try rfl) <;> (dsimp only; split <;> rfl)

end Sys2Proof
end

