-- ==== Sys2Proof/Laws/Fields.lean ====
section
/-! SUPPORT. The fields of a word as numbers: what `bitsAt` is to the decoder's own field reads, and when a
word decodes to a given instruction. -/

namespace Sys2Proof.Machine

theorem bitsAt_eq_extract (w : Word) (lo n : Nat) : bitsAt w lo n = (w.extractLsb' lo n).toNat := by
  simp [bitsAt, BitVec.extractLsb'_toNat, Nat.shiftRight_eq_div_pow]

/-- A field read equals a field exactly when the numbers agree. -/
theorem extract_eq_iff {n : Nat} (w : Word) (lo : Nat) (f : BitVec n) :
    w.extractLsb' lo n = f ↔ bitsAt w lo n = f.toNat := by
  rw [bitsAt_eq_extract, BitVec.toNat_inj]

/-- A register field names a register exactly when it holds its number. -/
theorem ofBits_extract_eq_iff (w : Word) (lo : Nat) (r : Reg) :
    Reg.ofBits (w.extractLsb' lo 3) = r ↔ bitsAt w lo 3 = r.toBits.toNat := by
  rw [Reg.ofBits_eq_iff, extract_eq_iff]

/-- A single bit read as a number and as a truth value. -/
theorem bitsAt_one_iff (w : Word) (lo : Nat) (b : Bool) : bitsAt w lo 1 = b.toNat ↔ w.getLsbD lo = b := by
  unfold bitsAt
  rw [← Nat.shiftRight_eq_div_pow, show w.getLsbD lo = w.toNat.testBit lo from rfl, Nat.testBit]
  rw [Nat.and_comm, Nat.and_one_is_mod]
  cases b <;> simp

/-- A word decodes to an instruction exactly when its opcode field holds the instruction's opcode and the
operand fields, read as that opcode reads them, give the instruction. -/
theorem decode_eq_iff (w : Word) (i : Instr) :
    decode w = i ↔ bitsAt w 12 4 = (opcodeBits i.opcode).toNat ∧ decodeAs i.opcode w = i := by
  rw [← extract_eq_iff]
  constructor
  · intro h
    have ho := decode_opcode w
    rw [h] at ho
    exact ⟨by rw [ho, opcodeBits_opcodeAt]; rfl, by rw [ho, ← h]; rfl⟩
  · rintro ⟨h, hd⟩
    unfold decode opcodeField
    rw [h, opcodeAt_opcodeBits, hd]

end Sys2Proof.Machine
end

