-- ==== Sys2Proof/Laws/Memory.lean ====
section
/-! SUPPORT. The laws of the memory array: a read after a write, and that every operation keeps the
canonical form. -/

namespace Sys2Proof.Machine

@[simp] theorem Memory.read_nil (a : Nat) : Memory.read [] a = Memory.background := rfl

theorem Memory.read_cons (k : Nat) (v : Word) (m : Memory) (a : Nat) :
    Memory.read ((k, v) :: m) a = if k = a then v else Memory.read m a := rfl

theorem Memory.read_erase (m : Memory) (a b : Nat) :
    (m.erase a).read b = if b = a then Memory.background else m.read b := by
  induction m with
  | nil => simp [Memory.erase]
  | cons e m ih =>
    obtain ⟨k, w⟩ := e
    by_cases hk : k = a
    · subst hk
      by_cases hb : b = k
      · simpa [Memory.erase, hb] using ih
      · simp [Memory.erase, ih, Memory.read_cons, hb, Ne.symm hb]
    · by_cases hb : k = b
      · subst hb; simp [Memory.erase, Memory.read_cons, hk]
      · simp [Memory.erase, Memory.read_cons, hk, hb, ih]

theorem Memory.read_insert_erase (m : Memory) (a b : Nat) (v : Word) :
    ((m.erase a).insert a v).read b = if b = a then v else m.read b := by
  induction m with
  | nil => by_cases hb : a = b <;> simp [Memory.erase, Memory.insert, Memory.read_cons, hb, eq_comm]
  | cons e m ih =>
    obtain ⟨k, w⟩ := e
    by_cases hk : k = a
    · subst hk
      by_cases hb : b = k
      · simpa [Memory.erase, hb] using ih
      · simp [Memory.erase, ih, Memory.read_cons, hb, Ne.symm hb]
    · simp only [Memory.erase, hk, if_false, Memory.insert]
      by_cases hlt : a < k
      · by_cases hb : b = a
        · simp [hlt, Memory.read_cons, hb]
        · simp [hlt, Memory.read_cons, hb, Ne.symm hb, Memory.read_erase]
      · by_cases hb : k = b
        · subst hb; simp [hlt, Memory.read_cons, hk]
        · simp [hlt, Memory.read_cons, hb, ih]

/-- A read after a write: the written word at its address, the old word everywhere else (rule R68). -/
@[simp] theorem Memory.read_write (m : Memory) (a b : Nat) (v : Word) :
    (m.write a v).read b = if b = a then v else m.read b := by
  unfold Memory.write
  split
  · next h => rw [Memory.read_erase, h]
  · exact Memory.read_insert_erase m a b v

theorem Memory.wfFrom_cons (lo k : Nat) (v : Word) (m : Memory) :
    Memory.wfFrom lo ((k, v) :: m) = true ↔
      lo ≤ k ∧ k < memWords ∧ v ≠ Memory.background ∧ Memory.wfFrom (k + 1) m = true := by
  simp [Memory.wfFrom, and_assoc]

theorem Memory.wfFrom_mono {lo hi : Nat} {m : Memory} (h : Memory.wfFrom hi m = true) (le : lo ≤ hi) :
    Memory.wfFrom lo m = true := by
  cases m with
  | nil => rfl
  | cons e m =>
    obtain ⟨k, v⟩ := e
    rw [Memory.wfFrom_cons] at h ⊢
    exact ⟨le_trans le h.1, h.2⟩

theorem Memory.wfFrom_erase {lo : Nat} {m : Memory} (h : Memory.wfFrom lo m = true) (a : Nat) :
    Memory.wfFrom lo (m.erase a) = true := by
  induction m generalizing lo with
  | nil => rfl
  | cons e m ih =>
    obtain ⟨k, v⟩ := e
    rw [Memory.wfFrom_cons] at h
    obtain ⟨h1, h2, h3, h4⟩ := h
    unfold Memory.erase
    split
    · exact ih (Memory.wfFrom_mono h4 (by omega))
    · exact (Memory.wfFrom_cons ..).mpr ⟨h1, h2, h3, ih h4⟩

theorem Memory.wfFrom_insert_erase {lo : Nat} {m : Memory} (h : Memory.wfFrom lo m = true) {a : Nat}
    {v : Word} (ha : lo ≤ a) (hi : a < memWords) (hv : v ≠ Memory.background) :
    Memory.wfFrom lo ((m.erase a).insert a v) = true := by
  induction m generalizing lo with
  | nil => simp [Memory.erase, Memory.insert, Memory.wfFrom, ha, hi, hv]
  | cons e m ih =>
    obtain ⟨k, w⟩ := e
    rw [Memory.wfFrom_cons] at h
    obtain ⟨h1, h2, h3, h4⟩ := h
    by_cases hk : k = a
    · simp only [Memory.erase, hk, if_true]
      exact ih (Memory.wfFrom_mono h4 (by omega)) ha
    · simp only [Memory.erase, hk, if_false, Memory.insert]
      split
      · next hlt =>
        exact (Memory.wfFrom_cons ..).mpr ⟨ha, hi, hv, (Memory.wfFrom_cons ..).mpr
          ⟨hlt, h2, h3, Memory.wfFrom_erase h4 a⟩⟩
      · exact (Memory.wfFrom_cons ..).mpr ⟨h1, h2, h3, ih h4 (by omega)⟩

/-- A write inside the address space keeps the canonical form. -/
theorem Memory.wf_write {m : Memory} (h : m.wf = true) {a : Nat} (ha : a < memWords) (v : Word) :
    (m.write a v).wf = true := by
  unfold Memory.wf Memory.write at *
  split
  · exact Memory.wfFrom_erase h a
  · next hv => exact Memory.wfFrom_insert_erase h (Nat.zero_le a) ha hv

/-- Below the lower bound a canonical memory lists nothing. -/
theorem Memory.read_of_lt {lo : Nat} {m : Memory} (h : Memory.wfFrom lo m = true) {a : Nat} (ha : a < lo) :
    m.read a = Memory.background := by
  induction m generalizing lo with
  | nil => rfl
  | cons e m ih =>
    obtain ⟨k, v⟩ := e
    rw [Memory.wfFrom_cons] at h
    rw [Memory.read_cons, if_neg (by omega)]
    exact ih h.2.2.2 (by omega)

/-- The fill of addresses below `n` reads as its function there and as the background above. -/
theorem Memory.read_fill (n : Nat) (f : Word → Word) (a : Nat) :
    (Memory.fill n f).read a = if a < n then f (BitVec.ofNat 16 a) else Memory.background := by
  induction n with
  | zero => simp [Memory.fill]
  | succ k ih =>
    simp only [Memory.fill, Memory.read_write, ih]
    by_cases h : a = k
    · simp [h]
    · have : (a < k + 1) ↔ a < k := by omega
      simp [h, this]

theorem Memory.wf_fill {n : Nat} (f : Word → Word) (h : n ≤ memWords) : (Memory.fill n f).wf = true := by
  induction n with
  | zero => rfl
  | succ k ih => exact Memory.wf_write (ih (by omega)) (by omega) _

/-- The overlay reads as its first entry for an address, else as the memory under it. -/
theorem Memory.read_overlay (m : Memory) (image : List (Word × Word)) (a : Word) :
    (m.overlay image).read a.toNat = (image.lookup a).getD (m.read a.toNat) := by
  induction image with
  | nil => rfl
  | cons e image ih =>
    obtain ⟨k, v⟩ := e
    simp only [Memory.overlay, Memory.read_write, ih, List.lookup_cons]
    by_cases h : a = k
    · simp [h]
    · have h' : a.toNat ≠ k.toNat := fun e => h (BitVec.eq_of_toNat_eq e)
      rw [if_neg h', beq_false_of_ne h]

theorem Memory.wf_overlay {m : Memory} (h : m.wf = true) (image : List (Word × Word)) :
    (m.overlay image).wf = true := by
  induction image with
  | nil => exact h
  | cons e image ih => exact Memory.wf_write ih (e.1.isLt) e.2

end Sys2Proof.Machine
end

