-- ==== Sys2Proof/Laws/State.lean ====
section
/-! SUPPORT. One lemma per field per named update of `State`, each true by rfl, and what reading a
register after writing one gives; with them no later proof unfolds a record update. -/

namespace Sys2Proof.Machine

@[simp] theorem State.setRegs_cfg (s : State) (x : RegFile) : (s.setRegs x).cfg = s.cfg := rfl
@[simp] theorem State.setRegs_regs (s : State) (x : RegFile) : (s.setRegs x).regs = x := rfl
@[simp] theorem State.setRegs_pc (s : State) (x : RegFile) : (s.setRegs x).pc = s.pc := rfl
@[simp] theorem State.setRegs_ir (s : State) (x : RegFile) : (s.setRegs x).ir = s.ir := rfl
@[simp] theorem State.setRegs_cc (s : State) (x : RegFile) : (s.setRegs x).cc = s.cc := rfl
@[simp] theorem State.setRegs_mode (s : State) (x : RegFile) : (s.setRegs x).mode = s.mode := rfl
@[simp] theorem State.setRegs_savedUSP (s : State) (x : RegFile) : (s.setRegs x).savedUSP = s.savedUSP := rfl
@[simp] theorem State.setRegs_savedSSP (s : State) (x : RegFile) : (s.setRegs x).savedSSP = s.savedSSP := rfl
@[simp] theorem State.setRegs_mem (s : State) (x : RegFile) : (s.setRegs x).mem = s.mem := rfl
@[simp] theorem State.setRegs_inQ (s : State) (x : RegFile) : (s.setRegs x).inQ = s.inQ := rfl
@[simp] theorem State.setRegs_outLog (s : State) (x : RegFile) : (s.setRegs x).outLog = s.outLog := rfl
@[simp] theorem State.setRegs_halted (s : State) (x : RegFile) : (s.setRegs x).halted = s.halted := rfl
@[simp] theorem State.setRegs_budget (s : State) (x : RegFile) : (s.setRegs x).budget = s.budget := rfl
@[simp] theorem State.setRegs_timer (s : State) (x : RegFile) : (s.setRegs x).timer = s.timer := rfl
@[simp] theorem State.setRegs_diag (s : State) (x : RegFile) : (s.setRegs x).diag = s.diag := rfl

@[simp] theorem State.setPc_cfg (s : State) (x : Word) : (s.setPc x).cfg = s.cfg := rfl
@[simp] theorem State.setPc_regs (s : State) (x : Word) : (s.setPc x).regs = s.regs := rfl
@[simp] theorem State.setPc_pc (s : State) (x : Word) : (s.setPc x).pc = x := rfl
@[simp] theorem State.setPc_ir (s : State) (x : Word) : (s.setPc x).ir = s.ir := rfl
@[simp] theorem State.setPc_cc (s : State) (x : Word) : (s.setPc x).cc = s.cc := rfl
@[simp] theorem State.setPc_mode (s : State) (x : Word) : (s.setPc x).mode = s.mode := rfl
@[simp] theorem State.setPc_savedUSP (s : State) (x : Word) : (s.setPc x).savedUSP = s.savedUSP := rfl
@[simp] theorem State.setPc_savedSSP (s : State) (x : Word) : (s.setPc x).savedSSP = s.savedSSP := rfl
@[simp] theorem State.setPc_mem (s : State) (x : Word) : (s.setPc x).mem = s.mem := rfl
@[simp] theorem State.setPc_inQ (s : State) (x : Word) : (s.setPc x).inQ = s.inQ := rfl
@[simp] theorem State.setPc_outLog (s : State) (x : Word) : (s.setPc x).outLog = s.outLog := rfl
@[simp] theorem State.setPc_halted (s : State) (x : Word) : (s.setPc x).halted = s.halted := rfl
@[simp] theorem State.setPc_budget (s : State) (x : Word) : (s.setPc x).budget = s.budget := rfl
@[simp] theorem State.setPc_timer (s : State) (x : Word) : (s.setPc x).timer = s.timer := rfl
@[simp] theorem State.setPc_diag (s : State) (x : Word) : (s.setPc x).diag = s.diag := rfl

@[simp] theorem State.setIr_cfg (s : State) (x : Word) : (s.setIr x).cfg = s.cfg := rfl
@[simp] theorem State.setIr_regs (s : State) (x : Word) : (s.setIr x).regs = s.regs := rfl
@[simp] theorem State.setIr_pc (s : State) (x : Word) : (s.setIr x).pc = s.pc := rfl
@[simp] theorem State.setIr_ir (s : State) (x : Word) : (s.setIr x).ir = x := rfl
@[simp] theorem State.setIr_cc (s : State) (x : Word) : (s.setIr x).cc = s.cc := rfl
@[simp] theorem State.setIr_mode (s : State) (x : Word) : (s.setIr x).mode = s.mode := rfl
@[simp] theorem State.setIr_savedUSP (s : State) (x : Word) : (s.setIr x).savedUSP = s.savedUSP := rfl
@[simp] theorem State.setIr_savedSSP (s : State) (x : Word) : (s.setIr x).savedSSP = s.savedSSP := rfl
@[simp] theorem State.setIr_mem (s : State) (x : Word) : (s.setIr x).mem = s.mem := rfl
@[simp] theorem State.setIr_inQ (s : State) (x : Word) : (s.setIr x).inQ = s.inQ := rfl
@[simp] theorem State.setIr_outLog (s : State) (x : Word) : (s.setIr x).outLog = s.outLog := rfl
@[simp] theorem State.setIr_halted (s : State) (x : Word) : (s.setIr x).halted = s.halted := rfl
@[simp] theorem State.setIr_budget (s : State) (x : Word) : (s.setIr x).budget = s.budget := rfl
@[simp] theorem State.setIr_timer (s : State) (x : Word) : (s.setIr x).timer = s.timer := rfl
@[simp] theorem State.setIr_diag (s : State) (x : Word) : (s.setIr x).diag = s.diag := rfl

@[simp] theorem State.setCc_cfg (s : State) (x : CondCode) : (s.setCc x).cfg = s.cfg := rfl
@[simp] theorem State.setCc_regs (s : State) (x : CondCode) : (s.setCc x).regs = s.regs := rfl
@[simp] theorem State.setCc_pc (s : State) (x : CondCode) : (s.setCc x).pc = s.pc := rfl
@[simp] theorem State.setCc_ir (s : State) (x : CondCode) : (s.setCc x).ir = s.ir := rfl
@[simp] theorem State.setCc_cc (s : State) (x : CondCode) : (s.setCc x).cc = x := rfl
@[simp] theorem State.setCc_mode (s : State) (x : CondCode) : (s.setCc x).mode = s.mode := rfl
@[simp] theorem State.setCc_savedUSP (s : State) (x : CondCode) : (s.setCc x).savedUSP = s.savedUSP := rfl
@[simp] theorem State.setCc_savedSSP (s : State) (x : CondCode) : (s.setCc x).savedSSP = s.savedSSP := rfl
@[simp] theorem State.setCc_mem (s : State) (x : CondCode) : (s.setCc x).mem = s.mem := rfl
@[simp] theorem State.setCc_inQ (s : State) (x : CondCode) : (s.setCc x).inQ = s.inQ := rfl
@[simp] theorem State.setCc_outLog (s : State) (x : CondCode) : (s.setCc x).outLog = s.outLog := rfl
@[simp] theorem State.setCc_halted (s : State) (x : CondCode) : (s.setCc x).halted = s.halted := rfl
@[simp] theorem State.setCc_budget (s : State) (x : CondCode) : (s.setCc x).budget = s.budget := rfl
@[simp] theorem State.setCc_timer (s : State) (x : CondCode) : (s.setCc x).timer = s.timer := rfl
@[simp] theorem State.setCc_diag (s : State) (x : CondCode) : (s.setCc x).diag = s.diag := rfl

@[simp] theorem State.setMode_cfg (s : State) (x : Mode) : (s.setMode x).cfg = s.cfg := rfl
@[simp] theorem State.setMode_regs (s : State) (x : Mode) : (s.setMode x).regs = s.regs := rfl
@[simp] theorem State.setMode_pc (s : State) (x : Mode) : (s.setMode x).pc = s.pc := rfl
@[simp] theorem State.setMode_ir (s : State) (x : Mode) : (s.setMode x).ir = s.ir := rfl
@[simp] theorem State.setMode_cc (s : State) (x : Mode) : (s.setMode x).cc = s.cc := rfl
@[simp] theorem State.setMode_mode (s : State) (x : Mode) : (s.setMode x).mode = x := rfl
@[simp] theorem State.setMode_savedUSP (s : State) (x : Mode) : (s.setMode x).savedUSP = s.savedUSP := rfl
@[simp] theorem State.setMode_savedSSP (s : State) (x : Mode) : (s.setMode x).savedSSP = s.savedSSP := rfl
@[simp] theorem State.setMode_mem (s : State) (x : Mode) : (s.setMode x).mem = s.mem := rfl
@[simp] theorem State.setMode_inQ (s : State) (x : Mode) : (s.setMode x).inQ = s.inQ := rfl
@[simp] theorem State.setMode_outLog (s : State) (x : Mode) : (s.setMode x).outLog = s.outLog := rfl
@[simp] theorem State.setMode_halted (s : State) (x : Mode) : (s.setMode x).halted = s.halted := rfl
@[simp] theorem State.setMode_budget (s : State) (x : Mode) : (s.setMode x).budget = s.budget := rfl
@[simp] theorem State.setMode_timer (s : State) (x : Mode) : (s.setMode x).timer = s.timer := rfl
@[simp] theorem State.setMode_diag (s : State) (x : Mode) : (s.setMode x).diag = s.diag := rfl

@[simp] theorem State.setSavedUSP_cfg (s : State) (x : Word) : (s.setSavedUSP x).cfg = s.cfg := rfl
@[simp] theorem State.setSavedUSP_regs (s : State) (x : Word) : (s.setSavedUSP x).regs = s.regs := rfl
@[simp] theorem State.setSavedUSP_pc (s : State) (x : Word) : (s.setSavedUSP x).pc = s.pc := rfl
@[simp] theorem State.setSavedUSP_ir (s : State) (x : Word) : (s.setSavedUSP x).ir = s.ir := rfl
@[simp] theorem State.setSavedUSP_cc (s : State) (x : Word) : (s.setSavedUSP x).cc = s.cc := rfl
@[simp] theorem State.setSavedUSP_mode (s : State) (x : Word) : (s.setSavedUSP x).mode = s.mode := rfl
@[simp] theorem State.setSavedUSP_savedUSP (s : State) (x : Word) : (s.setSavedUSP x).savedUSP = x := rfl
@[simp] theorem State.setSavedUSP_savedSSP (s : State) (x : Word) : (s.setSavedUSP x).savedSSP = s.savedSSP := rfl
@[simp] theorem State.setSavedUSP_mem (s : State) (x : Word) : (s.setSavedUSP x).mem = s.mem := rfl
@[simp] theorem State.setSavedUSP_inQ (s : State) (x : Word) : (s.setSavedUSP x).inQ = s.inQ := rfl
@[simp] theorem State.setSavedUSP_outLog (s : State) (x : Word) : (s.setSavedUSP x).outLog = s.outLog := rfl
@[simp] theorem State.setSavedUSP_halted (s : State) (x : Word) : (s.setSavedUSP x).halted = s.halted := rfl
@[simp] theorem State.setSavedUSP_budget (s : State) (x : Word) : (s.setSavedUSP x).budget = s.budget := rfl
@[simp] theorem State.setSavedUSP_timer (s : State) (x : Word) : (s.setSavedUSP x).timer = s.timer := rfl
@[simp] theorem State.setSavedUSP_diag (s : State) (x : Word) : (s.setSavedUSP x).diag = s.diag := rfl

@[simp] theorem State.setSavedSSP_cfg (s : State) (x : Word) : (s.setSavedSSP x).cfg = s.cfg := rfl
@[simp] theorem State.setSavedSSP_regs (s : State) (x : Word) : (s.setSavedSSP x).regs = s.regs := rfl
@[simp] theorem State.setSavedSSP_pc (s : State) (x : Word) : (s.setSavedSSP x).pc = s.pc := rfl
@[simp] theorem State.setSavedSSP_ir (s : State) (x : Word) : (s.setSavedSSP x).ir = s.ir := rfl
@[simp] theorem State.setSavedSSP_cc (s : State) (x : Word) : (s.setSavedSSP x).cc = s.cc := rfl
@[simp] theorem State.setSavedSSP_mode (s : State) (x : Word) : (s.setSavedSSP x).mode = s.mode := rfl
@[simp] theorem State.setSavedSSP_savedUSP (s : State) (x : Word) : (s.setSavedSSP x).savedUSP = s.savedUSP := rfl
@[simp] theorem State.setSavedSSP_savedSSP (s : State) (x : Word) : (s.setSavedSSP x).savedSSP = x := rfl
@[simp] theorem State.setSavedSSP_mem (s : State) (x : Word) : (s.setSavedSSP x).mem = s.mem := rfl
@[simp] theorem State.setSavedSSP_inQ (s : State) (x : Word) : (s.setSavedSSP x).inQ = s.inQ := rfl
@[simp] theorem State.setSavedSSP_outLog (s : State) (x : Word) : (s.setSavedSSP x).outLog = s.outLog := rfl
@[simp] theorem State.setSavedSSP_halted (s : State) (x : Word) : (s.setSavedSSP x).halted = s.halted := rfl
@[simp] theorem State.setSavedSSP_budget (s : State) (x : Word) : (s.setSavedSSP x).budget = s.budget := rfl
@[simp] theorem State.setSavedSSP_timer (s : State) (x : Word) : (s.setSavedSSP x).timer = s.timer := rfl
@[simp] theorem State.setSavedSSP_diag (s : State) (x : Word) : (s.setSavedSSP x).diag = s.diag := rfl

@[simp] theorem State.setMem_cfg (s : State) (x : Memory) : (s.setMem x).cfg = s.cfg := rfl
@[simp] theorem State.setMem_regs (s : State) (x : Memory) : (s.setMem x).regs = s.regs := rfl
@[simp] theorem State.setMem_pc (s : State) (x : Memory) : (s.setMem x).pc = s.pc := rfl
@[simp] theorem State.setMem_ir (s : State) (x : Memory) : (s.setMem x).ir = s.ir := rfl
@[simp] theorem State.setMem_cc (s : State) (x : Memory) : (s.setMem x).cc = s.cc := rfl
@[simp] theorem State.setMem_mode (s : State) (x : Memory) : (s.setMem x).mode = s.mode := rfl
@[simp] theorem State.setMem_savedUSP (s : State) (x : Memory) : (s.setMem x).savedUSP = s.savedUSP := rfl
@[simp] theorem State.setMem_savedSSP (s : State) (x : Memory) : (s.setMem x).savedSSP = s.savedSSP := rfl
@[simp] theorem State.setMem_mem (s : State) (x : Memory) : (s.setMem x).mem = x := rfl
@[simp] theorem State.setMem_inQ (s : State) (x : Memory) : (s.setMem x).inQ = s.inQ := rfl
@[simp] theorem State.setMem_outLog (s : State) (x : Memory) : (s.setMem x).outLog = s.outLog := rfl
@[simp] theorem State.setMem_halted (s : State) (x : Memory) : (s.setMem x).halted = s.halted := rfl
@[simp] theorem State.setMem_budget (s : State) (x : Memory) : (s.setMem x).budget = s.budget := rfl
@[simp] theorem State.setMem_timer (s : State) (x : Memory) : (s.setMem x).timer = s.timer := rfl
@[simp] theorem State.setMem_diag (s : State) (x : Memory) : (s.setMem x).diag = s.diag := rfl

@[simp] theorem State.setInQ_cfg (s : State) (x : List Word) : (s.setInQ x).cfg = s.cfg := rfl
@[simp] theorem State.setInQ_regs (s : State) (x : List Word) : (s.setInQ x).regs = s.regs := rfl
@[simp] theorem State.setInQ_pc (s : State) (x : List Word) : (s.setInQ x).pc = s.pc := rfl
@[simp] theorem State.setInQ_ir (s : State) (x : List Word) : (s.setInQ x).ir = s.ir := rfl
@[simp] theorem State.setInQ_cc (s : State) (x : List Word) : (s.setInQ x).cc = s.cc := rfl
@[simp] theorem State.setInQ_mode (s : State) (x : List Word) : (s.setInQ x).mode = s.mode := rfl
@[simp] theorem State.setInQ_savedUSP (s : State) (x : List Word) : (s.setInQ x).savedUSP = s.savedUSP := rfl
@[simp] theorem State.setInQ_savedSSP (s : State) (x : List Word) : (s.setInQ x).savedSSP = s.savedSSP := rfl
@[simp] theorem State.setInQ_mem (s : State) (x : List Word) : (s.setInQ x).mem = s.mem := rfl
@[simp] theorem State.setInQ_inQ (s : State) (x : List Word) : (s.setInQ x).inQ = x := rfl
@[simp] theorem State.setInQ_outLog (s : State) (x : List Word) : (s.setInQ x).outLog = s.outLog := rfl
@[simp] theorem State.setInQ_halted (s : State) (x : List Word) : (s.setInQ x).halted = s.halted := rfl
@[simp] theorem State.setInQ_budget (s : State) (x : List Word) : (s.setInQ x).budget = s.budget := rfl
@[simp] theorem State.setInQ_timer (s : State) (x : List Word) : (s.setInQ x).timer = s.timer := rfl
@[simp] theorem State.setInQ_diag (s : State) (x : List Word) : (s.setInQ x).diag = s.diag := rfl

@[simp] theorem State.setOutLog_cfg (s : State) (x : List Word) : (s.setOutLog x).cfg = s.cfg := rfl
@[simp] theorem State.setOutLog_regs (s : State) (x : List Word) : (s.setOutLog x).regs = s.regs := rfl
@[simp] theorem State.setOutLog_pc (s : State) (x : List Word) : (s.setOutLog x).pc = s.pc := rfl
@[simp] theorem State.setOutLog_ir (s : State) (x : List Word) : (s.setOutLog x).ir = s.ir := rfl
@[simp] theorem State.setOutLog_cc (s : State) (x : List Word) : (s.setOutLog x).cc = s.cc := rfl
@[simp] theorem State.setOutLog_mode (s : State) (x : List Word) : (s.setOutLog x).mode = s.mode := rfl
@[simp] theorem State.setOutLog_savedUSP (s : State) (x : List Word) : (s.setOutLog x).savedUSP = s.savedUSP := rfl
@[simp] theorem State.setOutLog_savedSSP (s : State) (x : List Word) : (s.setOutLog x).savedSSP = s.savedSSP := rfl
@[simp] theorem State.setOutLog_mem (s : State) (x : List Word) : (s.setOutLog x).mem = s.mem := rfl
@[simp] theorem State.setOutLog_inQ (s : State) (x : List Word) : (s.setOutLog x).inQ = s.inQ := rfl
@[simp] theorem State.setOutLog_outLog (s : State) (x : List Word) : (s.setOutLog x).outLog = x := rfl
@[simp] theorem State.setOutLog_halted (s : State) (x : List Word) : (s.setOutLog x).halted = s.halted := rfl
@[simp] theorem State.setOutLog_budget (s : State) (x : List Word) : (s.setOutLog x).budget = s.budget := rfl
@[simp] theorem State.setOutLog_timer (s : State) (x : List Word) : (s.setOutLog x).timer = s.timer := rfl
@[simp] theorem State.setOutLog_diag (s : State) (x : List Word) : (s.setOutLog x).diag = s.diag := rfl

@[simp] theorem State.setHalted_cfg (s : State) (x : Bool) : (s.setHalted x).cfg = s.cfg := rfl
@[simp] theorem State.setHalted_regs (s : State) (x : Bool) : (s.setHalted x).regs = s.regs := rfl
@[simp] theorem State.setHalted_pc (s : State) (x : Bool) : (s.setHalted x).pc = s.pc := rfl
@[simp] theorem State.setHalted_ir (s : State) (x : Bool) : (s.setHalted x).ir = s.ir := rfl
@[simp] theorem State.setHalted_cc (s : State) (x : Bool) : (s.setHalted x).cc = s.cc := rfl
@[simp] theorem State.setHalted_mode (s : State) (x : Bool) : (s.setHalted x).mode = s.mode := rfl
@[simp] theorem State.setHalted_savedUSP (s : State) (x : Bool) : (s.setHalted x).savedUSP = s.savedUSP := rfl
@[simp] theorem State.setHalted_savedSSP (s : State) (x : Bool) : (s.setHalted x).savedSSP = s.savedSSP := rfl
@[simp] theorem State.setHalted_mem (s : State) (x : Bool) : (s.setHalted x).mem = s.mem := rfl
@[simp] theorem State.setHalted_inQ (s : State) (x : Bool) : (s.setHalted x).inQ = s.inQ := rfl
@[simp] theorem State.setHalted_outLog (s : State) (x : Bool) : (s.setHalted x).outLog = s.outLog := rfl
@[simp] theorem State.setHalted_halted (s : State) (x : Bool) : (s.setHalted x).halted = x := rfl
@[simp] theorem State.setHalted_budget (s : State) (x : Bool) : (s.setHalted x).budget = s.budget := rfl
@[simp] theorem State.setHalted_timer (s : State) (x : Bool) : (s.setHalted x).timer = s.timer := rfl
@[simp] theorem State.setHalted_diag (s : State) (x : Bool) : (s.setHalted x).diag = s.diag := rfl

@[simp] theorem State.setBudget_cfg (s : State) (x : Nat) : (s.setBudget x).cfg = s.cfg := rfl
@[simp] theorem State.setBudget_regs (s : State) (x : Nat) : (s.setBudget x).regs = s.regs := rfl
@[simp] theorem State.setBudget_pc (s : State) (x : Nat) : (s.setBudget x).pc = s.pc := rfl
@[simp] theorem State.setBudget_ir (s : State) (x : Nat) : (s.setBudget x).ir = s.ir := rfl
@[simp] theorem State.setBudget_cc (s : State) (x : Nat) : (s.setBudget x).cc = s.cc := rfl
@[simp] theorem State.setBudget_mode (s : State) (x : Nat) : (s.setBudget x).mode = s.mode := rfl
@[simp] theorem State.setBudget_savedUSP (s : State) (x : Nat) : (s.setBudget x).savedUSP = s.savedUSP := rfl
@[simp] theorem State.setBudget_savedSSP (s : State) (x : Nat) : (s.setBudget x).savedSSP = s.savedSSP := rfl
@[simp] theorem State.setBudget_mem (s : State) (x : Nat) : (s.setBudget x).mem = s.mem := rfl
@[simp] theorem State.setBudget_inQ (s : State) (x : Nat) : (s.setBudget x).inQ = s.inQ := rfl
@[simp] theorem State.setBudget_outLog (s : State) (x : Nat) : (s.setBudget x).outLog = s.outLog := rfl
@[simp] theorem State.setBudget_halted (s : State) (x : Nat) : (s.setBudget x).halted = s.halted := rfl
@[simp] theorem State.setBudget_budget (s : State) (x : Nat) : (s.setBudget x).budget = x := rfl
@[simp] theorem State.setBudget_timer (s : State) (x : Nat) : (s.setBudget x).timer = s.timer := rfl
@[simp] theorem State.setBudget_diag (s : State) (x : Nat) : (s.setBudget x).diag = s.diag := rfl

@[simp] theorem State.setTimer_cfg (s : State) (x : Option Nat) : (s.setTimer x).cfg = s.cfg := rfl
@[simp] theorem State.setTimer_regs (s : State) (x : Option Nat) : (s.setTimer x).regs = s.regs := rfl
@[simp] theorem State.setTimer_pc (s : State) (x : Option Nat) : (s.setTimer x).pc = s.pc := rfl
@[simp] theorem State.setTimer_ir (s : State) (x : Option Nat) : (s.setTimer x).ir = s.ir := rfl
@[simp] theorem State.setTimer_cc (s : State) (x : Option Nat) : (s.setTimer x).cc = s.cc := rfl
@[simp] theorem State.setTimer_mode (s : State) (x : Option Nat) : (s.setTimer x).mode = s.mode := rfl
@[simp] theorem State.setTimer_savedUSP (s : State) (x : Option Nat) : (s.setTimer x).savedUSP = s.savedUSP := rfl
@[simp] theorem State.setTimer_savedSSP (s : State) (x : Option Nat) : (s.setTimer x).savedSSP = s.savedSSP := rfl
@[simp] theorem State.setTimer_mem (s : State) (x : Option Nat) : (s.setTimer x).mem = s.mem := rfl
@[simp] theorem State.setTimer_inQ (s : State) (x : Option Nat) : (s.setTimer x).inQ = s.inQ := rfl
@[simp] theorem State.setTimer_outLog (s : State) (x : Option Nat) : (s.setTimer x).outLog = s.outLog := rfl
@[simp] theorem State.setTimer_halted (s : State) (x : Option Nat) : (s.setTimer x).halted = s.halted := rfl
@[simp] theorem State.setTimer_budget (s : State) (x : Option Nat) : (s.setTimer x).budget = s.budget := rfl
@[simp] theorem State.setTimer_timer (s : State) (x : Option Nat) : (s.setTimer x).timer = x := rfl
@[simp] theorem State.setTimer_diag (s : State) (x : Option Nat) : (s.setTimer x).diag = s.diag := rfl

@[simp] theorem State.setDiag_cfg (s : State) (x : List Word) : (s.setDiag x).cfg = s.cfg := rfl
@[simp] theorem State.setDiag_regs (s : State) (x : List Word) : (s.setDiag x).regs = s.regs := rfl
@[simp] theorem State.setDiag_pc (s : State) (x : List Word) : (s.setDiag x).pc = s.pc := rfl
@[simp] theorem State.setDiag_ir (s : State) (x : List Word) : (s.setDiag x).ir = s.ir := rfl
@[simp] theorem State.setDiag_cc (s : State) (x : List Word) : (s.setDiag x).cc = s.cc := rfl
@[simp] theorem State.setDiag_mode (s : State) (x : List Word) : (s.setDiag x).mode = s.mode := rfl
@[simp] theorem State.setDiag_savedUSP (s : State) (x : List Word) : (s.setDiag x).savedUSP = s.savedUSP := rfl
@[simp] theorem State.setDiag_savedSSP (s : State) (x : List Word) : (s.setDiag x).savedSSP = s.savedSSP := rfl
@[simp] theorem State.setDiag_mem (s : State) (x : List Word) : (s.setDiag x).mem = s.mem := rfl
@[simp] theorem State.setDiag_inQ (s : State) (x : List Word) : (s.setDiag x).inQ = s.inQ := rfl
@[simp] theorem State.setDiag_outLog (s : State) (x : List Word) : (s.setDiag x).outLog = s.outLog := rfl
@[simp] theorem State.setDiag_halted (s : State) (x : List Word) : (s.setDiag x).halted = s.halted := rfl
@[simp] theorem State.setDiag_budget (s : State) (x : List Word) : (s.setDiag x).budget = s.budget := rfl
@[simp] theorem State.setDiag_timer (s : State) (x : List Word) : (s.setDiag x).timer = s.timer := rfl
@[simp] theorem State.setDiag_diag (s : State) (x : List Word) : (s.setDiag x).diag = x := rfl

/-- Writing a register of a register file changes that register and no other (rule R20). -/
@[simp] theorem RegFile.get_set (f : RegFile) (r q : Reg) (v : Word) :
    (f.set r v).get q = if q = r then v else f.get q := by
  cases r <;> cases q <;> rfl

/-- The general register after a register write. -/
@[simp] theorem State.reg_setReg (s : State) (r q : Reg) (v : Word) :
    (s.setReg r v).reg q = if q = r then v else s.reg q :=
  RegFile.get_set s.regs r q v

@[simp] theorem State.setReg_cfg (s : State) (r : Reg) (v : Word) : (s.setReg r v).cfg = s.cfg := rfl
@[simp] theorem State.setReg_pc (s : State) (r : Reg) (v : Word) : (s.setReg r v).pc = s.pc := rfl
@[simp] theorem State.setReg_ir (s : State) (r : Reg) (v : Word) : (s.setReg r v).ir = s.ir := rfl
@[simp] theorem State.setReg_cc (s : State) (r : Reg) (v : Word) : (s.setReg r v).cc = s.cc := rfl
@[simp] theorem State.setReg_mode (s : State) (r : Reg) (v : Word) : (s.setReg r v).mode = s.mode := rfl
@[simp] theorem State.setReg_savedUSP (s : State) (r : Reg) (v : Word) : (s.setReg r v).savedUSP = s.savedUSP := rfl
@[simp] theorem State.setReg_savedSSP (s : State) (r : Reg) (v : Word) : (s.setReg r v).savedSSP = s.savedSSP := rfl
@[simp] theorem State.setReg_mem (s : State) (r : Reg) (v : Word) : (s.setReg r v).mem = s.mem := rfl
@[simp] theorem State.setReg_inQ (s : State) (r : Reg) (v : Word) : (s.setReg r v).inQ = s.inQ := rfl
@[simp] theorem State.setReg_outLog (s : State) (r : Reg) (v : Word) : (s.setReg r v).outLog = s.outLog := rfl
@[simp] theorem State.setReg_halted (s : State) (r : Reg) (v : Word) : (s.setReg r v).halted = s.halted := rfl
@[simp] theorem State.setReg_budget (s : State) (r : Reg) (v : Word) : (s.setReg r v).budget = s.budget := rfl
@[simp] theorem State.setReg_timer (s : State) (r : Reg) (v : Word) : (s.setReg r v).timer = s.timer := rfl
@[simp] theorem State.setReg_diag (s : State) (r : Reg) (v : Word) : (s.setReg r v).diag = s.diag := rfl

@[simp] theorem State.reg_setPc (s : State) (x : Word) (r : Reg) : (s.setPc x).reg r = s.reg r := rfl
@[simp] theorem State.reg_setIr (s : State) (x : Word) (r : Reg) : (s.setIr x).reg r = s.reg r := rfl
@[simp] theorem State.reg_setCc (s : State) (x : CondCode) (r : Reg) : (s.setCc x).reg r = s.reg r := rfl
@[simp] theorem State.reg_setMode (s : State) (x : Mode) (r : Reg) : (s.setMode x).reg r = s.reg r := rfl
@[simp] theorem State.reg_setSavedUSP (s : State) (x : Word) (r : Reg) : (s.setSavedUSP x).reg r = s.reg r := rfl
@[simp] theorem State.reg_setSavedSSP (s : State) (x : Word) (r : Reg) : (s.setSavedSSP x).reg r = s.reg r := rfl
@[simp] theorem State.reg_setMem (s : State) (x : Memory) (r : Reg) : (s.setMem x).reg r = s.reg r := rfl
@[simp] theorem State.reg_setInQ (s : State) (x : List Word) (r : Reg) : (s.setInQ x).reg r = s.reg r := rfl
@[simp] theorem State.reg_setOutLog (s : State) (x : List Word) (r : Reg) : (s.setOutLog x).reg r = s.reg r := rfl
@[simp] theorem State.reg_setHalted (s : State) (x : Bool) (r : Reg) : (s.setHalted x).reg r = s.reg r := rfl
@[simp] theorem State.reg_setBudget (s : State) (x : Nat) (r : Reg) : (s.setBudget x).reg r = s.reg r := rfl
@[simp] theorem State.reg_setTimer (s : State) (x : Option Nat) (r : Reg) : (s.setTimer x).reg r = s.reg r := rfl
@[simp] theorem State.reg_setDiag (s : State) (x : List Word) (r : Reg) : (s.setDiag x).reg r = s.reg r := rfl

/-- Two states are equal when every field is. -/
theorem State.eq_of_fields {s t : State} (h_cfg : s.cfg = t.cfg) (h_regs : s.regs = t.regs) (h_pc : s.pc = t.pc) (h_ir : s.ir = t.ir) (h_cc : s.cc = t.cc) (h_mode : s.mode = t.mode) (h_savedUSP : s.savedUSP = t.savedUSP) (h_savedSSP : s.savedSSP = t.savedSSP) (h_mem : s.mem = t.mem) (h_inQ : s.inQ = t.inQ) (h_outLog : s.outLog = t.outLog) (h_halted : s.halted = t.halted) (h_budget : s.budget = t.budget) (h_timer : s.timer = t.timer) (h_diag : s.diag = t.diag) :
    s = t := by
  cases s; cases t; simp_all

/-- Two register files are equal when every register is. -/
theorem RegFile.eq_of_get {f g : RegFile} (h : ∀ r, f.get r = g.get r) : f = g := by
  have h0 := h .r0; have h1 := h .r1; have h2 := h .r2; have h3 := h .r3
  have h4 := h .r4; have h5 := h .r5; have h6 := h .r6; have h7 := h .r7
  cases f; cases g; simp_all [RegFile.get]

end Sys2Proof.Machine
end

