-- ==== Sys2Proof/Laws/Ops.lean ====
section
/-! SUPPORT. One lemma per shared operation that says once everything it can do, which the proofs cite
instead of unfolding the operation. -/

namespace Sys2Proof.Machine

/-! Words and addresses. -/

/-- Adding a sign-extended field to a word is adding its signed value modulo 2^16. -/
theorem add_sext_eq_wrap {n : Nat} (w : Word) (f : BitVec n) :
    w + sext f = wrap (w.toNat + f.toInt) := by
  unfold wrap
  rw [BitVec.ofInt_add, BitVec.ofInt_natCast, BitVec.ofNat_toNat, BitVec.setWidth_eq]
  rfl

theorem wrap_toNat_add (w : Word) (k : Nat) : wrap ((w.toNat : Int) + k) = w + BitVec.ofNat 16 k := by
  unfold wrap
  rw [BitVec.ofInt_add]
  simp

theorem wrap_toNat_sub (w : Word) (k : Nat) : wrap ((w.toNat : Int) - k) = w - BitVec.ofNat 16 k := by
  unfold wrap
  rw [Int.sub_eq_add_neg, BitVec.ofInt_add, BitVec.ofInt_neg]
  simp [BitVec.sub_eq_add_neg]

/-- The permission test of a 16-bit address is the predicate of rule R55. -/
theorem permOK_word_iff (cfg : Config) (a : Word) :
    permOK cfg (a.toNat : Int) = true ↔ Permitted cfg a := by
  have h := a.isLt
  unfold permOK Permitted isDeviceRegister userBase deviceBase kbsrAddr kbdrAddr dsrAddr ddrAddr addrMax
  simp only [← BitVec.toNat_inj, Bool.and_eq_true, Bool.or_eq_true, decide_eq_true_eq]
  cases cfg.ignorePrivilege <;> simp <;> omega

theorem permOK_word_eq_false_iff (cfg : Config) (a : Word) :
    permOK cfg (a.toNat : Int) = false ↔ ¬ Permitted cfg a := by
  rw [← permOK_word_iff, Bool.not_eq_true]

/-! The memory access controller. -/

@[simp] theorem setInQ_self (s : State) : s.setInQ s.inQ = s := rfl

/-- Everything a permitted read can do. -/
theorem memRead_ok {a : Word} {s t : State} {v : Word} (h : memRead (a.toNat : Int) s = .ok (v, t)) :
    Permitted s.cfg a ∧ v = readValue s a ∧ t = s.setInQ (queueAfterRead s.inQ a) := by
  unfold memRead kbsrAddr kbdrAddr dsrAddr kbsrValue kbdrRead readyWord notReadyWord at h
  unfold readValue queueAfterRead
  have inj : ∀ k : Word, (a = k) ↔ a.toNat = k.toNat := fun k => BitVec.toNat_inj.symm
  simp only [inj]
  split at h
  · next hp =>
    refine ⟨(permOK_word_iff _ _).mp hp, ?_⟩
    by_cases h0 : a.toNat = 0xFE00
    · simp [h0] at h ⊢; exact ⟨h.1.symm, h.2.symm⟩
    · by_cases h2 : a.toNat = 0xFE02
      · simp [h2] at h ⊢
        cases hq : s.inQ <;> simp [hq] at h ⊢
        · exact ⟨h.1.symm, by rw [← hq, setInQ_self]; exact h.2.symm⟩
        · exact ⟨h.1.symm, h.2.symm⟩
      · by_cases h4 : a.toNat = 0xFE04
        · simp [h4] at h ⊢; exact ⟨h.1.symm, h.2.symm⟩
        · have e0 : (a.toNat : Int) ≠ 0xFE00 := by omega
          have e2 : (a.toNat : Int) ≠ 0xFE02 := by omega
          have e4 : (a.toNat : Int) ≠ 0xFE04 := by omega
          simp [h0, h2, h4, e0, e2, e4] at h ⊢; exact ⟨h.1.symm, h.2.symm⟩
  · exact absurd h (by simp)

/-- Everything a refused read can do. -/
theorem memRead_error {a : Int} {s : State} {f : Fault} (h : memRead a s = .error f) :
    permOK s.cfg a = false ∧ f = accessFault a s := by
  unfold memRead at h
  split at h
  · repeat (first | (split at h) | exact absurd h (by simp))
  · next hp => exact ⟨by simpa using hp, by simpa using h.symm⟩

/-- A read answers whenever its address is permitted. -/
theorem memRead_exists {a : Word} {s : State} (h : Permitted s.cfg a) :
    ∃ v t, memRead (a.toNat : Int) s = .ok (v, t) := by
  cases hr : memRead (a.toNat : Int) s with
  | ok p => exact ⟨p.1, p.2, rfl⟩
  | error f => exact absurd ((permOK_word_iff _ _).mpr h) (by rw [(memRead_error hr).1]; simp)

/-- Everything a permitted write can do. -/
theorem memWrite_ok {a : Int} {v : Word} {s t : State} (h : memWrite a v s = .ok t) :
    permOK s.cfg a = true ∧
      ((a = 0xFE06 ∧ t = s.setOutLog (s.outLog ++ [v])) ∨
        (a ≠ 0xFE06 ∧ t = s.setMem (s.mem.write a.toNat v))) := by
  unfold memWrite ddrAddr at h
  split at h
  · next hp =>
    refine ⟨hp, ?_⟩
    split at h
    · next ha => exact Or.inl ⟨ha, by simpa using h.symm⟩
    · next ha => exact Or.inr ⟨ha, by simpa using h.symm⟩
  · exact absurd h (by simp)

/-- Everything a refused write can do. -/
theorem memWrite_error {a : Int} {v : Word} {s : State} {f : Fault} (h : memWrite a v s = .error f) :
    permOK s.cfg a = false ∧ f = accessFault a s := by
  unfold memWrite at h
  split at h
  · split at h <;> exact absurd h (by simp)
  · next hp => exact ⟨by simpa using hp, by simpa using h.symm⟩

/-- A write answers whenever its address is permitted. -/
theorem memWrite_exists {a : Int} {v : Word} {s : State} (h : permOK s.cfg a = true) :
    ∃ t, memWrite a v s = .ok t := by
  cases hr : memWrite a v s with
  | ok t => exact ⟨t, rfl⟩
  | error f => exact absurd h (by rw [(memWrite_error hr).1]; simp)

/-! The fields after the register writes that end a result, a trap entry and a trap return. -/

@[simp] theorem writeResult_cfg (dr : Reg) (v : Word) (s : State) : (writeResult dr v s).cfg = s.cfg := rfl
@[simp] theorem writeResult_pc (dr : Reg) (v : Word) (s : State) : (writeResult dr v s).pc = s.pc := rfl
@[simp] theorem writeResult_ir (dr : Reg) (v : Word) (s : State) : (writeResult dr v s).ir = s.ir := rfl
@[simp] theorem writeResult_cc (dr : Reg) (v : Word) (s : State) : (writeResult dr v s).cc = ccOf v := rfl
@[simp] theorem writeResult_mode (dr : Reg) (v : Word) (s : State) : (writeResult dr v s).mode = s.mode := rfl
@[simp] theorem writeResult_savedUSP (dr : Reg) (v : Word) (s : State) : (writeResult dr v s).savedUSP = s.savedUSP := rfl
@[simp] theorem writeResult_savedSSP (dr : Reg) (v : Word) (s : State) : (writeResult dr v s).savedSSP = s.savedSSP := rfl
@[simp] theorem writeResult_mem (dr : Reg) (v : Word) (s : State) : (writeResult dr v s).mem = s.mem := rfl
@[simp] theorem writeResult_inQ (dr : Reg) (v : Word) (s : State) : (writeResult dr v s).inQ = s.inQ := rfl
@[simp] theorem writeResult_outLog (dr : Reg) (v : Word) (s : State) : (writeResult dr v s).outLog = s.outLog := rfl
@[simp] theorem writeResult_halted (dr : Reg) (v : Word) (s : State) : (writeResult dr v s).halted = s.halted := rfl
@[simp] theorem writeResult_budget (dr : Reg) (v : Word) (s : State) : (writeResult dr v s).budget = s.budget := rfl
@[simp] theorem writeResult_timer (dr : Reg) (v : Word) (s : State) : (writeResult dr v s).timer = s.timer := rfl
@[simp] theorem writeResult_diag (dr : Reg) (v : Word) (s : State) : (writeResult dr v s).diag = s.diag := rfl

@[simp] theorem writeResult_reg (dr q : Reg) (v : Word) (s : State) :
    (writeResult dr v s).reg q = if q = dr then v else s.reg q :=
  State.reg_setReg s dr q v

@[simp] theorem enterSupervisor_cfg (top target : Word) (s : State) :
    (enterSupervisor top target s).cfg = s.cfg := rfl
@[simp] theorem enterSupervisor_pc (top target : Word) (s : State) :
    (enterSupervisor top target s).pc = target := rfl
@[simp] theorem enterSupervisor_ir (top target : Word) (s : State) :
    (enterSupervisor top target s).ir = s.ir := rfl
@[simp] theorem enterSupervisor_cc (top target : Word) (s : State) :
    (enterSupervisor top target s).cc = s.cc := rfl
@[simp] theorem enterSupervisor_mode (top target : Word) (s : State) :
    (enterSupervisor top target s).mode = .supervisor := rfl
@[simp] theorem enterSupervisor_savedUSP (top target : Word) (s : State) :
    (enterSupervisor top target s).savedUSP = if s.mode = .user then s.reg .r6 else s.savedUSP := rfl
@[simp] theorem enterSupervisor_savedSSP (top target : Word) (s : State) :
    (enterSupervisor top target s).savedSSP = s.savedSSP := rfl
@[simp] theorem enterSupervisor_mem (top target : Word) (s : State) :
    (enterSupervisor top target s).mem = s.mem := rfl
@[simp] theorem enterSupervisor_inQ (top target : Word) (s : State) :
    (enterSupervisor top target s).inQ = s.inQ := rfl
@[simp] theorem enterSupervisor_outLog (top target : Word) (s : State) :
    (enterSupervisor top target s).outLog = s.outLog := rfl
@[simp] theorem enterSupervisor_halted (top target : Word) (s : State) :
    (enterSupervisor top target s).halted = s.halted := rfl
@[simp] theorem enterSupervisor_budget (top target : Word) (s : State) :
    (enterSupervisor top target s).budget = s.budget := rfl
@[simp] theorem enterSupervisor_timer (top target : Word) (s : State) :
    (enterSupervisor top target s).timer = s.timer := rfl
@[simp] theorem enterSupervisor_diag (top target : Word) (s : State) :
    (enterSupervisor top target s).diag = s.diag := rfl

@[simp] theorem enterSupervisor_reg (top target : Word) (s : State) (q : Reg) :
    (enterSupervisor top target s).reg q = if q = .r6 then top else s.reg q := by
  simp [enterSupervisor]

@[simp] theorem leaveTrap_cfg (top status target : Word) (s : State) :
    (leaveTrap top status target s).cfg = s.cfg := by
  unfold leaveTrap; split <;> rfl
@[simp] theorem leaveTrap_pc (top status target : Word) (s : State) :
    (leaveTrap top status target s).pc = target := by
  unfold leaveTrap; split <;> rfl
@[simp] theorem leaveTrap_ir (top status target : Word) (s : State) :
    (leaveTrap top status target s).ir = s.ir := by
  unfold leaveTrap; split <;> rfl
@[simp] theorem leaveTrap_cc (top status target : Word) (s : State) :
    (leaveTrap top status target s).cc = s.cc := by
  unfold leaveTrap; split <;> rfl
@[simp] theorem leaveTrap_mode (top status target : Word) (s : State) :
    (leaveTrap top status target s).mode = modeOfStatus status := by
  unfold leaveTrap; cases modeOfStatus status <;> rfl
@[simp] theorem leaveTrap_savedUSP (top status target : Word) (s : State) :
    (leaveTrap top status target s).savedUSP = s.savedUSP := by
  unfold leaveTrap; split <;> rfl
@[simp] theorem leaveTrap_savedSSP (top status target : Word) (s : State) :
    (leaveTrap top status target s).savedSSP = if modeOfStatus status = .user then top else s.savedSSP := by
  unfold leaveTrap; split <;> rfl
@[simp] theorem leaveTrap_mem (top status target : Word) (s : State) :
    (leaveTrap top status target s).mem = s.mem := by
  unfold leaveTrap; split <;> rfl
@[simp] theorem leaveTrap_inQ (top status target : Word) (s : State) :
    (leaveTrap top status target s).inQ = s.inQ := by
  unfold leaveTrap; split <;> rfl
@[simp] theorem leaveTrap_outLog (top status target : Word) (s : State) :
    (leaveTrap top status target s).outLog = s.outLog := by
  unfold leaveTrap; split <;> rfl
@[simp] theorem leaveTrap_halted (top status target : Word) (s : State) :
    (leaveTrap top status target s).halted = s.halted := by
  unfold leaveTrap; split <;> rfl
@[simp] theorem leaveTrap_budget (top status target : Word) (s : State) :
    (leaveTrap top status target s).budget = s.budget := by
  unfold leaveTrap; split <;> rfl
@[simp] theorem leaveTrap_timer (top status target : Word) (s : State) :
    (leaveTrap top status target s).timer = s.timer := by
  unfold leaveTrap; split <;> rfl
@[simp] theorem leaveTrap_diag (top status target : Word) (s : State) :
    (leaveTrap top status target s).diag = s.diag := by
  unfold leaveTrap; split <;> rfl

@[simp] theorem leaveTrap_reg (top status target : Word) (s : State) (q : Reg) :
    (leaveTrap top status target s).reg q =
      if q = .r6 then (if modeOfStatus status = .user then s.savedUSP else top) else s.reg q := by
  unfold leaveTrap; split <;> simp

/-- The status word of a mode, as a number (rule R29). -/
theorem statusWord_eq (m : Mode) : statusWord m = if m = .user then 0x8000#16 else 0x0000#16 := by
  cases m <;> rfl

/-- The mode a status word restores, by its value (rule R29). -/
theorem modeOfStatus_eq (w : Word) :
    modeOfStatus w = if 0x8000 ≤ w.toNat then .user else .supervisor := by
  have hm : w.getLsbD 15 = decide (0x8000 ≤ w.toNat) := by
    simpa [BitVec.msb_eq_getLsbD_last] using BitVec.msb_eq_decide w
  unfold modeOfStatus
  rw [hm]; simp

/-- A mode pushed by a trap entry and popped again is itself. -/
@[simp] theorem modeOfStatus_statusWord (m : Mode) : modeOfStatus (statusWord m) = m := by
  cases m <;> rfl

/-- The table entry of a vector is the vector's number (rule R51). -/
theorem trapTableEntry_eq (v : BitVec 8) : trapTableEntry v = BitVec.ofNat 16 v.toNat := by
  unfold trapTableEntry zext; apply BitVec.eq_of_toNat_eq; simp

theorem trapTableEntry_toNat (v : BitVec 8) : (trapTableEntry v).toNat = v.toNat := by
  have := v.isLt
  rw [trapTableEntry_eq]; simp; omega

/-- Outside KBSR, KBDR and DSR a read answers the backing word and takes nothing from the queue. -/
theorem readValue_plain {a : Word} (s : State) (h : a.toNat < 0xFE00 ∨ 0xFE04 < a.toNat) :
    readValue s a = s.mem.read a.toNat ∧ queueAfterRead s.inQ a = s.inQ := by
  unfold readValue queueAfterRead
  simp only [← BitVec.toNat_inj]
  simp
  refine ⟨?_, ?_⟩
  · rw [if_neg (by omega), if_neg (by omega), if_neg (by omega)]
  · intro h2; omega

/-! The ends of loads and stores. -/

/-- The condition code a value calls for is its sign (rule R16). -/
theorem signCode_ccOf (v : Word) : SignCode v (ccOf v) := by
  have h := v.isLt
  unfold SignCode ccOf
  have hm : v.getLsbD 15 = decide (0x8000 ≤ v.toNat) := by
    have := BitVec.msb_eq_decide v
    simpa [BitVec.msb_eq_getLsbD_last] using this
  rw [hm]
  simp only [← BitVec.toNat_inj]
  by_cases h1 : 0x8000 ≤ v.toNat
  · simp [h1]; omega
  · by_cases h2 : v.toNat = 0
    · simp [h2]
    · simp [h1, h2]; omega

theorem ccOf_unique {v : Word} {c : CondCode} (h : SignCode v c) : c = ccOf v := by
  have g := signCode_ccOf v
  have hv := v.isLt
  obtain ⟨n, z, p⟩ := h
  obtain ⟨n', z', p'⟩ := g
  by_cases h1 : 0x8000 ≤ v.toNat
  · rw [n.mpr h1, n'.mpr h1]
  · by_cases h2 : v.toNat = 0
    · rw [z.mpr h2, z'.mpr h2]
    · rw [p.mpr ⟨by omega, by omega⟩, p'.mpr ⟨by omega, by omega⟩]

/-- What the write of a result does, in the terms of the claims. -/
theorem computes_writeResult (dr : Reg) (v : Word) (s : State) : Computes dr v s (writeResult dr v s) := by
  refine ⟨fun r => ?_, signCode_ccOf v, rfl, rfl, ⟨rfl, rfl, rfl, rfl, rfl, rfl, rfl, rfl⟩, fun _ => rfl,
    rfl, rfl⟩
  simp

/-- Everything the second half of a load can do when it answers. -/
theorem loadFrom_next {dr : Reg} {ea : Word} {s t : State} (h : loadFrom dr ea s = .next t) :
    Permitted s.cfg ea ∧
      t = writeResult dr (readValue s ea) (s.setInQ (queueAfterRead s.inQ ea)) := by
  unfold loadFrom at h
  split at h
  · exact absurd h (by simp)
  · next v s1 hr =>
    obtain ⟨hp, rfl, rfl⟩ := memRead_ok hr
    exact ⟨hp, by simpa using h.symm⟩

/-- Everything the second half of a load can do when it faults. -/
theorem loadFrom_fault {dr : Reg} {ea : Word} {s : State} {f : Fault} (h : loadFrom dr ea s = .fault f) :
    permOK s.cfg (ea.toNat : Int) = false ∧ f = accessFault (ea.toNat : Int) s := by
  unfold loadFrom at h
  split at h
  · next g hr => cases h; exact memRead_error hr
  · exact absurd h (by simp)

/-- Everything the second half of a store can do when it answers. -/
theorem storeTo_next {ea v : Word} {s t : State} (h : storeTo ea v s = .next t) :
    permOK s.cfg (ea.toNat : Int) = true ∧
      ((ea = 0xFE06#16 ∧ t = s.setOutLog (s.outLog ++ [v])) ∨
        (ea ≠ 0xFE06#16 ∧ t = s.setMem (s.mem.write ea.toNat v))) := by
  unfold storeTo at h
  split at h
  · exact absurd h (by simp)
  · next s1 hw =>
    cases h
    obtain ⟨hp, h1⟩ := memWrite_ok hw
    refine ⟨hp, ?_⟩
    simp only [← BitVec.toNat_inj, ne_eq]
    rcases h1 with ⟨ha, ht⟩ | ⟨ha, ht⟩
    · exact Or.inl ⟨by simp; omega, ht⟩
    · exact Or.inr ⟨by simp; omega, by simpa using ht⟩

/-- Everything the second half of a store can do when it faults. -/
theorem storeTo_fault {ea v : Word} {s : State} {f : Fault} (h : storeTo ea v s = .fault f) :
    permOK s.cfg (ea.toNat : Int) = false ∧ f = accessFault (ea.toNat : Int) s := by
  unfold storeTo at h
  split at h
  · next g hw => cases h; exact memWrite_error hw
  · exact absurd h (by simp)

/-! Traps. -/

/-- No address of a list is refused exactly when all are permitted. -/
theorem firstDenied_none {cfg : Config} {as : List Word} (h : firstDenied cfg as = none) {a : Word}
    (ha : a ∈ as) : permOK cfg (a.toNat : Int) = true := by
  unfold firstDenied at h
  have := List.find?_eq_none.mp h a ha
  simpa using this

/-- A refused address of a list is one of the list and fails the test. -/
theorem firstDenied_some {cfg : Config} {as : List Word} {a : Word} (h : firstDenied cfg as = some a) :
    a ∈ as ∧ permOK cfg (a.toNat : Int) = false := by
  unfold firstDenied at h
  refine ⟨List.mem_of_find?_eq_some h, ?_⟩
  have := List.find?_some h
  simpa using this

/-- A permitted write changes neither what the permission test reads nor anything but memory or log. -/
theorem memWrite_frame {a : Int} {v : Word} {s t : State} (h : memWrite a v s = .ok t) :
    ∃ m o, t = (s.setMem m).setOutLog o := by
  rcases (memWrite_ok h).2 with ⟨_, rfl⟩ | ⟨_, rfl⟩
  · exact ⟨s.mem, _, rfl⟩
  · exact ⟨s.mem.write a.toNat v, s.outLog, rfl⟩

/-- Everything a trap entry can do when it answers: three permitted accesses, then the register writes. -/
theorem trapEntry_next {vect : BitVec 8} {s t : State} (h : trapEntry vect s = .next t) :
    ∃ s1 s2 target,
      memWrite ((trapStack s - 1).toNat : Int) s.pc s = .ok s1 ∧
      memWrite ((trapStack s - 2).toNat : Int) (statusWord s.mode) s1 = .ok s2 ∧
      memRead ((trapTableEntry vect).toNat : Int) s2 = .ok (target, s2) ∧
      t = enterSupervisor (trapStack s - 2) target s2 := by
  unfold trapEntry at h
  split at h
  · exact absurd h (by simp)
  · split at h
    · exact absurd h (by simp)
    · next s1 h1 =>
      split at h
      · exact absurd h (by simp)
      · next s2 h2 =>
        split at h
        · exact absurd h (by simp)
        · next target s3 h3 =>
          cases h
          have hq : s3 = s2 := by
            obtain ⟨-, -, e⟩ := memRead_ok h3
            rw [e]
            have hv := vect.isLt
            have : trapTableEntry vect ≠ 0xFE02#16 := by
              unfold trapTableEntry zext
              intro hc
              have := congrArg BitVec.toNat hc
              simp at this
              omega
            rw [queueAfterRead, if_neg this, setInQ_self]
          subst hq
          exact ⟨s1, s3, target, h1, h2, h3, rfl⟩

/-- Everything a trap entry can do when it faults: the first refused address, with the state as it was. -/
theorem trapEntry_fault {vect : BitVec 8} {s : State} {f : Fault} (h : trapEntry vect s = .fault f) :
    ∃ a, firstDenied s.cfg [trapStack s - 1, trapStack s - 2, trapTableEntry vect] = some a ∧
      f = accessFault (a.toNat : Int) s := by
  unfold trapEntry at h
  split at h
  · next a ha => cases h; exact ⟨a, ha, rfl⟩
  · next hn =>
    exfalso
    have p1 := firstDenied_none hn (a := trapStack s - 1) (by simp)
    have p2 := firstDenied_none hn (a := trapStack s - 2) (by simp)
    have p3 := firstDenied_none hn (a := trapTableEntry vect) (by simp)
    split at h
    · next g h1 => rw [(memWrite_error h1).1] at p1; exact absurd p1 (by simp)
    · next s1 h1 =>
      obtain ⟨m1, o1, rfl⟩ := memWrite_frame h1
      split at h
      · next g h2 => have := (memWrite_error h2).1; rw [State.setOutLog_cfg, State.setMem_cfg] at this; rw [this] at p2; exact absurd p2 (by simp)
      · next s2 h2 =>
        obtain ⟨m2, o2, rfl⟩ := memWrite_frame h2
        split at h
        · next g h3 => have := (memRead_error h3).1; simp only [State.setOutLog_cfg, State.setMem_cfg] at this; rw [this] at p3; exact absurd p3 (by simp)
        · exact absurd h (by simp)

/-- Everything a trap return can do when it answers: two permitted reads, then the register writes. -/
theorem trapReturn_next {s t : State} (h : trapReturn s = .next t) :
    ∃ status s1 target s2,
      memRead ((s.reg .r6).toNat : Int) s = .ok (status, s1) ∧
      memRead ((s.reg .r6 + 1).toNat : Int) s1 = .ok (target, s2) ∧
      t = leaveTrap (s.reg .r6 + 2) status target s2 := by
  unfold trapReturn at h
  split at h
  · exact absurd h (by simp)
  · split at h
    · exact absurd h (by simp)
    · next status s1 h1 =>
      split at h
      · exact absurd h (by simp)
      · next target s2 h2 => cases h; exact ⟨status, s1, target, s2, h1, h2, rfl⟩

/-- Everything a trap return can do when it faults: the first refused address, with the state as it was. -/
theorem trapReturn_fault {s : State} {f : Fault} (h : trapReturn s = .fault f) :
    ∃ a, firstDenied s.cfg [s.reg .r6, s.reg .r6 + 1] = some a ∧ f = accessFault (a.toNat : Int) s := by
  unfold trapReturn at h
  split at h
  · next a ha => cases h; exact ⟨a, ha, rfl⟩
  · next hn =>
    exfalso
    have p1 := firstDenied_none hn (a := s.reg .r6) (by simp)
    have p2 := firstDenied_none hn (a := s.reg .r6 + 1) (by simp)
    split at h
    · next g h1 => rw [(memRead_error h1).1] at p1; exact absurd p1 (by simp)
    · next status s1 h1 =>
      obtain ⟨-, -, rfl⟩ := memRead_ok h1
      split at h
      · next g h2 => have := (memRead_error h2).1; rw [State.setInQ_cfg] at this; rw [this] at p2; exact absurd p2 (by simp)
      · exact absurd h (by simp)

end Sys2Proof.Machine
end

