-- ==== Sys2Proof/Laws/Loader.lean ====
section
/-! SUPPORT. The loader as one list of writes: its two nested loops say no more than the writes of
`imageWrites`, performed in order until one is refused. -/

namespace Sys2Proof.Machine

/-- A list of writes through the MAC, in order, up to the first refused one. -/
def performWrites (ws : List (Nat × Word)) (s : State) : Except Fault State :=
  match ws with
  | [] => .ok s
  | (a, v) :: rest =>
    match memWrite (a : Int) v s with
    | .error f => .error f
    | .ok s1 => performWrites rest s1

theorem performWrites_append (xs ys : List (Nat × Word)) (s : State) :
    performWrites (xs ++ ys) s =
      match performWrites xs s with
      | .error f => .error f
      | .ok s1 => performWrites ys s1 := by
  induction xs generalizing s with
  | nil => rfl
  | cons e xs ih =>
    obtain ⟨a, v⟩ := e
    simp only [List.cons_append, performWrites]
    cases memWrite (a : Int) v s with
    | error f => rfl
    | ok s1 => exact ih s1

/-- The writes of one segment. -/
theorem loadWords_eq (a : Nat) (data : List Word) (s : State) :
    loadWords a data s = performWrites ((List.range' a data.length).zip data) s := by
  induction data generalizing a s with
  | nil => rfl
  | cons v rest ih =>
    simp only [List.length_cons, List.range'_succ, List.zip_cons_cons, loadWords, performWrites]
    cases memWrite (a : Int) v s with
    | error f => rfl
    | ok s1 => exact ih (a + 1) s1

/-- The writes of all segments. -/
theorem loadSegments_eq (segs : List Segment) (s : State) :
    loadSegments segs s = performWrites (imageWrites segs) s := by
  induction segs generalizing s with
  | nil => rfl
  | cons g rest ih =>
    rw [show imageWrites (g :: rest) =
      (List.range' g.start.toNat g.data.length).zip g.data ++ imageWrites rest from rfl,
      performWrites_append, ← loadWords_eq, loadSegments]
    cases loadWords g.start.toNat g.data s with
    | error f => rfl
    | ok s1 => exact ih s1

/-- A permitted write, whether it goes to a word or to the output log, and what it keeps. -/
theorem memWrite_nat_ok {a : Nat} {v : Word} {s t : State} (h : memWrite (a : Int) v s = .ok t) :
    t = if a = 0xFE06 then s.setOutLog (s.outLog ++ [v]) else s.setMem (s.mem.write a v) := by
  rcases (memWrite_ok h).2 with ⟨ha, rfl⟩ | ⟨ha, rfl⟩
  · rw [if_pos (by omega)]
  · rw [if_neg (by omega)]; rfl

end Sys2Proof.Machine
end

