-- ==== Sys2Proof/Laws/PerInstr.lean ====
section
/-! SUPPORT. Statements for all instructions, made per instruction. -/

/-- The canonical word of an instruction carries the fixed bits of its row of spec/opcode_table.json. -/
def Sys2Proof.Laws.EncodeMatchesRow.Statement (i : Sys2Proof.Instr) : Prop :=
  Sys2Proof.encode i &&& i.row.mask = i.row.pattern

namespace Sys2Proof.Laws

/-- A word whose bits agree with a mask and pattern bit by bit matches them. -/
theorem and_eq_of_bits {w m p : Word} (h : ∀ k, k < 16 → (w.getLsbD k && m.getLsbD k) = p.getLsbD k) :
    w &&& m = p := by
  refine BitVec.eq_of_getLsbD_eq fun k hk => ?_
  rw [BitVec.getLsbD_and]
  exact h k hk

theorem EncodeMatchesRow.br (n z p : Bool) (o : BitVec 9) : EncodeMatchesRow.Statement (.br n z p o) :=
  and_eq_of_bits fun k hk => by
    unfold encode operandBits; simp only [BitVec.getLsbD_or, getLsbD_place]
    interval_cases k <;> simp [Instr.row, Instr.opcode, opcodeBits, opcodeMap]

theorem EncodeMatchesRow.addReg (a b c : Reg) : EncodeMatchesRow.Statement (.addReg a b c) :=
  and_eq_of_bits fun k hk => by
    unfold encode operandBits; simp only [BitVec.getLsbD_or, getLsbD_place]
    interval_cases k <;> simp [Instr.row, Instr.opcode, opcodeBits, opcodeMap]

theorem EncodeMatchesRow.addImm (a b : Reg) (c : BitVec 5) : EncodeMatchesRow.Statement (.addImm a b c) :=
  and_eq_of_bits fun k hk => by
    unfold encode operandBits; simp only [BitVec.getLsbD_or, getLsbD_place]
    interval_cases k <;> simp [Instr.row, Instr.opcode, opcodeBits, opcodeMap]

theorem EncodeMatchesRow.ld (a : Reg) (o : BitVec 9) : EncodeMatchesRow.Statement (.ld a o) :=
  and_eq_of_bits fun k hk => by
    unfold encode operandBits; simp only [BitVec.getLsbD_or, getLsbD_place]
    interval_cases k <;> simp [Instr.row, Instr.opcode, opcodeBits, opcodeMap]

theorem EncodeMatchesRow.st (a : Reg) (o : BitVec 9) : EncodeMatchesRow.Statement (.st a o) :=
  and_eq_of_bits fun k hk => by
    unfold encode operandBits; simp only [BitVec.getLsbD_or, getLsbD_place]
    interval_cases k <;> simp [Instr.row, Instr.opcode, opcodeBits, opcodeMap]

theorem EncodeMatchesRow.jsr (o : BitVec 11) : EncodeMatchesRow.Statement (.jsr o) :=
  and_eq_of_bits fun k hk => by
    unfold encode operandBits; simp only [BitVec.getLsbD_or, getLsbD_place]
    interval_cases k <;> simp [Instr.row, Instr.opcode, opcodeBits, opcodeMap]

theorem EncodeMatchesRow.jsrr (a : Reg) : EncodeMatchesRow.Statement (.jsrr a) :=
  and_eq_of_bits fun k hk => by
    unfold encode operandBits; simp only [BitVec.getLsbD_or, getLsbD_place]
    interval_cases k <;> simp [Instr.row, Instr.opcode, opcodeBits, opcodeMap]

theorem EncodeMatchesRow.andReg (a b c : Reg) : EncodeMatchesRow.Statement (.andReg a b c) :=
  and_eq_of_bits fun k hk => by
    unfold encode operandBits; simp only [BitVec.getLsbD_or, getLsbD_place]
    interval_cases k <;> simp [Instr.row, Instr.opcode, opcodeBits, opcodeMap]

theorem EncodeMatchesRow.andImm (a b : Reg) (c : BitVec 5) : EncodeMatchesRow.Statement (.andImm a b c) :=
  and_eq_of_bits fun k hk => by
    unfold encode operandBits; simp only [BitVec.getLsbD_or, getLsbD_place]
    interval_cases k <;> simp [Instr.row, Instr.opcode, opcodeBits, opcodeMap]

theorem EncodeMatchesRow.ldr (a b : Reg) (o : BitVec 6) : EncodeMatchesRow.Statement (.ldr a b o) :=
  and_eq_of_bits fun k hk => by
    unfold encode operandBits; simp only [BitVec.getLsbD_or, getLsbD_place]
    interval_cases k <;> simp [Instr.row, Instr.opcode, opcodeBits, opcodeMap]

theorem EncodeMatchesRow.str (a b : Reg) (o : BitVec 6) : EncodeMatchesRow.Statement (.str a b o) :=
  and_eq_of_bits fun k hk => by
    unfold encode operandBits; simp only [BitVec.getLsbD_or, getLsbD_place]
    interval_cases k <;> simp [Instr.row, Instr.opcode, opcodeBits, opcodeMap]

theorem EncodeMatchesRow.rti : EncodeMatchesRow.Statement (.rti) :=
  and_eq_of_bits fun k hk => by
    unfold encode operandBits; simp only [BitVec.getLsbD_or, getLsbD_place]
    interval_cases k <;> simp [Instr.row, Instr.opcode, opcodeBits, opcodeMap]

theorem EncodeMatchesRow.not (a b : Reg) : EncodeMatchesRow.Statement (.not a b) :=
  and_eq_of_bits fun k hk => by
    unfold encode operandBits; simp only [BitVec.getLsbD_or, getLsbD_place]
    interval_cases k <;> simp [Instr.row, Instr.opcode, opcodeBits, opcodeMap]

theorem EncodeMatchesRow.ldi (a : Reg) (o : BitVec 9) : EncodeMatchesRow.Statement (.ldi a o) :=
  and_eq_of_bits fun k hk => by
    unfold encode operandBits; simp only [BitVec.getLsbD_or, getLsbD_place]
    interval_cases k <;> simp [Instr.row, Instr.opcode, opcodeBits, opcodeMap]

theorem EncodeMatchesRow.sti (a : Reg) (o : BitVec 9) : EncodeMatchesRow.Statement (.sti a o) :=
  and_eq_of_bits fun k hk => by
    unfold encode operandBits; simp only [BitVec.getLsbD_or, getLsbD_place]
    interval_cases k <;> simp [Instr.row, Instr.opcode, opcodeBits, opcodeMap]

theorem EncodeMatchesRow.jmp (a : Reg) : EncodeMatchesRow.Statement (.jmp a) :=
  and_eq_of_bits fun k hk => by
    unfold encode operandBits; simp only [BitVec.getLsbD_or, getLsbD_place]
    interval_cases k <;> simp [Instr.row, Instr.opcode, opcodeBits, opcodeMap]

theorem EncodeMatchesRow.reserved (x : BitVec 12) : EncodeMatchesRow.Statement (.reserved x) :=
  and_eq_of_bits fun k hk => by
    unfold encode operandBits; simp only [BitVec.getLsbD_or, getLsbD_place]
    interval_cases k <;> simp [Instr.row, Instr.opcode, opcodeBits, opcodeMap]

theorem EncodeMatchesRow.lea (a : Reg) (o : BitVec 9) : EncodeMatchesRow.Statement (.lea a o) :=
  and_eq_of_bits fun k hk => by
    unfold encode operandBits; simp only [BitVec.getLsbD_or, getLsbD_place]
    interval_cases k <;> simp [Instr.row, Instr.opcode, opcodeBits, opcodeMap]

theorem EncodeMatchesRow.trap (v : BitVec 8) : EncodeMatchesRow.Statement (.trap v) :=
  and_eq_of_bits fun k hk => by
    unfold encode operandBits; simp only [BitVec.getLsbD_or, getLsbD_place]
    interval_cases k <;> simp [Instr.row, Instr.opcode, opcodeBits, opcodeMap]

end Sys2Proof.Laws
end

