-- ==== Sys2Proof/Laws/Step.lean ====
section
/-! SUPPORT. What a fetch, an instruction and a step can do, each said once: the inversion of the fetch, the
fields no instruction writes, and the one induction every invariant of memory and output log goes
through. -/

namespace Sys2Proof.Machine

/-! The fetch. -/

theorem fetchOK_iff (s : State) : fetchOK s = true ↔ Fetchable s := by
  unfold fetchOK Fetchable userBase deviceBase
  simp

/-- An address of the fetch range is permitted. -/
theorem permitted_of_fetchable {s : State} (h : Fetchable s) : Permitted s.cfg s.pc := by
  unfold Fetchable at h
  unfold Permitted
  rcases h with h | ⟨h1, h2⟩
  · exact Or.inl h
  · exact Or.inr ⟨h1, Or.inl h2⟩

/-- A permitted read, in the terms of the claims. -/
theorem memRead_permitted {a : Word} {s : State} (h : Permitted s.cfg a) :
    memRead (a.toNat : Int) s = .ok (readValue s a, s.setInQ (queueAfterRead s.inQ a)) := by
  obtain ⟨v, t, hr⟩ := memRead_exists h
  obtain ⟨-, rfl, rfl⟩ := memRead_ok hr
  exact hr

/-- The state after the fetch of a word. -/
def fetched (s : State) : State :=
  ((s.setInQ (queueAfterRead s.inQ s.pc)).setIr (readValue s s.pc)).setPc (s.pc + 1)

/-- Everything a fetch inside the range does. -/
theorem fetch_ok {s : State} (h : Fetchable s) : fetch s = .ok (fetched s) := by
  unfold fetch
  rw [if_pos ((fetchOK_iff s).mpr h), memRead_permitted (permitted_of_fetchable h)]
  rfl

/-- Everything a fetch outside the range does. -/
theorem fetch_error {s : State} (h : ¬ Fetchable s) : fetch s = .error (.outOfBounds s.pc s) := by
  unfold fetch
  rw [if_neg (fun e => h ((fetchOK_iff s).mp e))]

/-- Everything a step can do. -/
theorem step_cases (s : State) :
    (s.halted = true ∧ step s = .next s) ∨
    (s.halted = false ∧ ¬ Fetchable s ∧ step s = .fault (.outOfBounds s.pc s)) ∨
    (s.halted = false ∧ Fetchable s ∧ step s = exec (decode (readValue s s.pc)) (fetched s)) := by
  unfold step cycle
  by_cases hh : s.halted = true
  · exact Or.inl ⟨hh, by rw [if_pos hh]⟩
  · rw [if_neg hh]
    have hf : s.halted = false := by simpa using hh
    by_cases h : Fetchable s
    · exact Or.inr (Or.inr ⟨hf, h, by rw [fetch_ok h]; rfl⟩)
    · exact Or.inr (Or.inl ⟨hf, h, by rw [fetch_error h]⟩)

/-! Instructions. -/

/-- What a write leaves alone. -/
theorem memWrite_same {a : Int} {v : Word} {s t : State} (h : memWrite a v s = .ok t) :
    t.cfg = s.cfg ∧ t.regs = s.regs ∧ t.pc = s.pc ∧ t.ir = s.ir ∧ t.cc = s.cc ∧ t.mode = s.mode ∧
      t.savedUSP = s.savedUSP ∧ t.savedSSP = s.savedSSP ∧ t.inQ = s.inQ ∧ t.halted = s.halted ∧
      t.budget = s.budget ∧ t.timer = s.timer ∧ t.diag = s.diag := by
  obtain ⟨m, o, rfl⟩ := memWrite_frame h
  exact ⟨rfl, rfl, rfl, rfl, rfl, rfl, rfl, rfl, rfl, rfl, rfl, rfl, rfl⟩

/-- Everything LDI can do when it answers: a read of the pointer, then a load at it. -/
theorem execLdi_next {dr : Reg} {off : BitVec 9} {s t : State} (h : execLdi dr off s = .next t) :
    Permitted s.cfg (pcRelative s off) ∧
      loadFrom dr (readValue s (pcRelative s off))
        (s.setInQ (queueAfterRead s.inQ (pcRelative s off))) = .next t := by
  unfold execLdi at h
  split at h
  · exact absurd h (by simp)
  · next p s1 hr =>
    obtain ⟨hp, rfl, rfl⟩ := memRead_ok hr
    exact ⟨hp, h⟩

/-- Everything STI can do when it answers: a read of the pointer, then a store at it. -/
theorem execSti_next {sr : Reg} {off : BitVec 9} {s t : State} (h : execSti sr off s = .next t) :
    Permitted s.cfg (pcRelative s off) ∧
      storeTo (readValue s (pcRelative s off)) (s.reg sr)
        (s.setInQ (queueAfterRead s.inQ (pcRelative s off))) = .next t := by
  unfold execSti at h
  split at h
  · exact absurd h (by simp)
  · next p s1 hr =>
    obtain ⟨hp, rfl, rfl⟩ := memRead_ok hr
    exact ⟨hp, h⟩

/-- An accepted store writes through the MAC and does nothing else. -/
theorem memWrite_of_storeTo {ea v : Word} {s t : State} (h : storeTo ea v s = .next t) :
    memWrite (ea.toNat : Int) v s = .ok t := by
  unfold storeTo at h
  split at h
  · exact absurd h (by simp)
  · next s1 hw => cases h; exact hw

/-- Whatever every accepted write keeps of memory and output log, a store keeps. -/
theorem storeTo_keeps {c : Config} {P : Memory → List Word → Prop}
    (hP : ∀ (s t : State) (a v : Word), s.cfg = c → memWrite (a.toNat : Int) v s = .ok t →
      P s.mem s.outLog → P t.mem t.outLog)
    {ea v : Word} {s t : State} (hc : s.cfg = c) (h : storeTo ea v s = .next t)
    (hs : P s.mem s.outLog) : P t.mem t.outLog :=
  hP s t ea v hc (memWrite_of_storeTo h) hs

/-- Whatever every accepted write keeps of memory and output log, a trap entry keeps. -/
theorem trapEntry_keeps {c : Config} {P : Memory → List Word → Prop}
    (hP : ∀ (s t : State) (a v : Word), s.cfg = c → memWrite (a.toNat : Int) v s = .ok t →
      P s.mem s.outLog → P t.mem t.outLog)
    {vect : BitVec 8} {s t : State} (hc : s.cfg = c) (h : trapEntry vect s = .next t)
    (hs : P s.mem s.outLog) : P t.mem t.outLog := by
  obtain ⟨s1, s2, target, h1, h2, -, rfl⟩ := trapEntry_next h
  exact hP s1 s2 _ _ ((memWrite_same h1).1.trans hc) h2 (hP s s1 _ _ hc h1 hs)

/-- Whatever every accepted write keeps of memory and output log, every instruction keeps. -/
theorem exec_keeps {c : Config} {P : Memory → List Word → Prop}
    (hP : ∀ (s t : State) (a v : Word), s.cfg = c → memWrite (a.toNat : Int) v s = .ok t →
      P s.mem s.outLog → P t.mem t.outLog)
    {i : Instr} {s t : State} (hc : s.cfg = c) (h : exec i s = .next t)
    (hs : P s.mem s.outLog) : P t.mem t.outLog := by
  cases i with
  | br n z p off =>
    change execBr n z p off s = _ at h; unfold execBr at h; cases h
    split <;> exact hs
  | addReg dr sr1 sr2 => cases h; exact hs
  | addImm dr sr1 imm => cases h; exact hs
  | andReg dr sr1 sr2 => cases h; exact hs
  | andImm dr sr1 imm => cases h; exact hs
  | not dr sr => cases h; exact hs
  | lea dr off => cases h; exact hs
  | jsr off => cases h; exact hs
  | jsrr b => cases h; exact hs
  | jmp b => cases h; exact hs
  | ld dr off => obtain ⟨-, rfl⟩ := loadFrom_next h; exact hs
  | ldr dr b off => obtain ⟨-, rfl⟩ := loadFrom_next h; exact hs
  | ldi dr off => obtain ⟨-, rfl⟩ := loadFrom_next (execLdi_next h).2; exact hs
  | st sr off => exact storeTo_keeps hP hc h hs
  | str sr b off => exact storeTo_keeps hP hc h hs
  | sti sr off =>
    exact storeTo_keeps hP (s := s.setInQ (queueAfterRead s.inQ (pcRelative s off))) hc
      (execSti_next h).2 hs
  | trap v =>
    change execTrap v s = _ at h; unfold execTrap at h
    split at h
    · cases h; exact hs
    · exact trapEntry_keeps hP hc h hs
  | rti =>
    obtain ⟨status, s1, target, s2, h1, h2, rfl⟩ := trapReturn_next h
    obtain ⟨-, rfl, rfl⟩ := memRead_ok h1
    obtain ⟨-, rfl, rfl⟩ := memRead_ok h2
    simpa using hs
  | reserved any => exact absurd h (by simp [exec, execReserved])

/-- Whatever every accepted write keeps of memory and output log, every step keeps. -/
theorem step_keeps {c : Config} {P : Memory → List Word → Prop}
    (hP : ∀ (s t : State) (a v : Word), s.cfg = c → memWrite (a.toNat : Int) v s = .ok t →
      P s.mem s.outLog → P t.mem t.outLog)
    {s t : State} (hc : s.cfg = c) (h : step s = .next t) (hs : P s.mem s.outLog) :
    P t.mem t.outLog := by
  rcases step_cases s with ⟨-, e⟩ | ⟨-, -, e⟩ | ⟨-, -, e⟩ <;> rw [e] at h
  · cases h; exact hs
  · exact absurd h (by simp)
  · exact exec_keeps hP (s := fetched s) hc h hs

/-- Every accepted write keeps the canonical form. -/
theorem memWrite_wf {a v : Word} {s t : State} (h : memWrite (a.toNat : Int) v s = .ok t)
    (hs : s.mem.wf = true) : t.mem.wf = true := by
  rcases (memWrite_ok h).2 with ⟨-, rfl⟩ | ⟨-, rfl⟩
  · exact hs
  · exact Memory.wf_write hs (by simpa [memWords] using a.isLt) v

/-- Every accepted read keeps the canonical form. -/
theorem memRead_wf {a v : Word} {s t : State} (h : memRead (a.toNat : Int) s = .ok (v, t))
    (hs : s.mem.wf = true) : t.mem.wf = true := by
  obtain ⟨-, -, rfl⟩ := memRead_ok h; exact hs

/-- The configuration, IR, the budget and the timer are written by no instruction. -/
theorem exec_next_same {i : Instr} {s t : State} (h : exec i s = .next t) :
    t.cfg = s.cfg ∧ t.ir = s.ir ∧ t.budget = s.budget ∧ t.timer = s.timer := by
  cases i with
  | br n z p off =>
    change execBr n z p off s = _ at h; unfold execBr at h; cases h
    split <;> exact ⟨rfl, rfl, rfl, rfl⟩
  | addReg dr sr1 sr2 => cases h; exact ⟨rfl, rfl, rfl, rfl⟩
  | addImm dr sr1 imm => cases h; exact ⟨rfl, rfl, rfl, rfl⟩
  | andReg dr sr1 sr2 => cases h; exact ⟨rfl, rfl, rfl, rfl⟩
  | andImm dr sr1 imm => cases h; exact ⟨rfl, rfl, rfl, rfl⟩
  | not dr sr => cases h; exact ⟨rfl, rfl, rfl, rfl⟩
  | lea dr off => cases h; exact ⟨rfl, rfl, rfl, rfl⟩
  | jsr off => cases h; exact ⟨rfl, rfl, rfl, rfl⟩
  | jsrr b => cases h; exact ⟨rfl, rfl, rfl, rfl⟩
  | jmp b => cases h; exact ⟨rfl, rfl, rfl, rfl⟩
  | ld dr off => obtain ⟨-, rfl⟩ := loadFrom_next h; exact ⟨rfl, rfl, rfl, rfl⟩
  | ldr dr b off => obtain ⟨-, rfl⟩ := loadFrom_next h; exact ⟨rfl, rfl, rfl, rfl⟩
  | ldi dr off => obtain ⟨-, rfl⟩ := loadFrom_next (execLdi_next h).2; exact ⟨rfl, rfl, rfl, rfl⟩
  | st sr off => have := memWrite_same (memWrite_of_storeTo h); simp [this]
  | str sr b off => have := memWrite_same (memWrite_of_storeTo h); simp [this]
  | sti sr off => have := memWrite_same (memWrite_of_storeTo (execSti_next h).2); simp [this]
  | trap v =>
    change execTrap v s = _ at h; unfold execTrap at h
    split at h
    · cases h; exact ⟨rfl, rfl, rfl, rfl⟩
    · obtain ⟨s1, s2, target, h1, h2, -, rfl⟩ := trapEntry_next h
      have a := memWrite_same h1
      have b := memWrite_same h2
      simp [a, b]
  | rti =>
    obtain ⟨status, s1, target, s2, h1, h2, rfl⟩ := trapReturn_next h
    obtain ⟨-, rfl, rfl⟩ := memRead_ok h1
    obtain ⟨-, rfl, rfl⟩ := memRead_ok h2
    simp
  | reserved any => exact absurd h (by simp [exec, execReserved])

/-! The shared operations are never refused. -/

theorem loadFrom_not_refused (dr : Reg) (ea : Word) (s : State) (r : Refusal) :
    loadFrom dr ea s ≠ .refused r := by
  unfold loadFrom; split <;> simp

theorem storeTo_not_refused (ea v : Word) (s : State) (r : Refusal) :
    storeTo ea v s ≠ .refused r := by
  unfold storeTo; split <;> simp

theorem trapEntry_not_refused (vect : BitVec 8) (s : State) (r : Refusal) :
    trapEntry vect s ≠ .refused r := by
  unfold trapEntry; repeat (first | (split) | simp)

theorem trapReturn_not_refused (s : State) (r : Refusal) : trapReturn s ≠ .refused r := by
  unfold trapReturn; repeat (first | (split) | simp)

end Sys2Proof.Machine
end

