-- ==== Sys2Proof/Tests/Slice0.lean ====
section
/-! SUPPORT. The model's own tests. Expected results are those of spec/95_test_vectors.md, named in the
comments, or are read off the spec's tables; the `witness_` theorems show that the hypotheses of the
statements can be met. -/

namespace Sys2Proof.Tests

open Sys2Proof Sys2Proof.Machine

/-! Helpers. -/

/-- The next state of an outcome. -/
def nextOf (o : Host.Outcome State Fault Refusal) : Option State :=
  match o with
  | .next t => some t
  | .fault _ => none
  | .refused _ => none

/-- The fault of an outcome. -/
def faultOf (o : Host.Outcome State Fault Refusal) : Option Fault :=
  match o with
  | .next _ => none
  | .fault f => some f
  | .refused _ => none

/-- The state an outcome leaves. -/
def leftBy (o : Host.Outcome State Fault Refusal) : State :=
  match o with
  | .next t => t
  | .fault f => f.left
  | .refused _ => State.reset

/-- The construction state with privilege checks off. -/
def unchecked : State :=
  State.construct { standardConfig with ignorePrivilege := true } (fun _ => 0x0000) []

/-- One word put into the memory array. -/
def poke (a v : Word) (s : State) : State := s.setMem (s.mem.write a.toNat v)

/-- One step on a word placed at PC. -/
def stepOn (w : Word) (s : State) : Host.Outcome State Fault Refusal :=
  step (s.withFetchWord 16 w.toNat)

/-- What a step on a word at PC makes of the state, seen through `g`. -/
def after {α : Type} (w : Word) (s : State) (g : State → α) : Option α := (nextOf (stepOn w s)).map g

/-- The AccessViolation of a step on a word at PC: address, PC and IR. -/
def violation (w : Word) (s : State) : Option (Int × Word × Word) :=
  match stepOn w s with
  | .fault (.accessViolation a pc ir _) => some (a, pc, ir)
  | .fault (.unknownInstruction _ _ _) => none
  | .fault (.outOfBounds _ _) => none
  | .fault (.runawayProgram _ _) => none
  | .fault (.malformedImage _ _) => none
  | .next _ => none
  | .refused _ => none

/-! WellFormed refuses the reserved opcode and nothing else (rule R87). -/

theorem test_wellFormed_refuses_reserved : (Instr.reserved 0x123).wellFormed = false := by decide

theorem test_wellFormed_accepts_legal :
    (Instr.br false false false 0x1FF).wellFormed = true ∧ (Instr.trap 0xFF).wellFormed = true := by decide

/-! Decoding: words written out from rules R83 and R86. -/

-- 0000 nzp offset9
theorem test_decode_br : decode 0b0000_010_000000010 = .br false true false 0x002 := by decide
-- 0001 dr sr1 0 00 sr2, 0001 dr sr1 1 imm5; bits 4:3 of the register form are not read (D4)
theorem test_decode_addReg : decode 0b0001_000_001_0_00_010 = .addReg .r0 .r1 .r2 := by decide
theorem test_decode_addReg_unused : decode 0b0001_000_001_0_11_000 = .addReg .r0 .r1 .r0 := by decide
theorem test_decode_addImm : decode 0b0001_001_001_1_11111 = .addImm .r1 .r1 0x1F := by decide
-- 0101
theorem test_decode_andReg : decode 0b0101_001_010_0_00_011 = .andReg .r1 .r2 .r3 := by decide
theorem test_decode_andImm : decode 0b0101_000_000_1_00000 = .andImm .r0 .r0 0x00 := by decide
-- 1001 dr sr 111111; bits 5:0 are not read (D4)
theorem test_decode_not : decode 0b1001_001_000_111111 = .not .r1 .r0 := by decide
theorem test_decode_not_unused : decode 0b1001_001_000_000000 = .not .r1 .r0 := by decide
-- 0010, 1010, 1110 dr offset9
theorem test_decode_ld : decode 0b0010_001_000000010 = .ld .r1 0x002 := by decide
theorem test_decode_ldi : decode 0b1010_010_000000001 = .ldi .r2 0x001 := by decide
theorem test_decode_lea : decode 0b1110_011_111111101 = .lea .r3 0x1FD := by decide
-- 0110 dr base offset6
theorem test_decode_ldr : decode 0b0110_000_001_111111 = .ldr .r0 .r1 0x3F := by decide
-- 0011, 1011 sr offset9; 0111 sr base offset6
theorem test_decode_st : decode 0b0011_000_000000101 = .st .r0 0x005 := by decide
theorem test_decode_sti : decode 0b1011_000_000000010 = .sti .r0 0x002 := by decide
theorem test_decode_str : decode 0b0111_100_101_000011 = .str .r4 .r5 0x03 := by decide
-- 0100 1 offset11; 0100 0 00 base 000000; 1100 000 base 000000
theorem test_decode_jsr : decode 0b0100_1_00000000011 = .jsr 0x003 := by decide
theorem test_decode_jsrr : decode 0b0100_0_00_010_000000 = .jsrr .r2 := by decide
theorem test_decode_jmp : decode 0b1100_000_111_000000 = .jmp .r7 := by decide
-- 1111 0000 vector; 1000 000000000000; 1101 reserved
theorem test_decode_trap : decode 0b1111_0000_00100000 = .trap 0x20 := by decide
theorem test_decode_rti : decode 0b1000_000000000000 = .rti := by decide
theorem test_decode_reserved : decode 0b1101_000100100011 = .reserved 0x123 := by decide

/-- The host's entry: a row's bits, numbered as the table numbers them. -/
theorem test_decodeTableWord : decodeTableWord 16 0x1042 = some (.addReg .r0 .r1 .r2) := by decide

/-- The first instruction after reset is the word the host places. -/
theorem test_withFetchWord_runs : after 0x1021 State.reset (fun t => (t.reg .r0, t.pc)) =
    some (0x0001, 0x3001) := by decide

/-! One step on a small state. -/

-- Part 2 §3, mask 010
theorem test_br_taken : after 0x0402 State.reset (fun t => t.pc) = some 0x3003 := by decide
-- S4
theorem test_br_not_taken : after 0x0402 (State.reset.setCc .N) (fun t => t.pc) = some 0x3001 := by decide
-- §4: ADD R1, R1, R1
theorem test_addReg_doubles : after 0x1241 (State.reset.setReg .r1 0xFFFF) (fun t => (t.reg .r1, t.cc)) =
    some (0xFFFE, .N) := by decide
-- S2
theorem test_addImm_wraps : after 0x1021 (State.reset.setReg .r0 0xFFFF) (fun t => (t.reg .r0, t.cc, t.pc)) =
    some (0x0000, .Z, 0x3001) := by decide
-- §4: ADD R0, R0, #-16
theorem test_addImm_negative : after 0x1030 (State.reset.setReg .r0 0x0010) (fun t => (t.reg .r0, t.cc)) =
    some (0x0000, .Z) := by decide
-- §4: AND R1, R2, R3
theorem test_andReg : after 0x5283 ((State.reset.setReg .r2 0x00F0).setReg .r3 0x0F3C)
    (fun t => (t.reg .r1, t.cc)) = some (0x0030, .P) := by decide
-- §4: AND R2, R1, #-1 and AND R2, R1, #15
theorem test_andImm_negative : after 0x547F (State.reset.setReg .r1 0x1234) (fun t => (t.reg .r2, t.cc)) =
    some (0x1234, .P) := by decide
theorem test_andImm_positive : after 0x546F (State.reset.setReg .r1 0x1234) (fun t => (t.reg .r2, t.cc)) =
    some (0x0004, .P) := by decide
-- §4: NOT R1, R0 with bits 5:0 = 000000
theorem test_not : after 0x9200 (State.reset.setReg .r0 0x00FF) (fun t => (t.reg .r1, t.cc)) =
    some (0xFF00, .N) := by decide
-- L1, L2
theorem test_ld : after 0x2202 (poke 0x3003 0x8001 State.reset) (fun t => (t.reg .r1, t.cc)) =
    some (0x8001, .N) := by decide
theorem test_ld_denied : violation 0x21FE State.reset = some (0x2FFF, 0x3001, 0x21FE) := by decide
-- L3, L5
theorem test_ldr_keyboard : after 0x6240 ((State.reset.setReg .r1 0xFE02).setInQ [0x41, 0x42])
    (fun t => (t.reg .r1, t.cc, t.inQ)) = some (0x0041, .P, [0x42]) := by decide
theorem test_ldr_negative : after 0x607F ((poke 0x4001 0x0009 State.reset).setReg .r1 0x4001)
    (fun t => (t.reg .r0, t.cc)) = some (0x0000, .Z) := by decide
-- L8, L7
theorem test_ldi_keyboard : after 0xA003 ((poke 0x3004 0xFE02 State.reset).setInQ [0x2000])
    (fun t => (t.reg .r0, t.cc, t.inQ)) = some (0x2000, .P, []) := by decide
theorem test_ldi_second_denied :
    violation 0xA003 ((State.reset.setPc 0xFDFE).setInQ [0x2000]) = some (0x2000, 0xFDFF, 0xA003) ∧
    (leftBy (stepOn 0xA003 ((State.reset.setPc 0xFDFE).setInQ [0x2000]))).inQ = [] := by decide
-- L10
theorem test_lea : after 0xE100 (State.reset.setCc .N) (fun t => (t.reg .r0, t.cc)) =
    some (0x2F01, .N) := by decide
-- W1, W8
theorem test_st : after 0x3005 (State.reset.setReg .r0 0x1234) (fun t => t.mem.read 0x3006) =
    some 0x1234 := by decide
theorem test_st_next_instruction : after 0x3000 ((poke 0x3001 0x1021 State.reset).setReg .r0 0xF025)
    (fun t => (nextOf (step t)).map (fun u => (u.halted, u.pc))) = some (some (true, 0x3002)) := by decide
-- W3, W5
theorem test_str_display : after 0x7240 (State.reset.setReg .r1 0xFE06)
    (fun t => (t.outLog, t.mem.read 0xFE06)) = some ([0xFE06], 0x0000) := by decide
theorem test_str : after 0x7943 ((State.reset.setReg .r4 0x00AA).setReg .r5 0x4000)
    (fun t => t.mem.read 0x4003) = some 0x00AA := by decide
-- W6, W7
theorem test_sti : after 0xB002 ((poke 0x3003 0xFE06 State.reset).setReg .r0 0x0048) (fun t => t.outLog) =
    some [0x0048] := by decide
theorem test_sti_denied : violation 0xB001 (poke 0x3002 0x0100 State.reset) =
    some (0x0100, 0x3001, 0xB001) := by decide
-- J1, J2
theorem test_jsr : after 0x4803 State.reset (fun t => (t.reg .r7, t.pc, t.diag)) =
    some (0x3001, 0x3004, [0x3001]) := by decide
theorem test_jsr_back : after 0x4C00 State.reset (fun t => t.pc) = some 0x2C01 := by decide
-- J3, J4
theorem test_jsrr : after 0x4080 (State.reset.setReg .r2 0x5000) (fun t => (t.reg .r7, t.pc)) =
    some (0x3001, 0x5000) := by decide
theorem test_jsrr_r7 : after 0x41C0 (State.reset.setReg .r7 0x5000) (fun t => (t.reg .r7, t.pc)) =
    some (0x3001, 0x5000) := by decide
-- J5; J6 with an entry to pop
theorem test_jmp : after 0xC080 ((State.reset.setReg .r2 0x3456).setDiag [0x1111])
    (fun t => (t.pc, t.diag)) = some (0x3456, [0x1111]) := by decide
theorem test_ret : after 0xC1C0 ((State.reset.setReg .r7 0x3001).setDiag [0x1111, 0x2222])
    (fun t => (t.pc, t.diag)) = some (0x3001, [0x1111]) := by decide
-- T1, T5
theorem test_halt : after 0xF025 State.reset (fun t => (t.halted, t.pc, t.mode)) =
    some (true, 0x3001, .user) := by decide
theorem test_trap_from_user :
    after 0xF020 (((poke 0x0020 0x1000 unchecked).setReg .r6 0x4000).setPc 0x3001)
      (fun t => (t.savedUSP, t.mem.read 0x2FFF, t.mem.read 0x2FFE, t.reg .r6, t.mode, t.pc)) =
    some (0x4000, 0x3002, 0x8000, 0x2FFE, .supervisor, 0x1000) := by decide
-- T8, T9
theorem test_rti_to_user :
    after 0x8000 (((poke 0x4001 0x3100 (poke 0x4000 0x8000 unchecked)).setReg .r6 0x4000).setSavedUSP 0x5000)
      (fun t => (t.savedSSP, t.reg .r6, t.mode, t.pc)) = some (0x4002, 0x5000, .user, 0x3100) := by decide
theorem test_rti_stays_supervisor :
    after 0x8000 ((poke 0x2FFF 0x0200 (poke 0x2FFE 0x7FFF unchecked)).setMode .supervisor |>.setReg .r6 0x2FFE)
      (fun t => (t.savedSSP, t.reg .r6, t.mode, t.pc)) = some (0x3000, 0x3000, .supervisor, 0x0200) := by
  decide
-- X3
theorem test_reserved : faultOf (stepOn 0xD123 State.reset) =
    some (.unknownInstruction 0xD123 0xD
      (((State.reset.withFetchWord 16 0xD123).setIr 0xD123).setPc 0x3001)) := by decide

/-! The engine, the loader and the notation. -/

-- X6
theorem test_fetch_from_keyboard :
    (nextOf (step ((unchecked.setPc 0xFE02).setInQ [0xF025]))).map (fun t => (t.halted, t.pc, t.inQ)) =
      some (true, 0xFE03, []) := by decide
-- O7, O3
theorem test_load_past_the_top :
    (leftBy (load [0xFFFF, 2, 7, 8] unchecked)).mem = [(0xFFFF, 7)] := by decide
theorem test_load_malformed : faultOf (load [0x3000, 3, 1, 2] State.reset) =
    some (.malformedImage 0 State.reset) := by decide
-- X8
theorem test_run_without_budget :
    faultOf (run (State.construct { standardConfig with executionLimit := 0 } (fun _ => 0x0000) [])) =
      some (.runawayProgram 0x3000
        (State.construct { standardConfig with executionLimit := 0 } (fun _ => 0x0000) [])) := by decide
-- Part 2 §1
theorem test_sext : sext 0x10#5 = 0xFFF0 ∧ sext 0x0F#5 = 0x000F ∧ sext 0x20#6 = 0xFFE0 ∧
    sext 0x1FF#9 = 0xFFFF ∧ sext 0x100#9 = 0xFF00 ∧ sext 0x400#11 = 0xFC00 ∧ sext 0x1#1 = 0xFFFF ∧
    sext 0x4000#15 = 0xC000 := by decide

/-! Witnesses: for every statement with hypotheses, concrete states and operands that meet them, for each
clause at the boundaries of its range. `reset` has privilege checks on, `unchecked` has them off. -/

theorem witness_ReservedPatternIsTheOnlyIllegalEncoding :
    (0xD000 ≤ (0xD000#16).toNat ∧ (0xD000#16).toNat ≤ 0xDFFF) ∧
    (0xD000 ≤ (0xDFFF#16).toNat ∧ (0xDFFF#16).toNat ≤ 0xDFFF) ∧
    exec (decode 0xDFFF) State.reset = .fault (.unknownInstruction 0x0000 0xD State.reset) :=
  ⟨by decide, by decide, rfl⟩

theorem witness_SignExtensionCopiesTheTopBit :
    ((1 ≤ 1 ∧ 1 ≤ 15) ∧ (0 < 1) ∧ (1 ≤ 1 ∧ 1 < 16) ∧ (sext 1#1).toNat = 1 + (0x10000 - 2 ^ 1)) ∧
    ((1 ≤ 15 ∧ 15 ≤ 15) ∧ (14 < 15) ∧ (15 ≤ 15 ∧ 15 < 16) ∧ (sext 0x3FFF#15).toNat = 0x3FFF) := by
  decide

/-- Both sides of each case, with 0x10000 and -1 outside the 16-bit addresses. -/
theorem witness_PermissionTestFailsInThreeCases :
    permOK State.reset.cfg 0x10000 = false ∧ permOK State.reset.cfg (-1) = false ∧
    permOK unchecked.cfg 0x10000 = false ∧ permOK unchecked.cfg (-1) = false ∧
    permOK State.reset.cfg 0x2FFF = false ∧ permOK State.reset.cfg 0xFE01 = false ∧
    permOK State.reset.cfg 0x3000 = true ∧ permOK State.reset.cfg 0xFDFF = true ∧
    permOK State.reset.cfg 0xFE06 = true ∧ permOK unchecked.cfg 0xFFFF = true := by decide

theorem witness_Permitted_boundaries :
    ¬ Permitted State.reset.cfg 0x2FFF ∧ Permitted State.reset.cfg 0x3000 ∧
    Permitted State.reset.cfg 0xFDFF ∧ Permitted State.reset.cfg 0xFE00 ∧
    ¬ Permitted State.reset.cfg 0xFE01 ∧ Permitted State.reset.cfg 0xFE06 ∧
    ¬ Permitted State.reset.cfg 0xFE07 ∧ ¬ Permitted State.reset.cfg 0xFFFF ∧
    Permitted unchecked.cfg 0x0000 ∧ Permitted unchecked.cfg 0xFFFF := by
  unfold Permitted
  refine ⟨?_, ?_, ?_, ?_, ?_, ?_, ?_, ?_, ?_, ?_⟩ <;> decide

theorem witness_MacReadAnswersByAddress :
    ¬ Permitted State.reset.cfg 0x2FFF ∧ Permitted State.reset.cfg 0xFE02 := by
  unfold Permitted; decide

theorem witness_MacWriteChangesOneWordOrTheLog :
    ¬ Permitted State.reset.cfg 0xFE07 ∧ Permitted State.reset.cfg 0xFE06 ∧
    Permitted State.reset.cfg 0x3000 := by
  unfold Permitted; decide

theorem witness_UninterceptedDeviceAccessesReachTheBackingWord :
    ((0xFE00#16) = 0xFE00#16 ∨ (0xFE00#16) = 0xFE02#16 ∨ (0xFE00#16) = 0xFE04#16) ∧
    memWrite 0xFE00 0x1234 State.reset = .ok (poke 0xFE00 0x1234 State.reset) :=
  ⟨by decide, rfl⟩

theorem witness_KeyboardReadsReturnPushesInOrder :
    State.reset.inQ = [] ∧
    keyReads 3 (pushInput 0x42 (pushInput 0x41 State.reset)) = [0x41, 0x42, 0x00] := by decide

theorem witness_LdLoadsTheWordAtPcPlusOffset :
    Permitted State.reset.cfg (wrap (State.reset.pc.toNat + (0#9).toInt)) ∧
    ¬ Permitted State.reset.cfg (wrap (State.reset.pc.toNat + (0x1FF#9).toInt)) := by
  unfold Permitted wrap; decide

theorem witness_LdrLoadsTheWordAtBasePlusOffset :
    Permitted State.reset.cfg (wrap (((State.reset.setReg .r1 0xFE00).reg .r1).toNat + (2#6).toInt)) ∧
    ¬ Permitted State.reset.cfg (wrap (((State.reset.setReg .r1 0xFE00).reg .r1).toNat + (1#6).toInt)) := by
  unfold Permitted wrap; decide

/-- A pointer at 0x3000 to a word a program may reach, and one to a word it may not. -/
theorem witness_LdiLoadsThroughThePointer :
    (wrap (State.reset.pc.toNat + (0#9).toInt) = 0x3000#16) ∧
    ¬ Permitted State.reset.cfg (wrap (State.reset.pc.toNat + (0x1FF#9).toInt)) ∧
    (Permitted State.reset.cfg 0x3000 ∧
      ¬ Permitted State.reset.cfg (readValue (poke 0x3000 0x2FFF State.reset) 0x3000)) ∧
    (Permitted State.reset.cfg 0x3000 ∧
      Permitted State.reset.cfg (readValue (poke 0x3000 0xFE02 State.reset) 0x3000)) := by
  unfold Permitted wrap; decide

theorem witness_StStoresAtPcPlusOffset :
    Permitted State.reset.cfg (wrap (State.reset.pc.toNat + (0xFF#9).toInt)) ∧
    ¬ Permitted State.reset.cfg (wrap (State.reset.pc.toNat + (0x100#9).toInt)) := by
  unfold Permitted wrap; decide

theorem witness_StrStoresAtBasePlusOffset :
    Permitted State.reset.cfg (wrap (((State.reset.setReg .r1 0xFDFF).reg .r1).toNat + (1#6).toInt)) ∧
    ¬ Permitted State.reset.cfg (wrap (((State.reset.setReg .r1 0xFDFF).reg .r1).toNat + (2#6).toInt)) := by
  unfold Permitted wrap; decide

theorem witness_StiStoresThroughThePointer :
    (wrap (State.reset.pc.toNat + (0#9).toInt) = 0x3000#16) ∧
    ¬ Permitted State.reset.cfg (wrap (State.reset.pc.toNat + (0x1FF#9).toInt)) ∧
    (Permitted State.reset.cfg 0x3000 ∧
      ¬ Permitted State.reset.cfg (readValue (poke 0x3000 0x0100 State.reset) 0x3000)) ∧
    (Permitted State.reset.cfg 0x3000 ∧
      Permitted State.reset.cfg (readValue (poke 0x3000 0xFE06 State.reset) 0x3000)) := by
  unfold Permitted wrap; decide

/-- Each side of JMP's three cases. -/
theorem witness_JmpTakesTheBaseAndReturnPops :
    Reg.r2 ≠ Reg.r7 ∧ State.reset.diag = [] ∧
    (State.reset.setDiag [0x1111, 0x3001]).diag = [0x1111#16] ++ [0x3001#16] := by decide

/-- The state after JSR #3 from reset, and the return from it. -/
theorem witness_CallThenReturnComesBack :
    ((∃ off, Instr.jsr 3 = .jsr off) ∨ (∃ b, Instr.jsr 3 = .jsrr b)) ∧
    exec (.jsr 3) State.reset = .next (leftBy (exec (.jsr 3) State.reset)) ∧
    exec (.jmp .r7) (leftBy (exec (.jsr 3) State.reset)) =
      .next (leftBy (exec (.jmp .r7) (leftBy (exec (.jsr 3) State.reset)))) ∧
    (leftBy (exec (.jsr 3) State.reset)).pc ≠ State.reset.pc :=
  ⟨Or.inl ⟨3, rfl⟩, rfl, rfl, by decide⟩

/-- T2, T3 and T5 with the vector 0x20, and a first slot refused with checks on. -/
theorem witness_TrapEntersSupervisorMode :
    (0x20#8) ≠ State.reset.cfg.haltVector ∧
    ¬ Permitted State.reset.cfg (wrap (State.reset.savedSSP.toNat - 1)) ∧
    (Permitted State.reset.cfg (wrap ((0x3001#16).toNat - 1)) ∧
      ¬ Permitted State.reset.cfg (wrap ((0x3001#16).toNat - 2))) ∧
    (Permitted State.reset.cfg (wrap ((0x4002#16).toNat - 1)) ∧
      Permitted State.reset.cfg (wrap ((0x4002#16).toNat - 2)) ∧
      ¬ Permitted State.reset.cfg (BitVec.ofNat 16 (0xFF#8).toNat)) ∧
    (Permitted unchecked.cfg (wrap ((0x0000#16).toNat - 1)) ∧
      Permitted unchecked.cfg (wrap ((0x0000#16).toNat - 2)) ∧
      Permitted unchecked.cfg (BitVec.ofNat 16 (0x20#8).toNat)) := by
  unfold Permitted wrap
  refine ⟨?_, ?_, ⟨?_, ?_⟩, ⟨?_, ?_, ?_⟩, ⟨?_, ?_, ?_⟩⟩ <;> decide

theorem witness_TrapFaultsWhilePrivilegeChecksAreOn :
    State.reset.cfg.ignorePrivilege = false ∧ (0x20#8) ≠ State.reset.cfg.haltVector ∧
    exec (.trap 0x20) (State.reset.setSavedSSP 0x4002) =
      .fault (.accessViolation 0x0020 0x3000 0x0000 (State.reset.setSavedSSP 0x4002)) :=
  ⟨by decide, by decide, rfl⟩

/-- T10, a second slot refused, and T8 and T9 for the two status words. -/
theorem witness_RtiPopsStatusAndPc :
    ¬ Permitted State.reset.cfg 0x2FFE ∧
    (Permitted State.reset.cfg 0xFDFF ∧ Permitted State.reset.cfg (wrap ((0xFDFF#16).toNat + 1)) ∧
      Permitted State.reset.cfg 0xFE00 ∧ ¬ Permitted State.reset.cfg (wrap ((0xFE00#16).toNat + 1))) ∧
    (Permitted unchecked.cfg 0xFFFF ∧ Permitted unchecked.cfg (wrap ((0xFFFF#16).toNat + 1))) ∧
    (readValue (poke 0x4000 0x7FFF unchecked) 0x4000).toNat < 0x8000 ∧
    0x8000 ≤ (readValue (poke 0x4000 0x8000 unchecked) 0x4000).toNat := by
  unfold Permitted wrap; decide

/-- A user program with its stack at 0x4000 that may enter a trap. -/
def trapReady : State := (poke 0x0020 0x1000 unchecked).setReg .r6 0x4000

theorem witness_TrapThenRtiRestoresTheCaller :
    (0x20#8) ≠ trapReady.cfg.haltVector ∧
    exec (.trap 0x20) trapReady = .next (leftBy (exec (.trap 0x20) trapReady)) ∧
    ((leftBy (exec (.trap 0x20) trapReady)).reg .r6).toNat < 0xFDFF ∧
    ((leftBy (exec (.trap 0x20) trapReady)).reg .r6).toNat ≠ 0xFFFF ∧
    exec .rti (leftBy (exec (.trap 0x20) trapReady)) =
      .next (leftBy (exec .rti (leftBy (exec (.trap 0x20) trapReady)))) ∧
    ((leftBy (exec .rti (leftBy (exec (.trap 0x20) trapReady)))).reg .r6) = 0x4000 ∧
    trapReady.mode = .user :=
  ⟨by decide, rfl, by decide, by decide, rfl, by decide, rfl⟩

theorem witness_PopReturnsWhatPushStored :
    push 0x1234 trapReady = .ok ((poke 0x3FFF 0x1234 trapReady).setReg .r6 0x3FFF) ∧
    (((poke 0x3FFF 0x1234 trapReady).setReg .r6 0x3FFF).reg .r6).toNat = 0x3FFF :=
  ⟨rfl, by decide⟩

theorem witness_TrapAndRtiUseTheStackPrimitives :
    (0x20#8) ≠ trapReady.cfg.haltVector ∧
    exec (.trap 0x20) trapReady = .next (leftBy (exec (.trap 0x20) trapReady)) ∧
    exec .rti trapReady = .next (leftBy (exec .rti trapReady)) ∧
    (leftBy (exec .rti trapReady)).mode = .supervisor ∧
    exec .rti (poke 0x4000 0x8000 trapReady) = .next (leftBy (exec .rti (poke 0x4000 0x8000 trapReady))) ∧
    (leftBy (exec .rti (poke 0x4000 0x8000 trapReady))).mode = .user :=
  ⟨by decide, rfl, rfl, by decide, rfl, by decide⟩

theorem witness_ConditionCodeWritersAndReaders :
    (exec (.not .r0 .r0) State.reset = .next (leftBy (exec (.not .r0 .r0) State.reset)) ∧
      ccSource (.not .r0 .r0) = some .r0) ∧
    (exec (.lea .r0 0) State.reset = .next (leftBy (exec (.lea .r0 0) State.reset)) ∧
      ccSource (.lea .r0 0) = none ∧ (∀ n z p off, Instr.lea .r0 0 ≠ .br n z p off)) ∧
    exec (.ld .r0 0x1FF) State.reset =
      .fault (.accessViolation 0x2FFF 0x3000 0x0000 State.reset) :=
  ⟨⟨rfl, rfl⟩, ⟨rfl, rfl, by intros; simp⟩, rfl⟩

theorem witness_InstructionsRunAlikeInBothModes :
    ((∀ v, Instr.st .r0 0 ≠ .trap v) ∧ Instr.st .r0 0 ≠ .rti) ∧
    exec .rti trapReady = .next (leftBy (exec .rti trapReady)) ∧
    exec .rti State.reset = .fault (.accessViolation 0x0000 0x3000 0x0000 State.reset) :=
  ⟨⟨by intros; simp, by decide⟩, rfl, rfl⟩

theorem witness_OnlyTrapAndRtiChangeTheMode :
    exec (.trap 0x20) trapReady = .next (leftBy (exec (.trap 0x20) trapReady)) ∧
    (leftBy (exec (.trap 0x20) trapReady)).mode ≠ trapReady.mode ∧
    exec .rti trapReady = .next (leftBy (exec .rti trapReady)) ∧
    (leftBy (exec .rti trapReady)).mode ≠ trapReady.mode :=
  ⟨rfl, by decide, rfl, by decide⟩

theorem witness_OnlyTheNamedRegisterIsWritten :
    exec (.not .r3 .r0) State.reset = .next (leftBy (exec (.not .r3 .r0) State.reset)) ∧
    (leftBy (exec (.not .r3 .r0) State.reset)).reg .r3 ≠ State.reset.reg .r3 :=
  ⟨rfl, by decide⟩

theorem witness_OnlyControlTransfersChangePc :
    exec (.jsr 3) State.reset = .next (leftBy (exec (.jsr 3) State.reset)) ∧
    (leftBy (exec (.jsr 3) State.reset)).pc ≠ State.reset.pc :=
  ⟨rfl, by decide⟩

/-- A fault with nothing changed, and one after the pointer read took a character (L7). -/
theorem witness_FaultingInstructionsLeaveTheStateIntact :
    exec (.st .r0 0x1FF) State.reset = .fault (.accessViolation 0x2FFF 0x3000 0x0000 State.reset) ∧
    exec (.ldi .r0 3) ((State.reset.setPc 0xFDFF).setInQ [0x2000]) =
      .fault (.accessViolation 0x2000 0xFDFF 0x0000 ((State.reset.setPc 0xFDFF).setInQ [])) :=
  ⟨rfl, rfl⟩

theorem witness_StepRunsTheDecodedInstruction :
    State.reset.halted = false ∧ Fetchable State.reset ∧ Fetchable (State.reset.setPc 0xFDFF) ∧
    Fetchable (unchecked.setPc 0xFFFF) := by
  unfold Fetchable; decide

theorem witness_StepStopsBeforeTheFetch :
    (State.reset.setHalted true).halted = true ∧ State.reset.halted = false ∧
    ¬ Fetchable (State.reset.setPc 0x2FFF) ∧ ¬ Fetchable (State.reset.setPc 0xFE00) := by
  unfold Fetchable; decide

theorem witness_StoredWordIsTheNextInstruction :
    memWrite ((0x3000#16).toNat : Int) 0xF025 State.reset = .ok (poke 0x3000 0xF025 State.reset) ∧
    (poke 0x3000 0xF025 State.reset).halted = false ∧ (poke 0x3000 0xF025 State.reset).pc = 0x3000 ∧
    Fetchable (poke 0x3000 0xF025 State.reset) ∧
    (0x3000#16).toNat ≠ 0xFE00 ∧ (0x3000#16).toNat ≠ 0xFE02 ∧ (0x3000#16).toNat ≠ 0xFE04 ∧
    (0x3000#16).toNat ≠ 0xFE06 :=
  ⟨rfl, rfl, rfl, by unfold Fetchable; decide, by decide, by decide, by decide, by decide⟩

/-- X1, X3 and L2: the three kinds of fault a step raises. -/
theorem witness_FaultingStepsLeaveTheStateOfTheFault :
    step (State.reset.setPc 0x2FFF) = .fault (.outOfBounds 0x2FFF (State.reset.setPc 0x2FFF)) ∧
    (∃ f, step (State.reset.withFetchWord 16 0xD123) = .fault f ∧
      f = .unknownInstruction 0xD123 0xD f.left) ∧
    (∃ f, step (State.reset.withFetchWord 16 0x21FE) = .fault f ∧
      f = .accessViolation 0x2FFF 0x3001 0x21FE f.left) :=
  ⟨rfl, ⟨_, rfl, rfl⟩, ⟨_, rfl, rfl⟩⟩

theorem witness_ChecksOffOnlyTheReservedOpcodeFaults :
    unchecked.cfg.ignorePrivilege = true ∧
    ∃ f, step (unchecked.withFetchWord 16 0xDFFF) = .fault f :=
  ⟨rfl, _, rfl⟩

theorem witness_StepKeepsMemoryCanonical :
    MemoryCanonical (State.reset.withFetchWord 16 0x3005) ∧
    step (State.reset.withFetchWord 16 0x3005) =
      .next (leftBy (step (State.reset.withFetchWord 16 0x3005))) :=
  ⟨by unfold MemoryCanonical; decide, rfl⟩

theorem witness_ChecksOnProtectedWordsNeverChange :
    State.reset.cfg.ignorePrivilege = false ∧
    step (State.reset.withFetchWord 16 0x3005) =
      .next (leftBy (step (State.reset.withFetchWord 16 0x3005))) ∧
    ((0x2FFF < 0x3000) ∨ (0xFE00 ≤ 0x2FFF ∧ 0x2FFF ≠ 0xFE00 ∧ 0x2FFF ≠ 0xFE02 ∧ 0x2FFF ≠ 0xFE04)) ∧
    ((0xFE06 < 0x3000) ∨ (0xFE00 ≤ 0xFE06 ∧ 0xFE06 ≠ 0xFE00 ∧ 0xFE06 ≠ 0xFE02 ∧ 0xFE06 ≠ 0xFE04)) :=
  ⟨rfl, rfl, by decide, by decide⟩

/-- A step that halts, and a step of a halted machine. -/
theorem witness_StepHistoryOnlyGrows :
    State.reset.halted = false ∧
    step (State.reset.withFetchWord 16 0xF025) =
      .next (leftBy (step (State.reset.withFetchWord 16 0xF025))) ∧
    (leftBy (step (State.reset.withFetchWord 16 0xF025))).halted = true ∧
    step (State.reset.setHalted true) = .next (State.reset.setHalted true) :=
  ⟨rfl, rfl, by decide, rfl⟩

/-- A filled machine with a supervisor image at both ends of the supervisor region. -/
theorem witness_ConstructionGivesTheInitialState :
    supervisorImageOK [(0x0000, 0x1234), (0x2FFF, 0x5678)] = true ∧
    ([(0x0000#16, 0x1234#16), (0x2FFF#16, 0x5678#16)].map Prod.fst).Nodup ∧
    (0x2FFF#16, 0x5678#16) ∈ [(0x0000#16, 0x1234#16), (0x2FFF#16, 0x5678#16)] ∧
    0x2FFE#16 ∉ [(0x0000#16, 0x1234#16), (0x2FFF#16, 0x5678#16)].map Prod.fst ∧
    supervisorImageOK [(0x3000, 0x1234)] = false ∧ 0x3000 ≤ (0x3000#16).toNat ∧
    (constructMemory false (fun a => a) [(0x0000, 0x1234)]).read 0x0000 = 0x1234 := by decide

/-- Segments of no words and of two words, at both ends of user space. -/
theorem witness_LoadPlacesASegmentAndNothingElse :
    (([] : List Word).length < 65536 ∧ 0x3000 ≤ (0x3000#16).toNat ∧
      (0x3000#16).toNat + ([] : List Word).length ≤ 0xFE00) ∧
    ([0x1020#16, 0x1021#16].length < 65536 ∧ 0x3000 ≤ (0xFDFE#16).toNat ∧
      (0xFDFE#16).toNat + [0x1020#16, 0x1021#16].length ≤ 0xFE00) := by decide

/-- O9 with a second segment at DDR: every write is permitted, the later word wins, and the DDR word goes
to the output log. -/
theorem witness_LoadPlacesASegmentAndNothingElse_segments :
    (∀ g ∈ [Segment.mk 0x3000 [0x1111], ⟨0xFE06, [0x0048]⟩, ⟨0x3000, [0x2222]⟩],
      g.data.length < 65536) ∧
    (∀ e ∈ imageWrites [⟨0x3000, [0x1111]⟩, ⟨0xFE06, [0x0048]⟩, ⟨0x3000, [0x2222]⟩],
      permOK State.reset.cfg (e.1 : Int) = true) ∧
    imageWords [⟨0x3000, [0x1111]⟩, ⟨0xFE06, [0x0048]⟩, ⟨0x3000, [0x2222]⟩] =
      [0x3000, 1, 0x1111, 0xFE06, 1, 0x0048, 0x3000, 1, 0x2222] ∧
    (leftBy (load [0x3000, 1, 0x1111, 0xFE06, 1, 0x0048, 0x3000, 1, 0x2222] State.reset)).mem =
      [(0x3000, 0x2222)] ∧
    (leftBy (load [0x3000, 1, 0x1111, 0xFE06, 1, 0x0048, 0x3000, 1, 0x2222] State.reset)).outLog =
      [0x0048] := by decide

/-- O1 and O8: a load that ends normally, and one that ends in a fault after a write. -/
theorem witness_LoadWritesMemoryAndTheLogOnly :
    load [0x3000, 2, 0x1020, 0x1021] State.reset =
      .next (leftBy (load [0x3000, 2, 0x1020, 0x1021] State.reset)) ∧
    ∃ f, load [0xFE06, 2, 0x48, 0x69] State.reset = .fault f ∧ f.left.outLog = [0x48] :=
  ⟨rfl, _, rfl, rfl⟩

/-- O4 and O3: a header cut short, and a segment cut short. -/
theorem witness_LoaderChecksTheStructureFirst :
    (∀ g ∈ [Segment.mk 0x3000 [0x1111]], g.data.length < 65536) ∧
    ([0x4000#16] = [0x4000#16] ∨ ([0x4000#16] = 0x4000#16 :: 0x0003#16 :: [] ∧ 0 < (3#16).toNat)) ∧
    ([0x4000#16, 0x0003#16, 1#16, 2#16] = 0x4000#16 :: 0x0003#16 :: [1#16, 2#16] ∧
      [1#16, 2#16].length < (0x0003#16).toNat) := by decide

-- O7
theorem witness_LoadPastTheTopFaultsAtTheRangeTest :
    unchecked.cfg.ignorePrivilege = true ∧ (0xFFFF#16).toNat + [7#16].length = 0x10000 ∧
    (0xFFFF#16).toNat > 0xFE06 ∧ ([7#16] ++ 8#16 :: []).length < 65536 := by decide

/-- O2 and O8, refused by the region test at both ends of what checks on allow, and O7, refused by the
range test. -/
theorem witness_LoadPastTheTopFaultsAtTheRangeTest_refused :
    (imageWrites [⟨0x2FFF, [1, 2]⟩] = [] ++ (0x2FFF, 1) :: [(0x3000, 2)] ∧
      permOK State.reset.cfg ((0x2FFF : Nat) : Int) = false ∧
      load [0x2FFF, 2, 1, 2] State.reset =
        .fault (.accessViolation 0x2FFF 0x3000 0x0000 State.reset)) ∧
    (imageWrites [⟨0xFE06, [0x48, 0x69]⟩] = [(0xFE06, 0x48)] ++ (0xFE07, 0x69) :: [] ∧
      permOK State.reset.cfg ((0xFE06 : Nat) : Int) = true ∧
      permOK State.reset.cfg ((0xFE07 : Nat) : Int) = false ∧
      load [0xFE06, 2, 0x48, 0x69] State.reset =
        .fault (.accessViolation 0xFE07 0x3000 0x0000 (State.reset.setOutLog [0x48]))) ∧
    (imageWrites [⟨0xFFFF, [7, 8]⟩] = [(0xFFFF, 7)] ++ (0x10000, 8) :: [] ∧
      permOK unchecked.cfg ((0xFFFF : Nat) : Int) = true ∧
      permOK unchecked.cfg ((0x10000 : Nat) : Int) = false) :=
  ⟨⟨by decide, by decide, rfl⟩, ⟨by decide, by decide, by decide, rfl⟩, by decide, by decide, by decide⟩

/-- The state a Run starts from: X8 and X9 for the two ends of the budget. -/
theorem witness_RunObeysItsBudget :
    RunsTo 0 (State.reset.setBudget 1000) (State.reset.setBudget 1000) ∧
    (State.reset.setBudget 1000).halted = false ∧
    run (State.reset.setHalted true) = .next ((State.reset.setHalted true).setBudget 1000) ∧
    (∃ f, run (State.reset.withFetchWord 16 0xD123) = .fault f) :=
  ⟨rfl, rfl, rfl, _, rfl⟩

/-- A step that answers, and the three kinds of fault a step raises, under a tick. -/
theorem witness_TickIsOneStep :
    step (runTick State.reset) = .next (leftBy (step (runTick State.reset))) ∧
    (∃ t, step (runTick (State.reset.setPc 0x2FFF)) = .fault (.outOfBounds 0x2FFF t)) ∧
    (∃ t, step (runTick (State.reset.withFetchWord 16 0xD123)) =
      .fault (.unknownInstruction 0xD123 0xD t)) ∧
    (∃ t, step (runTick (State.reset.withFetchWord 16 0x21FE)) =
      .fault (.accessViolation 0x2FFF 0x3001 0x21FE t)) :=
  ⟨rfl, ⟨_, rfl⟩, ⟨_, rfl⟩, ⟨_, rfl⟩⟩

end Sys2Proof.Tests
end

section
/-! The operand extensions of rule R12: the bits and the value of `sext` and `zext`, and the statement of
obligation O7 assembled from them. -/

namespace Sys2Proof.Machine

/-- Below the field's width, sign extension keeps the field's bits. -/
theorem getLsbD_sext_of_lt {n k : Nat} (f : BitVec n) (hn : n ≤ 16) (hk : k < n) :
    (sext f).getLsbD k = f.getLsbD k := by
  have hk16 : k < 16 := by omega
  rw [sext, BitVec.getLsbD_signExtend]
  simp only [hk, hk16, decide_true, Bool.true_and, if_true]

/-- From the field's width up, sign extension copies the field's top bit. -/
theorem getLsbD_sext_of_ge {n k : Nat} (f : BitVec n) (hk : n ≤ k) (hk16 : k < 16) :
    (sext f).getLsbD k = f.getLsbD (n - 1) := by
  rw [sext, BitVec.getLsbD_signExtend, if_neg (Nat.not_lt.mpr hk), BitVec.msb_eq_getLsbD_last]
  simp only [hk16, decide_true, Bool.true_and]

/-- The copies of a set top bit are worth `2^16 - 2^n` together. -/
theorem toNat_sext {n : Nat} (f : BitVec n) (hn : n ≤ 16) :
    (sext f).toNat = if f.getLsbD (n - 1) then f.toNat + (0x10000 - 2 ^ n) else f.toNat := by
  unfold sext
  rw [BitVec.toNat_signExtend, BitVec.toNat_setWidth_of_le hn, BitVec.msb_eq_getLsbD_last]
  split <;> rfl

/-- Below the field's width, zero extension keeps the field's bits. -/
theorem getLsbD_zext_of_lt {n k : Nat} (f : BitVec n) (hn : n ≤ 16) (hk : k < n) :
    (zext f).getLsbD k = f.getLsbD k := by
  have hk16 : k < 16 := by omega
  rw [zext, BitVec.getLsbD_setWidth]
  simp only [hk16, decide_true, Bool.true_and]

/-- From the field's width up, zero extension puts 0. -/
theorem getLsbD_zext_of_ge {n k : Nat} (f : BitVec n) (hk : n ≤ k) : (zext f).getLsbD k = false := by
  rw [zext, BitVec.getLsbD_setWidth, BitVec.getLsbD_of_ge f k hk, Bool.and_false]

/-- Settles O7, from the bits and the value of the two extensions. -/
theorem signExtensionCopiesTheTopBit : Obligations.SignExtensionCopiesTheTopBit := by
  intro n f _ hn
  have hn16 : n ≤ 16 := by omega
  exact ⟨fun _ => getLsbD_sext_of_lt f hn16, fun _ => getLsbD_sext_of_ge f, toNat_sext f hn16,
    fun _ => getLsbD_zext_of_lt f hn16, fun _ => getLsbD_zext_of_ge f⟩

end Sys2Proof.Machine
end

section
/-! What the condition code cannot reach. The memory access controller carries a change of a field it
neither reads nor writes through unread (`Bystander`); an instruction run on a state with another condition
code then does the same up to that code, and the writers of rule R27 end in the very same state. Obligation
O35 is assembled from these two facts. -/

namespace Sys2Proof.Machine

/-! The memory access controller and a change it cannot see. -/

/-- A change of the state that touches nothing the memory access controller reads or writes, nor what its
faults report. -/
structure Bystander (g : State → State) : Prop where
  cfg : ∀ s, (g s).cfg = s.cfg
  pc : ∀ s, (g s).pc = s.pc
  ir : ∀ s, (g s).ir = s.ir
  mem : ∀ s, (g s).mem = s.mem
  inQ : ∀ s, (g s).inQ = s.inQ
  outLog : ∀ s, (g s).outLog = s.outLog
  setMem : ∀ s x, g (s.setMem x) = (g s).setMem x
  setInQ : ∀ s x, g (s.setInQ x) = (g s).setInQ x
  setOutLog : ∀ s x, g (s.setOutLog x) = (g s).setOutLog x

/-- A MAC read's answer with its state, next or left by a fault, changed by `g`. -/
def mapRead (g : State → State) (x : Except Fault (Word × State)) : Except Fault (Word × State) :=
  match x with
  | .ok (v, t) => .ok (v, g t)
  | .error f => .error (f.withLeft g)

/-- A MAC write's answer with its state, next or left by a fault, changed by `g`. -/
def mapWrite (g : State → State) (x : Except Fault State) : Except Fault State :=
  match x with
  | .ok t => .ok (g t)
  | .error f => .error (f.withLeft g)

/-- An outcome with the state its fault leaves changed by `g`; a next state stays as it is. -/
def mapFaultState (g : State → State) (o : Host.Outcome State Fault Refusal) :
    Host.Outcome State Fault Refusal :=
  match o with
  | .next t => .next t
  | .fault f => .fault (f.withLeft g)
  | .refused r => .refused r

theorem accessFault_bystander {g : State → State} (hg : Bystander g) (a : Int) (s : State) :
    accessFault a (g s) = (accessFault a s).withLeft g := by
  unfold accessFault Fault.withLeft
  rw [hg.pc, hg.ir]

theorem kbsrValue_bystander {g : State → State} (hg : Bystander g) (s : State) :
    kbsrValue (g s) = kbsrValue s := by
  unfold kbsrValue
  rw [hg.inQ]

theorem kbdrRead_bystander {g : State → State} (hg : Bystander g) (s : State) :
    kbdrRead (g s) = ((kbdrRead s).1, g (kbdrRead s).2) := by
  unfold kbdrRead
  rw [hg.inQ]
  cases s.inQ with
  | nil => rfl
  | cons c rest => exact congrArg (Prod.mk c) (hg.setInQ s rest).symm

theorem memRead_bystander {g : State → State} (hg : Bystander g) (a : Int) (s : State) :
    memRead a (g s) = mapRead g (memRead a s) := by
  unfold memRead
  rw [hg.cfg, hg.mem, accessFault_bystander hg, kbsrValue_bystander hg, kbdrRead_bystander hg]
  -- the same test decides on both sides; each branch answers alike
  repeat' split
  all_goals rfl

theorem memWrite_bystander {g : State → State} (hg : Bystander g) (a : Int) (v : Word) (s : State) :
    memWrite a v (g s) = mapWrite g (memWrite a v s) := by
  unfold memWrite
  rw [hg.cfg, hg.mem, hg.outLog, accessFault_bystander hg, ← hg.setMem, ← hg.setOutLog]
  repeat' split
  all_goals rfl

theorem storeTo_bystander {g : State → State} (hg : Bystander g) (ea v : Word) (s : State) :
    storeTo ea v (g s) = mapStates g (storeTo ea v s) := by
  unfold storeTo
  rw [memWrite_bystander hg]
  cases memWrite (ea.toNat : Int) v s <;> rfl

/-! Another condition code. -/

/-- No access reads or writes the condition code. -/
theorem bystander_setCc (c : CondCode) : Bystander (fun t => t.setCc c) where
  cfg _ := rfl
  pc _ := rfl
  ir _ := rfl
  mem _ := rfl
  inQ _ := rfl
  outLog _ := rfl
  setMem _ _ := rfl
  setInQ _ _ := rfl
  setOutLog _ _ := rfl

theorem leaveTrap_setCc (c : CondCode) (top status target : Word) (s : State) :
    leaveTrap top status target (s.setCc c) = (leaveTrap top status target s).setCc c := by
  unfold leaveTrap
  split <;> rfl

/-- A load overwrites the condition code it finds, so only a fault can leave it. -/
theorem loadFrom_setCc (c : CondCode) (dr : Reg) (ea : Word) (s : State) :
    loadFrom dr ea (s.setCc c) = mapFaultState (fun t => t.setCc c) (loadFrom dr ea s) := by
  unfold loadFrom
  rw [memRead_bystander (bystander_setCc c)]
  cases memRead (ea.toNat : Int) s <;> rfl

theorem execLdi_setCc (c : CondCode) (dr : Reg) (off : BitVec 9) (s : State) :
    execLdi dr off (s.setCc c) = mapFaultState (fun t => t.setCc c) (execLdi dr off s) := by
  have hea : pcRelative (s.setCc c) off = pcRelative s off := rfl
  unfold execLdi
  rw [hea, memRead_bystander (bystander_setCc c)]
  cases memRead ((pcRelative s off).toNat : Int) s with
  | error f => rfl
  | ok p => exact loadFrom_setCc c dr p.1 p.2

theorem execSti_setCc (c : CondCode) (sr : Reg) (off : BitVec 9) (s : State) :
    execSti sr off (s.setCc c) = mapStates (fun t => t.setCc c) (execSti sr off s) := by
  have hea : pcRelative (s.setCc c) off = pcRelative s off := rfl
  unfold execSti
  rw [hea, memRead_bystander (bystander_setCc c)]
  cases memRead ((pcRelative s off).toNat : Int) s with
  | error f => rfl
  | ok p => exact storeTo_bystander (bystander_setCc c) p.1 (p.2.reg sr) p.2

theorem trapEntry_setCc (c : CondCode) (vect : BitVec 8) (s : State) :
    trapEntry vect (s.setCc c) = mapStates (fun t => t.setCc c) (trapEntry vect s) := by
  have hg := bystander_setCc c
  have htop : trapStack (s.setCc c) = trapStack s := rfl
  unfold trapEntry
  rw [htop, State.setCc_cfg, State.setCc_pc, State.setCc_mode, memWrite_bystander hg]
  cases firstDenied s.cfg [trapStack s - 1, trapStack s - 2, trapTableEntry vect] with
  | some a => rfl
  | none =>
    cases memWrite ((trapStack s - 1).toNat : Int) s.pc s with
    | error f => rfl
    | ok s1 =>
      simp only [mapWrite, memWrite_bystander hg]
      cases memWrite ((trapStack s - 2).toNat : Int) (statusWord s.mode) s1 with
      | error f => rfl
      | ok s2 =>
        simp only [memRead_bystander hg]
        cases memRead ((trapTableEntry vect).toNat : Int) s2 <;> rfl

theorem trapReturn_setCc (c : CondCode) (s : State) :
    trapReturn (s.setCc c) = mapStates (fun t => t.setCc c) (trapReturn s) := by
  have hg := bystander_setCc c
  unfold trapReturn
  rw [State.reg_setCc, State.setCc_cfg, memRead_bystander hg]
  cases firstDenied s.cfg [s.reg .r6, s.reg .r6 + 1] with
  | some a => rfl
  | none =>
    cases memRead ((s.reg .r6).toNat : Int) s with
    | error f => rfl
    | ok p =>
      obtain ⟨status, s1⟩ := p
      simp only [mapRead, memRead_bystander hg]
      cases memRead ((s.reg .r6 + 1).toNat : Int) s1 with
      | error f => rfl
      | ok q => exact congrArg Host.Outcome.next (leaveTrap_setCc c (s.reg .r6 + 2) status q.1 q.2)

/-- HALT and every trap carry the condition code through. -/
theorem execTrap_setCc (c : CondCode) (vect : BitVec 8) (s : State) :
    execTrap vect (s.setCc c) = mapStates (fun t => t.setCc c) (execTrap vect s) := by
  unfold execTrap
  rw [State.setCc_cfg]
  split
  · rfl
  · exact trapEntry_setCc c vect s

/-! Every instruction. -/

/-- A writer of the condition code started from another one: the same next state (rule R27). -/
theorem exec_setCc_of_writer {i : Instr} (hw : ccSource i ≠ none) (c : CondCode) (s : State) :
    exec i (s.setCc c) = mapFaultState (fun t => t.setCc c) (exec i s) := by
  cases i with
  | addReg | addImm | andReg | andImm | not => rfl
  | ld dr off => exact loadFrom_setCc c dr (pcRelative s off) s
  | ldr dr b off => exact loadFrom_setCc c dr (baseRelative s b off) s
  | ldi dr off => exact execLdi_setCc c dr off s
  | _ => exact absurd rfl hw

/-- Any other instruction but BR, the one reader, carries the condition code through (rule R27). -/
theorem exec_setCc_of_nonwriter {i : Instr} (hw : ccSource i = none)
    (hbr : ∀ n z p off, i ≠ .br n z p off) (c : CondCode) (s : State) :
    exec i (s.setCc c) = mapStates (fun t => t.setCc c) (exec i s) := by
  cases i with
  | br n z p off => exact absurd rfl (hbr n z p off)
  | lea | jsr | jsrr | jmp | reserved => rfl
  | st sr off => exact storeTo_bystander (bystander_setCc c) (pcRelative s off) (s.reg sr) s
  | str sr b off => exact storeTo_bystander (bystander_setCc c) (baseRelative s b off) (s.reg sr) s
  | sti sr off => exact execSti_setCc c sr off s
  | trap v => exact execTrap_setCc c v s
  | rti => exact trapReturn_setCc c s
  | _ => exact absurd hw (Option.some_ne_none _)

/-- Every writer of the condition code ends in the write of a result, which sets it from that result. -/
theorem exec_writer_next {i : Instr} {r : Reg} {s t : State} (hw : ccSource i = some r)
    (h : exec i s = .next t) : ∃ v u, t = writeResult r v u := by
  cases i with
  | addReg | addImm | andReg | andImm | not => cases hw; cases h; exact ⟨_, _, rfl⟩
  | ld dr off => cases hw; exact ⟨_, _, (loadFrom_next h).2⟩
  | ldr dr b off => cases hw; exact ⟨_, _, (loadFrom_next h).2⟩
  | ldi dr off => cases hw; exact ⟨_, _, (loadFrom_next (execLdi_next h).2).2⟩
  | _ => cases hw

/-- BR always completes, and moves PC at most. -/
theorem execBr_next (n z p : Bool) (off : BitVec 9) (s : State) :
    ∃ target, exec (.br n z p off) s = .next (s.setPc target) := by
  change ∃ target, execBr n z p off s = _
  unfold execBr
  split
  · exact ⟨_, rfl⟩
  · exact ⟨s.pc, rfl⟩

/-- An instruction that does not write the condition code leaves it: started from the code it has, it ends
in its own next state with that code put back. -/
theorem exec_cc_of_nonwriter {i : Instr} {s t : State} (hw : ccSource i = none)
    (h : exec i s = .next t) : t.cc = s.cc := by
  by_cases hbr : ∃ n z p off, i = .br n z p off
  · obtain ⟨n, z, p, off, rfl⟩ := hbr
    obtain ⟨target, e⟩ := execBr_next n z p off s
    cases e.symm.trans h
    rfl
  · push Not at hbr
    have e := exec_setCc_of_nonwriter hw hbr s.cc s
    rw [show s.setCc s.cc = s from rfl, h, mapStates] at e
    calc t.cc = (t.setCc s.cc).cc := congrArg State.cc (Host.Outcome.next.inj e)
      _ = s.cc := rfl

/-- Whether an instruction faults, and how, does not depend on the condition code; the state it leaves has
the code it was started with. -/
theorem exec_setCc_of_fault {i : Instr} {s : State} {f : Fault} (h : exec i s = .fault f)
    (c : CondCode) : exec i (s.setCc c) = .fault (f.withLeft (fun t => t.setCc c)) := by
  by_cases hw : ccSource i = none
  · have hbr : ∀ n z p off, i ≠ .br n z p off := by
      rintro n z p off rfl
      obtain ⟨target, e⟩ := execBr_next n z p off s
      cases e.symm.trans h
    rw [exec_setCc_of_nonwriter hw hbr, h, mapStates]
  · rw [exec_setCc_of_writer hw, h, mapFaultState]

/-- Settles O35: the value a writer writes fixes the code, and running from another code changes nothing but
the code that a fault or a non-writer carries through. -/
theorem conditionCodeWritersAndReaders : Obligations.ConditionCodeWritersAndReaders := by
  intro i s
  refine ⟨fun t r h hw => ?_, fun t h hw => exec_cc_of_nonwriter hw h, fun c t h hw => ?_,
    fun c f h => exec_setCc_of_fault h c, fun c t h hw hbr => ?_⟩
  · obtain ⟨v, u, rfl⟩ := exec_writer_next hw h
    rw [writeResult_reg, if_pos rfl]
    exact signCode_ccOf v
  · rw [exec_setCc_of_writer hw, h, mapFaultState]
  · rw [exec_setCc_of_nonwriter hw hbr, h, mapStates]

end Sys2Proof.Machine
end

section
/-! The machine right after construction (rules R39, R211): what its memory reads as, inside and outside the
supervisor image, and the statement of obligation O52. -/

namespace Sys2Proof.Machine

/-- In a list that names no key twice, looking up the key of an entry finds that entry. -/
theorem lookup_of_mem_of_nodup {α β : Type} [BEq α] [LawfulBEq α] {l : List (α × β)} {a : α} {b : β}
    (hnd : (l.map Prod.fst).Nodup) (h : (a, b) ∈ l) : l.lookup a = some b := by
  induction l with
  | nil => cases h
  | cons e l ih =>
    obtain ⟨k, w⟩ := e
    rw [List.map_cons, List.nodup_cons] at hnd
    obtain ⟨hk, hnd⟩ := hnd
    rcases List.mem_cons.mp h with heq | htail
    · cases heq
      exact List.lookup_cons_self
    · have hne : a ≠ k := by
        rintro rfl
        exact hk (List.mem_map.mpr ⟨_, htail, rfl⟩)
      rw [List.lookup_cons, beq_false_of_ne hne]
      exact ih hnd htail

/-- Looking up a key that no entry has finds nothing. -/
theorem lookup_of_notMem_keys {α β : Type} [BEq α] [LawfulBEq α] {l : List (α × β)} {a : α}
    (h : a ∉ l.map Prod.fst) : l.lookup a = none := by
  rw [List.lookup_eq_none_iff]
  intro e he
  exact bne_iff_ne.mpr fun heq => h (List.mem_map.mpr ⟨e, he, heq.symm⟩)

/-- The supervisor image names no address from USER_BASE on (rule R7). -/
theorem notMem_image_of_user {image : List (Word × Word)} (h : supervisorImageOK image = true) {a : Word}
    (ha : 0x3000 ≤ a.toNat) : a ∉ image.map Prod.fst := by
  intro hmem
  obtain ⟨e, he, rfl⟩ := List.mem_map.mp hmem
  have hlt : e.1.toNat < userBase := of_decide_eq_true (List.all_eq_true.mp h e he)
  exact absurd hlt (Nat.not_lt.mpr ha)

/-- A constructed word is the image's first entry for its address, else the fill's (rule R211). -/
theorem read_constructMemory (randomize : Bool) (fill : Word → Word) (image : List (Word × Word))
    (a : Word) :
    (constructMemory randomize fill image).read a.toNat =
      (image.lookup a).getD (if randomize = true then fill a else 0x0000#16) := by
  have hlt : a.toNat < memWords := a.isLt
  unfold constructMemory
  rw [Memory.read_overlay]
  cases randomize with
  | false => rfl
  | true =>
    rw [if_pos rfl, Memory.read_fill, if_pos hlt, BitVec.ofNat_toNat, BitVec.setWidth_eq, if_pos rfl]

/-- A word of the image stands at its address. -/
theorem read_constructMemory_image (randomize : Bool) (fill : Word → Word) {image : List (Word × Word)}
    (hnd : (image.map Prod.fst).Nodup) {a w : Word} (h : (a, w) ∈ image) :
    (constructMemory randomize fill image).read a.toNat = w := by
  rw [read_constructMemory, lookup_of_mem_of_nodup hnd h, Option.getD_some]

/-- Where the image names no word, the fill's stands. -/
theorem read_constructMemory_fill (randomize : Bool) (fill : Word → Word) {image : List (Word × Word)}
    {a : Word} (h : a ∉ image.map Prod.fst) :
    (constructMemory randomize fill image).read a.toNat =
      if randomize = true then fill a else 0x0000#16 := by
  rw [read_constructMemory, lookup_of_notMem_keys h, Option.getD_none]

/-- Every general register of a constructed machine holds 0x0000 (rule R39). -/
theorem construct_reg (cfg : Config) (fill : Word → Word) (image : List (Word × Word)) (r : Reg) :
    (State.construct cfg fill image).reg r = 0x0000#16 := by
  cases r <;> rfl

/-- Settles O52: the fields outside memory stand in `State.construct`, and a word of memory is the image's
where the image names its address and the fill's elsewhere, so in particular in user space. -/
theorem constructionGivesTheInitialState : Obligations.ConstructionGivesTheInitialState := by
  rintro cfg fill image _ rfl
  refine ⟨rfl, construct_reg cfg fill image, rfl, rfl, rfl, rfl, rfl, rfl, fun hok hnd => ⟨?_, ?_, ?_⟩,
    rfl, rfl, rfl, rfl⟩
  · exact fun a w h => read_constructMemory_image cfg.randomize fill hnd h
  · exact fun a h => read_constructMemory_fill cfg.randomize fill h
  · exact fun a ha => read_constructMemory_fill cfg.randomize fill (notMem_image_of_user hok ha)

end Sys2Proof.Machine
end

section
/-! The memory access controller in the terms of the claims: the permission test of an integer address
(rule R55), what a refused access raises, and the effect and frame of a permitted read and write (rules R56,
R57), with obligations O8 to O11 assembled from them. -/

namespace Sys2Proof.Machine

/-! The permission test. -/

/-- The device registers by their addresses (rule R51). -/
theorem isDeviceRegister_iff (a : Int) :
    isDeviceRegister a = true ↔ a = 0xFE00 ∨ a = 0xFE02 ∨ a = 0xFE04 ∨ a = 0xFE06 := by
  unfold isDeviceRegister kbsrAddr kbdrAddr dsrAddr ddrAddr
  simp only [Bool.or_eq_true, decide_eq_true_eq, or_assoc, Nat.cast_ofNat]

/-- When the test holds: an address of the address space, and with checks on one of user space or a device
register. -/
theorem permOK_iff (cfg : Config) (a : Int) :
    permOK cfg a = true ↔
      (0 ≤ a ∧ a ≤ 0xFFFF) ∧
        (cfg.ignorePrivilege = true ∨ (0x3000 ≤ a ∧ (a < 0xFE00 ∨ isDeviceRegister a = true))) := by
  unfold permOK userBase deviceBase addrMax
  simp only [Bool.and_eq_true, Bool.or_eq_true, decide_eq_true_eq, Nat.cast_ofNat]

/-- The three cases of rule R55. -/
theorem permOK_eq_false_iff (cfg : Config) (a : Int) :
    permOK cfg a = false ↔
      (a > 0xFFFF ∨ a < 0) ∨ (cfg.ignorePrivilege = false ∧ a < 0x3000) ∨
        (cfg.ignorePrivilege = false ∧ a ≥ 0xFE00 ∧
          ¬(a = 0xFE00 ∨ a = 0xFE02 ∨ a = 0xFE04 ∨ a = 0xFE06)) := by
  rw [← Bool.not_eq_true, permOK_iff, isDeviceRegister_iff]
  cases cfg.ignorePrivilege with
  | true => simp; omega
  | false => simp; omega

/-- The device registers are permitted in every configuration. -/
theorem permitted_of_device {a : Word} (cfg : Config)
    (h : a = 0xFE00#16 ∨ a = 0xFE02#16 ∨ a = 0xFE04#16 ∨ a = 0xFE06#16) : Permitted cfg a := by
  refine Or.inr ⟨?_, Or.inr h⟩
  rcases h with rfl | rfl | rfl | rfl <;> decide

/-! Refused accesses, at any integer address. -/

theorem memRead_of_permOK_false {a : Int} {s : State} (h : permOK s.cfg a = false) :
    memRead a s = .error (accessFault a s) := by
  unfold memRead
  rw [h, if_neg Bool.false_ne_true]

theorem memWrite_of_permOK_false {a : Int} (v : Word) {s : State} (h : permOK s.cfg a = false) :
    memWrite a v s = .error (accessFault a s) := by
  unfold memWrite
  rw [h, if_neg Bool.false_ne_true]

/-- A read answers wherever the test holds: `memRead_exists` for an integer address. -/
theorem memRead_answers {a : Int} {s : State} (h : permOK s.cfg a = true) :
    ∃ v t, memRead a s = .ok (v, t) := by
  cases hr : memRead a s with
  | ok p => exact ⟨p.1, p.2, rfl⟩
  | error f =>
    obtain ⟨hdenied, -⟩ := memRead_error hr
    simp [h] at hdenied

/-! Permitted accesses. -/

/-- Effect and frame of a write that answers: DDR's goes to the output log, any other to its word. -/
theorem stores_of_memWrite {a v : Word} {s t : State} (h : memWrite (a.toNat : Int) v s = .ok t) :
    Stores a v s t := by
  have hddr : a.toNat = 0xFE06 ↔ a = 0xFE06#16 := BitVec.toNat_inj (y := 0xFE06#16)
  have heffect : (∀ b : Nat, t.mem.read b = if b = a.toNat ∧ a ≠ 0xFE06#16 then v else s.mem.read b) ∧
      t.outLog = if a = 0xFE06#16 then s.outLog ++ [v] else s.outLog := by
    rw [memWrite_nat_ok h]
    by_cases ha : a = 0xFE06#16
    · simp [ha]
    · simp [hddr, ha]
  obtain ⟨hmem, hlog⟩ := heffect
  obtain ⟨m, o, rfl⟩ := memWrite_frame h
  exact ⟨hmem, hlog, rfl, fun _ => rfl, rfl, rfl, rfl, rfl, rfl, rfl, rfl, rfl, rfl, rfl, rfl⟩

/-- A permitted write, in the terms of the claims. -/
theorem memWrite_permitted {a : Word} (v : Word) {s : State} (h : Permitted s.cfg a) :
    ∃ t, memWrite (a.toNat : Int) v s = .ok t ∧ Stores a v s t := by
  obtain ⟨t, hw⟩ := memWrite_exists (v := v) ((permOK_word_iff _ _).mpr h)
  exact ⟨t, hw, stores_of_memWrite hw⟩

/-- What KBSR, KBDR and DSR answer is fixed by the input queue. -/
theorem readValue_eq_of_inQ_eq {a : Word} {s t : State}
    (ha : a = 0xFE00#16 ∨ a = 0xFE02#16 ∨ a = 0xFE04#16) (hq : t.inQ = s.inQ) :
    readValue t a = readValue s a := by
  unfold readValue
  rw [hq]
  rcases ha with rfl | rfl | rfl <;> rfl

/-- A read of DDR falls through to its backing word and changes nothing (rule R63). -/
theorem memRead_ddr (s : State) : memRead 0xFE06 s = .ok (s.mem.read 0xFE06, s) := by
  have hp : Permitted s.cfg 0xFE06#16 := permitted_of_device s.cfg (by decide)
  obtain ⟨hv, hq⟩ := readValue_plain (a := 0xFE06#16) s (by decide)
  have hr := memRead_permitted hp
  rw [hv, hq, setInQ_self] at hr
  exact hr

/-! The obligations. -/

/-- Settles O8: the test is cut into its three cases, a refused access is the fault alone, and a permitted
one answers. -/
theorem permissionTestFailsInThreeCases : Obligations.PermissionTestFailsInThreeCases :=
  ⟨permOK_eq_false_iff, fun _ v _ =>
    ⟨fun h => ⟨memRead_of_permOK_false h, memWrite_of_permOK_false v h⟩,
      fun h => ⟨memRead_answers h, memWrite_exists h⟩⟩⟩

/-- Settles O9, by the two outcomes of the permission test. -/
theorem macReadAnswersByAddress : Obligations.MacReadAnswersByAddress :=
  fun a s => ⟨fun h => memRead_of_permOK_false ((permOK_word_eq_false_iff s.cfg a).mpr h), memRead_permitted⟩

/-- Settles O10, by the two outcomes of the permission test. -/
theorem macWriteChangesOneWordOrTheLog : Obligations.MacWriteChangesOneWordOrTheLog :=
  fun a v s => ⟨fun h => memWrite_of_permOK_false v ((permOK_word_eq_false_iff s.cfg a).mpr h),
    memWrite_permitted v⟩

/-- Settles O11: a write to KBSR, KBDR or DSR stores its word and keeps the input queue, which alone fixes
what those addresses answer. -/
theorem uninterceptedDeviceAccessesReachTheBackingWord :
    Obligations.UninterceptedDeviceAccessesReachTheBackingWord := by
  refine ⟨fun a v s ha => ?_, memRead_ddr⟩
  have hp : ∀ cfg, Permitted cfg a := fun cfg =>
    permitted_of_device cfg (ha.imp_right (Or.imp_right Or.inl))
  have hne : a ≠ 0xFE06#16 := by rcases ha with rfl | rfl | rfl <;> decide
  obtain ⟨t, hw, hmem, -, hinQ, -⟩ := memWrite_permitted v (hp s.cfg)
  have hstored : t.mem.read a.toNat = v := by rw [hmem, if_pos ⟨rfl, hne⟩]
  have hread := memRead_permitted (hp t.cfg)
  rw [readValue_eq_of_inQ_eq ha hinQ] at hread
  exact ⟨t, hw, hstored, _, _, _, memRead_permitted (hp s.cfg), hread⟩

end Sys2Proof.Machine
end

section
/-! Encoding, from words to instructions. Agreement of two words on a set of bits is agreement on each of
its fields, and the bits a table row reads are the opcode field and the fields of its operands, so two words
that agree on them are read alike (rules R82, R83, R88): obligation O2. Of the instructions a word can
decode to, the reserved pattern alone is ill-formed, and it alone raises UnknownInstruction (rules R87,
R104): obligation O5. -/

namespace Sys2Proof.Machine

/-! Agreement of two words on a set of bits. -/

/-- Two words have the same bits inside a mask. -/
def AgreeOn (m w' w : Word) : Prop := w' &&& m = w &&& m

/-- The bits of the `n`-bit field of a word from bit `lo` up. -/
def fieldMask (lo n : Nat) : Word := place (BitVec.allOnes n) lo

theorem agreeOn_iff_getLsbD (m w' w : Word) :
    AgreeOn m w' w ↔ ∀ k, k < 16 → m.getLsbD k = true → w'.getLsbD k = w.getLsbD k := by
  simp only [AgreeOn, BitVec.eq_of_getLsbD_eq_iff, BitVec.getLsbD_and]
  refine forall₂_congr fun k _ => ?_
  cases m.getLsbD k <;> simp

/-- No bits leave nothing to agree on. -/
@[simp] theorem agreeOn_zero (w' w : Word) : AgreeOn 0#16 w' w := by
  unfold AgreeOn
  rw [BitVec.and_zero, BitVec.and_zero]

/-- Agreement on a union of bits is agreement on both parts. -/
@[simp] theorem agreeOn_or (m n w' w : Word) :
    AgreeOn (m ||| n) w' w ↔ AgreeOn m w' w ∧ AgreeOn n w' w := by
  simp only [agreeOn_iff_getLsbD, BitVec.getLsbD_or, Bool.or_eq_true, or_imp, forall_and]

theorem getLsbD_fieldMask (lo n k : Nat) :
    (fieldMask lo n).getLsbD k = true ↔ k < 16 ∧ lo ≤ k ∧ k - lo < n := by
  simp [fieldMask, getLsbD_place, BitVec.getLsbD_allOnes]

/-- A field has the same value in two words exactly when they agree on its bits. -/
theorem extract_eq_extract_iff {lo n : Nat} (h : lo + n ≤ 16) (w' w : Word) :
    w'.extractLsb' lo n = w.extractLsb' lo n ↔ AgreeOn (fieldMask lo n) w' w := by
  rw [agreeOn_iff_getLsbD, BitVec.eq_of_getLsbD_eq_iff]
  simp only [getLsbD_fieldMask, BitVec.getLsbD_extractLsb']
  constructor
  · rintro hfield k - ⟨-, hlo, hk⟩
    simpa only [hk, Nat.add_sub_cancel' hlo, decide_true, Bool.true_and] using hfield (k - lo) hk
  · intro hagree i hi
    rw [hagree (lo + i) (by omega) ⟨by omega, by omega, by omega⟩]

theorem getLsbD_eq_getLsbD_iff {lo : Nat} (h : lo < 16) (w' w : Word) :
    w'.getLsbD lo = w.getLsbD lo ↔ AgreeOn (fieldMask lo 1) w' w := by
  rw [← extract_eq_extract_iff h, extract_eq_iff, ← bitsAt_eq_extract, (bitsAt_one_iff w lo _).mpr rfl,
    bitsAt_one_iff]

theorem ofBits_eq_ofBits_iff (b' b : BitVec 3) : Reg.ofBits b' = Reg.ofBits b ↔ b' = b := by
  rw [Reg.ofBits_eq_iff, Reg.toBits_ofBits]

/-! The fields of the formats (rule R82). -/

theorem opcodeField_eq_iff (w' w : Word) :
    opcodeField w' = opcodeField w ↔ AgreeOn (fieldMask 12 4) w' w :=
  extract_eq_extract_iff (by decide) w' w

theorem reg11to9_eq_iff (w' w : Word) : reg11to9 w' = reg11to9 w ↔ AgreeOn (fieldMask 9 3) w' w := by
  rw [reg11to9, reg11to9, ofBits_eq_ofBits_iff, extract_eq_extract_iff (by decide)]

theorem reg8to6_eq_iff (w' w : Word) : reg8to6 w' = reg8to6 w ↔ AgreeOn (fieldMask 6 3) w' w := by
  rw [reg8to6, reg8to6, ofBits_eq_ofBits_iff, extract_eq_extract_iff (by decide)]

theorem reg2to0_eq_iff (w' w : Word) : reg2to0 w' = reg2to0 w ↔ AgreeOn (fieldMask 0 3) w' w := by
  rw [reg2to0, reg2to0, ofBits_eq_ofBits_iff, extract_eq_extract_iff (by decide)]

theorem immToggle_eq_iff (w' w : Word) : immToggle w' = immToggle w ↔ AgreeOn (fieldMask 5 1) w' w :=
  getLsbD_eq_getLsbD_iff (by decide) w' w

theorem jsrToggle_eq_iff (w' w : Word) : jsrToggle w' = jsrToggle w ↔ AgreeOn (fieldMask 11 1) w' w :=
  getLsbD_eq_getLsbD_iff (by decide) w' w

/-! The bits an instruction reads. -/

/-- The operand bits an instruction reads: the fields and the toggle bit of its format (rules R82, R83). -/
def operandMask (i : Instr) : Word :=
  match i with
  | .br _ _ _ _ => fieldMask 11 1 ||| fieldMask 10 1 ||| fieldMask 9 1 ||| fieldMask 0 9
  | .addReg _ _ _ | .andReg _ _ _ => fieldMask 5 1 ||| fieldMask 9 3 ||| fieldMask 6 3 ||| fieldMask 0 3
  | .addImm _ _ _ | .andImm _ _ _ => fieldMask 5 1 ||| fieldMask 9 3 ||| fieldMask 6 3 ||| fieldMask 0 5
  | .ld _ _ | .st _ _ | .ldi _ _ | .sti _ _ | .lea _ _ => fieldMask 9 3 ||| fieldMask 0 9
  | .jsr _ => fieldMask 11 1 ||| fieldMask 0 11
  | .jsrr _ => fieldMask 11 1 ||| fieldMask 6 3
  | .ldr _ _ _ | .str _ _ _ => fieldMask 9 3 ||| fieldMask 6 3 ||| fieldMask 0 6
  | .rti => 0
  | .not _ _ => fieldMask 9 3 ||| fieldMask 6 3
  | .jmp _ => fieldMask 6 3
  | .reserved _ => fieldMask 0 12
  | .trap _ => fieldMask 0 8

/-- A row of spec/opcode_table.json reads the opcode field and its operand bits. -/
theorem row_reads (i : Instr) : i.row.reads = fieldMask 12 4 ||| operandMask i := by
  cases i <;> simp [Instr.row, operandMask, fieldMask, place]

/-- Read under the same opcode, two words give the same instruction exactly when they agree on the operand
bits of the one that the second gives. -/
theorem decodeAs_eq_iff_agreeOn (o : Opcode) (w' w : Word) :
    decodeAs o w' = decodeAs o w ↔ AgreeOn (operandMask (decodeAs o w)) w' w := by
  cases o with
  | br =>
    simp only [decodeAs, operandMask, Instr.br.injEq, agreeOn_or, getLsbD_eq_getLsbD_iff,
      extract_eq_extract_iff, Nat.reduceLT, Nat.reduceAdd, Nat.reduceLeDiff, and_assoc]
  | ld | st | ldi | sti | lea =>
    simp [decodeAs, operandMask, reg11to9_eq_iff, extract_eq_extract_iff]
  | ldr | str =>
    simp [decodeAs, operandMask, reg11to9_eq_iff, reg8to6_eq_iff, extract_eq_extract_iff, and_assoc]
  | not => simp [decodeAs, operandMask, reg11to9_eq_iff, reg8to6_eq_iff]
  | jmp => simp [decodeAs, operandMask, reg8to6_eq_iff]
  | rti => simp [decodeAs, operandMask]
  | reserved | trap => simp [decodeAs, operandMask, extract_eq_extract_iff]
  | add | and =>
    -- the toggle bit is one of the bits read, and words that differ in it are read in different forms
    cases h : immToggle w <;> cases h' : immToggle w' <;>
      simp [decodeAs, operandMask, h, h', ← immToggle_eq_iff, reg11to9_eq_iff, reg8to6_eq_iff,
        reg2to0_eq_iff, extract_eq_extract_iff, and_assoc]
  | jsr =>
    cases h : jsrToggle w <;> cases h' : jsrToggle w' <;>
      simp [decodeAs, operandMask, h, h', ← jsrToggle_eq_iff, reg8to6_eq_iff, extract_eq_extract_iff]

/-- Two words decode alike exactly when their opcode fields are equal and their operands, read under that
opcode, are. -/
theorem decode_eq_decode_iff (w' w : Word) :
    decode w' = decode w ↔
      opcodeField w' = opcodeField w ∧
        decodeAs (opcodeAt (opcodeField w)) w' = decodeAs (opcodeAt (opcodeField w)) w := by
  rw [decode_eq_iff, decode_opcode, opcodeBits_opcodeAt, ← extract_eq_iff]
  rfl

/-- Settles O2: the opcode field and the operands are each read from their own bits. -/
theorem decodingReadsExactlyTheListedBits : Obligations.DecodingReadsExactlyTheListedBits := by
  intro w w'
  change _ ↔ AgreeOn (decode w).row.reads w' w
  rw [decode_eq_decode_iff, opcodeField_eq_iff, decodeAs_eq_iff_agreeOn, row_reads, agreeOn_or]
  rfl

/-! The reserved opcode. -/

/-- The reserved opcode's instructions are the ill-formed ones (rule R87). -/
theorem wellFormed_eq_false_iff (i : Instr) : i.wellFormed = false ↔ i.opcode = .reserved := by
  cases i <;> simp [Instr.wellFormed, Instr.opcode]

theorem opcodeAt_eq_iff (b : BitVec 4) (o : Opcode) : opcodeAt b = o ↔ b = opcodeBits o := by
  constructor
  · rintro rfl; exact (opcodeBits_opcodeAt b).symm
  · rintro rfl; exact opcodeAt_opcodeBits o

/-- The words with the reserved opcode field, as numbers. -/
theorem opcodeField_eq_reserved_iff (w : Word) :
    opcodeField w = 0xD#4 ↔ 0xD000 ≤ w.toNat ∧ w.toNat ≤ 0xDFFF := by
  have hw := w.isLt
  rw [opcodeField, extract_eq_iff, bitsAt]
  simp only [BitVec.toNat_ofNat]
  omega

/-- A word decodes to an ill-formed instruction exactly when it carries the reserved opcode. -/
theorem decode_wellFormed_eq_false_iff (w : Word) :
    (decode w).wellFormed = false ↔ 0xD000 ≤ w.toNat ∧ w.toNat ≤ 0xDFFF := by
  rw [wellFormed_eq_false_iff, decode_opcode, opcodeAt_eq_iff, ← opcodeField_eq_reserved_iff]
  rfl

/-- An ill-formed instruction raises UnknownInstruction with IR, and changes nothing (rule R104). -/
theorem exec_of_illFormed {i : Instr} (h : i.wellFormed = false) (s : State) :
    exec i s = .fault (.unknownInstruction s.ir 0xD s) := by
  cases i with
  | reserved any => rfl
  | _ => cases h

/-- A faulting LDI was refused one of its two reads. -/
theorem execLdi_fault {dr : Reg} {off : BitVec 9} {s : State} {f : Fault}
    (h : execLdi dr off s = .fault f) : ∃ a t, f = accessFault a t := by
  unfold execLdi at h
  split at h
  · next g hr => cases h; exact ⟨_, _, (memRead_error hr).2⟩
  · exact ⟨_, _, (loadFrom_fault h).2⟩

/-- A faulting STI was refused its read or its write. -/
theorem execSti_fault {sr : Reg} {off : BitVec 9} {s : State} {f : Fault}
    (h : execSti sr off s = .fault f) : ∃ a t, f = accessFault a t := by
  unfold execSti at h
  split at h
  · next g hr => cases h; exact ⟨_, _, (memRead_error hr).2⟩
  · exact ⟨_, _, (storeTo_fault h).2⟩

/-- A faulting TRAP was refused one of its accesses. -/
theorem execTrap_fault {v : BitVec 8} {s : State} {f : Fault} (h : execTrap v s = .fault f) :
    ∃ a t, f = accessFault a t := by
  unfold execTrap at h
  split at h
  · cases h
  · obtain ⟨a, -, hf⟩ := trapEntry_fault h
    exact ⟨_, _, hf⟩

/-- The one fault of a legal instruction is a refused memory access. -/
theorem exec_fault_of_wellFormed {i : Instr} (hi : i.wellFormed = true) {s : State} {f : Fault}
    (h : exec i s = .fault f) : ∃ a t, f = accessFault a t := by
  cases i with
  | br | addReg | addImm | andReg | andImm | not | lea | jsr | jsrr | jmp => cases h
  | ld | ldr => exact ⟨_, _, (loadFrom_fault h).2⟩
  | st | str => exact ⟨_, _, (storeTo_fault h).2⟩
  | ldi => exact execLdi_fault h
  | sti => exact execSti_fault h
  | trap => exact execTrap_fault h
  | rti =>
    obtain ⟨a, -, hf⟩ := trapReturn_fault h
    exact ⟨_, _, hf⟩
  | reserved => cases hi

/-- Only an ill-formed instruction raises UnknownInstruction. -/
theorem illFormed_of_exec_unknownInstruction {i : Instr} {s left : State} {ir : Word} {op : BitVec 4}
    (h : exec i s = .fault (.unknownInstruction ir op left)) : i.wellFormed = false := by
  rw [← Bool.not_eq_true]
  intro hi
  obtain ⟨a, t, hf⟩ := exec_fault_of_wellFormed hi h
  cases hf

/-- Settles O5, by what ill-formed and legal instructions raise. -/
theorem reservedPatternIsTheOnlyIllegalEncoding : Obligations.ReservedPatternIsTheOnlyIllegalEncoding :=
  fun w => ⟨decode_wellFormed_eq_false_iff w,
    fun s hlo hhi => exec_of_illFormed ((decode_wellFormed_eq_false_iff w).mpr ⟨hlo, hhi⟩) s,
    fun _ _ _ _ h => (decode_wellFormed_eq_false_iff w).mp (illFormed_of_exec_unknownInstruction h)⟩

end Sys2Proof.Machine
end

section
/-! The engine: where a Step stops before its fetch (rules R100, R101), what a Run can come to (rule R107)
and Stop (rule R108), with obligations O58, O43 and O59 assembled from them. -/

namespace Sys2Proof.Machine

/-! Steps that reach no instruction. -/

theorem step_of_halted {s : State} (h : s.halted = true) : step s = .next s := by
  rcases step_cases s with ⟨-, e⟩ | ⟨hh, -, -⟩ | ⟨hh, -, -⟩
  · exact e
  · simp [h] at hh
  · simp [h] at hh

theorem step_of_not_fetchable {s : State} (hh : s.halted = false) (hf : ¬ Fetchable s) :
    step s = .fault (.outOfBounds s.pc s) := by
  rcases step_cases s with ⟨h, -⟩ | ⟨-, -, e⟩ | ⟨-, h, -⟩
  · simp [hh] at h
  · exact e
  · exact absurd h hf

/-- Settles O43, by the cases of a step. -/
theorem stepStopsBeforeTheFetch : Obligations.StepStopsBeforeTheFetch :=
  fun _ => ⟨step_of_halted, step_of_not_fetchable⟩

/-! The loop of Run, by the tests of rule R107 in their order. -/

theorem runLoop_of_halted (n : Nat) {s : State} (h : s.halted = true) : runLoop n s = .next s := by
  unfold runLoop
  rw [if_pos h]

theorem runLoop_zero {s : State} (h : s.halted = false) :
    runLoop 0 s = .fault (.runawayProgram s.pc s) := by
  simp [runLoop, h]

theorem runLoop_of_step_next (k : Nat) {s u : State} (h : s.halted = false) (hs : step s = .next u) :
    runLoop (k + 1) s = runLoop k (u.setBudget k) := by
  rw [runLoop]
  simp [h, hs]

theorem runLoop_of_step_fault (k : Nat) {s : State} {f : Fault} (h : s.halted = false)
    (hs : step s = .fault f) : runLoop (k + 1) s = .fault f := by
  simp [runLoop, h, hs]

theorem runLoop_of_step_refused (k : Nat) {s : State} {r : Refusal} (h : s.halted = false)
    (hs : step s = .refused r) : runLoop (k + 1) s = .refused r := by
  simp [runLoop, h, hs]

/-! What a Run comes to: some steps, then one of four ends. -/

/-- How a Run that stands at `t` with `m` steps of budget left ends there. -/
inductive RunEnds (m : Nat) (t : State) : Host.Outcome State Fault Refusal → Prop where
  | halted (h : t.halted = true) : RunEnds m t (.next t)
  | exhausted (h : t.halted = false) (hm : m = 0) : RunEnds m t (.fault (.runawayProgram t.pc t))
  | fault {f : Fault} (h : t.halted = false) (hm : 0 < m) (hs : step t = .fault f) :
      RunEnds m t (.fault f)
  | refused {r : Refusal} (h : t.halted = false) (hm : 0 < m) (hs : step t = .refused r) :
      RunEnds m t (.refused r)

theorem runLoop_of_runEnds {m : Nat} {t : State} {o : Host.Outcome State Fault Refusal}
    (h : RunEnds m t o) : runLoop m t = o := by
  cases h with
  | halted h => exact runLoop_of_halted m h
  | exhausted h hm => subst hm; exact runLoop_zero h
  | fault h hm hs =>
    obtain ⟨k, rfl⟩ := Nat.exists_eq_add_one.mpr hm
    exact runLoop_of_step_fault k h hs
  | refused h hm hs =>
    obtain ⟨k, rfl⟩ := Nat.exists_eq_add_one.mpr hm
    exact runLoop_of_step_refused k h hs

/-- The loop follows the steps of a Run, each of which takes one off the budget. -/
theorem runLoop_of_runsTo {k m : Nat} {s t : State} (hb : s.budget = k + m) (h : RunsTo k s t) :
    runLoop (k + m) s = runLoop m t := by
  induction k generalizing s with
  | zero =>
    obtain rfl : s = t := h
    rw [Nat.zero_add]
  | succ k ih =>
    obtain ⟨u, hh, hs, hr⟩ := h
    have hk : s.budget - 1 = k + m := by omega
    rw [hk] at hr
    rw [Nat.add_right_comm, runLoop_of_step_next (k + m) hh hs]
    exact ih rfl hr

/-- Every Run stands, after some steps of its budget, at a state where it ends. -/
theorem exists_runEnds {n : Nat} {s : State} (hb : s.budget = n) :
    ∃ k m t, k + m = n ∧ RunsTo k s t ∧ RunEnds m t (runLoop n s) := by
  induction n generalizing s with
  | zero =>
    refine ⟨0, 0, s, rfl, rfl, ?_⟩
    cases hh : s.halted with
    | true => rw [runLoop_of_halted 0 hh]; exact .halted hh
    | false => rw [runLoop_zero hh]; exact .exhausted hh rfl
  | succ n ih =>
    cases hh : s.halted with
    | true => rw [runLoop_of_halted _ hh]; exact ⟨0, n + 1, s, by omega, rfl, .halted hh⟩
    | false =>
      cases hs : step s with
      | next u =>
        obtain ⟨k, m, t, hkm, hr, he⟩ := ih (s := u.setBudget n) rfl
        have hn : s.budget - 1 = n := by omega
        rw [runLoop_of_step_next n hh hs]
        exact ⟨k + 1, m, t, by omega, ⟨u, hh, hs, hn ▸ hr⟩, he⟩
      | fault f =>
        rw [runLoop_of_step_fault n hh hs]
        exact ⟨0, n + 1, s, by omega, rfl, .fault hh n.succ_pos hs⟩
      | refused r =>
        rw [runLoop_of_step_refused n hh hs]
        exact ⟨0, n + 1, s, by omega, rfl, .refused hh n.succ_pos hs⟩

/-- Everything a Run can come to, and nothing else. -/
theorem runLoop_eq_iff {n : Nat} {s : State} (hb : s.budget = n) (o : Host.Outcome State Fault Refusal) :
    runLoop n s = o ↔ ∃ k m t, k + m = n ∧ RunsTo k s t ∧ RunEnds m t o := by
  constructor
  · rintro rfl; exact exists_runEnds hb
  · rintro ⟨k, m, t, rfl, hr, he⟩
    rw [runLoop_of_runsTo hb hr, runLoop_of_runEnds he]

theorem runLoop_eq_next_iff {n : Nat} {s : State} (hb : s.budget = n) (t : State) :
    runLoop n s = .next t ↔ ∃ k, k ≤ n ∧ RunsTo k s t ∧ t.halted = true := by
  rw [runLoop_eq_iff hb]
  constructor
  · rintro ⟨k, m, t, hkm, hr, ⟨hh⟩⟩
    exact ⟨k, by omega, hr, hh⟩
  · rintro ⟨k, hk, hr, hh⟩
    exact ⟨k, n - k, t, by omega, hr, .halted hh⟩

theorem runLoop_eq_fault_iff {n : Nat} {s : State} (hb : s.budget = n) (f : Fault) :
    runLoop n s = .fault f ↔
      (∃ t, RunsTo n s t ∧ t.halted = false ∧ f = .runawayProgram t.pc t) ∨
      (∃ k t, k < n ∧ RunsTo k s t ∧ t.halted = false ∧ step t = .fault f) := by
  rw [runLoop_eq_iff hb]
  constructor
  · rintro ⟨k, m, t, rfl, hr, he⟩
    cases he with
    | exhausted hh hm => subst hm; exact Or.inl ⟨t, hr, hh, rfl⟩
    | fault hh hm hs => exact Or.inr ⟨k, t, by omega, hr, hh, hs⟩
  · rintro (⟨t, hr, hh, rfl⟩ | ⟨k, t, hk, hr, hh, hs⟩)
    · exact ⟨n, 0, t, rfl, hr, .exhausted hh rfl⟩
    · exact ⟨k, n - k, t, by omega, hr, .fault hh (by omega) hs⟩

/-- Settles O58: a Run is the loop from the full budget, and each outcome of the loop is an end some steps
lead to. -/
theorem runObeysItsBudget : Obligations.RunObeysItsBudget := by
  rintro s s0 rfl
  exact ⟨runLoop_eq_next_iff rfl, runLoop_eq_fault_iff rfl⟩

/-! Stop. -/

theorem stop_halted (s : State) : (stop s).halted = true := rfl

theorem stop_stop (s : State) : stop (stop s) = stop s := rfl

theorem run_of_halted {s : State} (h : s.halted = true) :
    run s = .next (s.setBudget s.cfg.executionLimit) :=
  runLoop_of_halted _ (s := s.setBudget s.cfg.executionLimit) h

/-- Settles O59: Stop writes `halted` and the timer alone, and a halted machine neither steps nor runs. -/
theorem stopHaltsAndIsIdempotent : Obligations.StopHaltsAndIsIdempotent := by
  intro s
  have hh : (stop s).halted = true := stop_halted s
  have hregs : SameRegisters s (stop s) := fun _ => rfl
  have hmem : SameMemory s (stop s) := fun _ => rfl
  exact ⟨hh, rfl, stop_stop s, hregs, hmem, ⟨rfl, rfl⟩, rfl, rfl, rfl, rfl, rfl, rfl, rfl, rfl, rfl,
    step_of_halted hh, run_of_halted hh⟩

end Sys2Proof.Machine
end

section
/-! Branch (rule R120): when a word decodes to BR, when a mask meets the condition code, and the one equation
of BR, with obligation O13 assembled from them. -/

namespace Sys2Proof.Machine

/-- The words that decode to a given BR, field by field (rules R82, R120). -/
theorem decode_eq_br_iff (n z p : Bool) (off : BitVec 9) (w : Word) :
    decode w = .br n z p off ↔ bitsAt w 12 4 = 0x0 ∧ bitsAt w 11 1 = n.toNat ∧
      bitsAt w 10 1 = z.toNat ∧ bitsAt w 9 1 = p.toNat ∧ bitsAt w 0 9 = off.toNat := by
  have hop : (opcodeBits (Instr.br n z p off).opcode).toNat = 0x0 := rfl
  have hfields : decodeAs (Instr.br n z p off).opcode w =
      .br (w.getLsbD 11) (w.getLsbD 10) (w.getLsbD 9) (w.extractLsb' 0 9) := rfl
  rw [decode_eq_iff, hop, hfields, Instr.br.injEq, extract_eq_iff]
  simp only [bitsAt_one_iff]

/-- The mask meets the condition code in the bit of that code (rule R120). -/
theorem branchTaken_iff (n z p : Bool) (c : CondCode) :
    branchTaken n z p c = true ↔ (n = true ∧ c = .N) ∨ (z = true ∧ c = .Z) ∨ (p = true ∧ c = .P) := by
  cases c <;> simp [branchTaken]

/-- BR writes PC alone, which a branch not taken writes with its own value. -/
theorem exec_br (n z p : Bool) (off : BitVec 9) (s : State) :
    exec (.br n z p off) s = .next (s.setPc
      (if branchTaken n z p s.cc = true then wrap (s.pc.toNat + off.toInt) else s.pc)) := by
  change execBr n z p off s = _
  unfold execBr pcRelative
  rw [add_sext_eq_wrap]
  split
  · rfl
  · rfl

theorem sameControl_setPc (s : State) (x : Word) : SameControl s (s.setPc x) :=
  ⟨rfl, rfl, rfl, rfl, rfl, rfl, rfl, rfl⟩

/-- Settles O13: BR is a write of PC, so the rest of the state stands, and its condition is the rule's. -/
theorem branchMovesPcWhenTheMaskMeetsCc : Obligations.BranchMovesPcWhenTheMaskMeetsCc := by
  intro n z p off s
  refine ⟨decode_eq_br_iff n z p off, _, exec_br n z p off s, ?_, rfl, rfl, fun _ => rfl,
    sameControl_setPc s _, fun _ => rfl, rfl, rfl⟩
  rw [State.setPc_pc]
  exact if_congr (branchTaken_iff n z p s.cc) rfl rfl

end Sys2Proof.Machine
end

section
/-! Arithmetic and logic (rules R130 to R132): the words that decode to ADD, AND and NOT, the one equation of
each form, and the written value in the terms of the claims, with obligations O14 to O16 assembled from
them. -/

namespace Sys2Proof.Machine

/-! Encoding. ADD and AND share their operand fields and their toggle bit (rules R82, R83). -/

theorem reg11to9_eq_iff_bitsAt (w : Word) (r : Reg) :
    reg11to9 w = r ↔ bitsAt w 9 3 = r.toBits.toNat :=
  ofBits_extract_eq_iff w 9 r

theorem reg8to6_eq_iff_bitsAt (w : Word) (r : Reg) :
    reg8to6 w = r ↔ bitsAt w 6 3 = r.toBits.toNat :=
  ofBits_extract_eq_iff w 6 r

theorem reg2to0_eq_iff_bitsAt (w : Word) (r : Reg) :
    reg2to0 w = r ↔ bitsAt w 0 3 = r.toBits.toNat :=
  ofBits_extract_eq_iff w 0 r

theorem immToggle_eq_iff_bitsAt (w : Word) (b : Bool) :
    immToggle w = b ↔ bitsAt w 5 1 = b.toNat :=
  (bitsAt_one_iff w 5 b).symm

/-- The fields of the register form as numbers. -/
theorem registerForm_iff (w : Word) (dr sr1 sr2 : Reg) :
    (immToggle w = false ∧ reg11to9 w = dr ∧ reg8to6 w = sr1 ∧ reg2to0 w = sr2) ↔
      bitsAt w 5 1 = 0 ∧ bitsAt w 9 3 = dr.toBits.toNat ∧ bitsAt w 6 3 = sr1.toBits.toNat ∧
        bitsAt w 0 3 = sr2.toBits.toNat := by
  rw [immToggle_eq_iff_bitsAt, reg11to9_eq_iff_bitsAt, reg8to6_eq_iff_bitsAt, reg2to0_eq_iff_bitsAt,
    Bool.toNat_false]

/-- The fields of the immediate form as numbers. -/
theorem immediateForm_iff (w : Word) (dr sr1 : Reg) (imm : BitVec 5) :
    (immToggle w = true ∧ reg11to9 w = dr ∧ reg8to6 w = sr1 ∧ w.extractLsb' 0 5 = imm) ↔
      bitsAt w 5 1 = 1 ∧ bitsAt w 9 3 = dr.toBits.toNat ∧ bitsAt w 6 3 = sr1.toBits.toNat ∧
        bitsAt w 0 5 = imm.toNat := by
  rw [immToggle_eq_iff_bitsAt, reg11to9_eq_iff_bitsAt, reg8to6_eq_iff_bitsAt, extract_eq_iff,
    Bool.toNat_true]

theorem decode_eq_addReg_iff (dr sr1 sr2 : Reg) (w : Word) :
    decode w = .addReg dr sr1 sr2 ↔ bitsAt w 12 4 = 0x1 ∧ bitsAt w 5 1 = 0 ∧
      bitsAt w 9 3 = dr.toBits.toNat ∧ bitsAt w 6 3 = sr1.toBits.toNat ∧
      bitsAt w 0 3 = sr2.toBits.toNat := by
  have hop : (opcodeBits (Instr.addReg dr sr1 sr2).opcode).toNat = 0x1 := rfl
  rw [decode_eq_iff, hop, ← registerForm_iff, Instr.opcode, decodeAs]
  cases immToggle w <;> simp

theorem decode_eq_addImm_iff (dr sr1 : Reg) (imm : BitVec 5) (w : Word) :
    decode w = .addImm dr sr1 imm ↔ bitsAt w 12 4 = 0x1 ∧ bitsAt w 5 1 = 1 ∧
      bitsAt w 9 3 = dr.toBits.toNat ∧ bitsAt w 6 3 = sr1.toBits.toNat ∧ bitsAt w 0 5 = imm.toNat := by
  have hop : (opcodeBits (Instr.addImm dr sr1 imm).opcode).toNat = 0x1 := rfl
  rw [decode_eq_iff, hop, ← immediateForm_iff, Instr.opcode, decodeAs]
  cases immToggle w <;> simp

theorem decode_eq_andReg_iff (dr sr1 sr2 : Reg) (w : Word) :
    decode w = .andReg dr sr1 sr2 ↔ bitsAt w 12 4 = 0x5 ∧ bitsAt w 5 1 = 0 ∧
      bitsAt w 9 3 = dr.toBits.toNat ∧ bitsAt w 6 3 = sr1.toBits.toNat ∧
      bitsAt w 0 3 = sr2.toBits.toNat := by
  have hop : (opcodeBits (Instr.andReg dr sr1 sr2).opcode).toNat = 0x5 := rfl
  rw [decode_eq_iff, hop, ← registerForm_iff, Instr.opcode, decodeAs]
  cases immToggle w <;> simp

theorem decode_eq_andImm_iff (dr sr1 : Reg) (imm : BitVec 5) (w : Word) :
    decode w = .andImm dr sr1 imm ↔ bitsAt w 12 4 = 0x5 ∧ bitsAt w 5 1 = 1 ∧
      bitsAt w 9 3 = dr.toBits.toNat ∧ bitsAt w 6 3 = sr1.toBits.toNat ∧ bitsAt w 0 5 = imm.toNat := by
  have hop : (opcodeBits (Instr.andImm dr sr1 imm).opcode).toNat = 0x5 := rfl
  rw [decode_eq_iff, hop, ← immediateForm_iff, Instr.opcode, decodeAs]
  cases immToggle w <;> simp

theorem decode_eq_not_iff (dr sr : Reg) (w : Word) :
    decode w = .not dr sr ↔ bitsAt w 12 4 = 0x9 ∧ bitsAt w 9 3 = dr.toBits.toNat ∧
      bitsAt w 6 3 = sr.toBits.toNat := by
  have hop : (opcodeBits (Instr.not dr sr).opcode).toNat = 0x9 := rfl
  have hfields : decodeAs (Instr.not dr sr).opcode w = .not (reg11to9 w) (reg8to6 w) := rfl
  rw [decode_eq_iff, hop, hfields, Instr.not.injEq, reg11to9_eq_iff_bitsAt, reg8to6_eq_iff_bitsAt]

/-! Execution: each form ends in the write of one result. -/

theorem exec_addReg (dr sr1 sr2 : Reg) (s : State) :
    exec (.addReg dr sr1 sr2) s = .next (writeResult dr (s.reg sr1 + s.reg sr2) s) := rfl

theorem exec_addImm (dr sr1 : Reg) (imm : BitVec 5) (s : State) :
    exec (.addImm dr sr1 imm) s = .next (writeResult dr (s.reg sr1 + sext imm) s) := rfl

theorem exec_andReg (dr sr1 sr2 : Reg) (s : State) :
    exec (.andReg dr sr1 sr2) s = .next (writeResult dr (s.reg sr1 &&& s.reg sr2) s) := rfl

theorem exec_andImm (dr sr1 : Reg) (imm : BitVec 5) (s : State) :
    exec (.andImm dr sr1 imm) s = .next (writeResult dr (s.reg sr1 &&& sext imm) s) := rfl

theorem exec_not (dr sr : Reg) (s : State) :
    exec (.not dr sr) s = .next (writeResult dr (~~~(s.reg sr)) s) := rfl

/-! The written values. -/

/-- The extension of an immediate keeps its bits and repeats bit 4 above them (rule R12). -/
theorem getLsbD_sext_imm5 (imm : BitVec 5) {k : Nat} (hk : k < 16) :
    (sext imm).getLsbD k = imm.getLsbD (min k 4) := by
  rcases Nat.lt_or_ge k 5 with h | h
  · rw [getLsbD_sext_of_lt imm (by omega) h, Nat.min_eq_left (by omega)]
  · rw [getLsbD_sext_of_ge imm h hk, Nat.min_eq_right (by omega)]

/-- Complementing a word subtracts it from the word of sixteen ones (rule R132). -/
theorem not_eq_ofNat_sub (w : Word) : ~~~w = BitVec.ofNat 16 (0xFFFF - w.toNat) := by
  apply BitVec.eq_of_toNat_eq
  rw [BitVec.toNat_not, BitVec.toNat_ofNat]
  omega

/-! The obligations. -/

/-- Settles O14: each form writes one result, the word sum, which is the wrapped sum of the numbers. -/
theorem addWritesTheWrappedSum : Obligations.AddWritesTheWrappedSum := by
  refine ⟨decode_eq_addReg_iff, decode_eq_addImm_iff, fun dr sr1 sr2 s => ?_, fun dr sr1 imm s => ?_⟩
  · rw [← BitVec.add_def]
    exact ⟨_, exec_addReg dr sr1 sr2 s, computes_writeResult dr _ s⟩
  · rw [← add_sext_eq_wrap]
    exact ⟨_, exec_addImm dr sr1 imm s, computes_writeResult dr _ s⟩

/-- Settles O15: each form writes one result, the word-wise and, whose bits are the ands of its operands' bits. -/
theorem andWritesTheBitwiseAnd : Obligations.AndWritesTheBitwiseAnd := by
  refine ⟨decode_eq_andReg_iff, decode_eq_andImm_iff, fun dr sr1 sr2 s => ?_, fun dr sr1 imm s => ?_⟩
  · exact ⟨_, _, exec_andReg dr sr1 sr2 s, computes_writeResult dr _ s, fun _ _ => BitVec.getLsbD_and⟩
  · refine ⟨_, _, exec_andImm dr sr1 imm s, computes_writeResult dr _ s, fun k hk => ?_⟩
    rw [BitVec.getLsbD_and, getLsbD_sext_imm5 imm hk]

/-- Settles O16: NOT writes one result, the complement, which is 0xFFFF minus the source. -/
theorem notWritesTheComplement : Obligations.NotWritesTheComplement := by
  intro dr sr s
  rw [← not_eq_ofNat_sub]
  exact ⟨decode_eq_not_iff dr sr, _, exec_not dr sr s, computes_writeResult dr _ s⟩

end Sys2Proof.Machine
end

section
/-! Loads (rules R140 to R143): the words that decode to LD, LDR, LDI and LEA, the two outcomes of a load from
an address, and the equation of each instruction, with obligations O17 to O20 assembled from them. -/

namespace Sys2Proof.Machine

/-! Encoding. -/

/-- The operand fields of the format of a register and a 9-bit offset, as numbers (rule R82). -/
theorem registerOffset9_iff (w : Word) (r : Reg) (off : BitVec 9) :
    (reg11to9 w = r ∧ w.extractLsb' 0 9 = off) ↔
      bitsAt w 9 3 = r.toBits.toNat ∧ bitsAt w 0 9 = off.toNat := by
  rw [reg11to9_eq_iff_bitsAt, extract_eq_iff]

theorem decode_eq_ld_iff (dr : Reg) (off : BitVec 9) (w : Word) :
    decode w = .ld dr off ↔ bitsAt w 12 4 = 0x2 ∧ bitsAt w 9 3 = dr.toBits.toNat ∧
      bitsAt w 0 9 = off.toNat := by
  have hop : (opcodeBits (Instr.ld dr off).opcode).toNat = 0x2 := rfl
  rw [decode_eq_iff, hop, ← registerOffset9_iff, Instr.opcode, decodeAs, Instr.ld.injEq]

theorem decode_eq_ldi_iff (dr : Reg) (off : BitVec 9) (w : Word) :
    decode w = .ldi dr off ↔ bitsAt w 12 4 = 0xA ∧ bitsAt w 9 3 = dr.toBits.toNat ∧
      bitsAt w 0 9 = off.toNat := by
  have hop : (opcodeBits (Instr.ldi dr off).opcode).toNat = 0xA := rfl
  rw [decode_eq_iff, hop, ← registerOffset9_iff, Instr.opcode, decodeAs, Instr.ldi.injEq]

theorem decode_eq_lea_iff (dr : Reg) (off : BitVec 9) (w : Word) :
    decode w = .lea dr off ↔ bitsAt w 12 4 = 0xE ∧ bitsAt w 9 3 = dr.toBits.toNat ∧
      bitsAt w 0 9 = off.toNat := by
  have hop : (opcodeBits (Instr.lea dr off).opcode).toNat = 0xE := rfl
  rw [decode_eq_iff, hop, ← registerOffset9_iff, Instr.opcode, decodeAs, Instr.lea.injEq]

theorem decode_eq_ldr_iff (dr b : Reg) (off : BitVec 6) (w : Word) :
    decode w = .ldr dr b off ↔ bitsAt w 12 4 = 0x6 ∧ bitsAt w 9 3 = dr.toBits.toNat ∧
      bitsAt w 6 3 = b.toBits.toNat ∧ bitsAt w 0 6 = off.toNat := by
  have hop : (opcodeBits (Instr.ldr dr b off).opcode).toNat = 0x6 := rfl
  rw [decode_eq_iff, hop, Instr.opcode, decodeAs, Instr.ldr.injEq, reg11to9_eq_iff_bitsAt,
    reg8to6_eq_iff_bitsAt, extract_eq_iff]

/-! A load from an address: `loadFrom_next` and `loadFrom_fault` say what its outcomes mean, these say which
one it has. -/

/-- A read of a refused 16-bit address is the fault alone. -/
theorem memRead_not_permitted {a : Word} {s : State} (h : ¬ Permitted s.cfg a) :
    memRead (a.toNat : Int) s = .error (accessFault (a.toNat : Int) s) :=
  memRead_of_permOK_false ((permOK_word_eq_false_iff s.cfg a).mpr h)

theorem loadFrom_permitted (dr : Reg) {ea : Word} {s : State} (h : Permitted s.cfg ea) :
    loadFrom dr ea s =
      .next (writeResult dr (readValue s ea) (s.setInQ (queueAfterRead s.inQ ea))) := by
  unfold loadFrom
  rw [memRead_permitted h]

theorem loadFrom_not_permitted (dr : Reg) {ea : Word} {s : State} (h : ¬ Permitted s.cfg ea) :
    loadFrom dr ea s = denied ea s := by
  unfold loadFrom
  rw [memRead_not_permitted h]
  rfl

/-- Writing the value read after taking the read's entry from the input queue is a load: the queue is the
one field in which a load's frame differs from a computation's. -/
theorem loads_writeResult (dr : Reg) (ea : Word) (s : State) :
    Loads dr ea s (writeResult dr (readValue s ea) (s.setInQ (queueAfterRead s.inQ ea))) := by
  obtain ⟨hreg, hcc, hpc, hdiag, hcontrol, hmem, hinQ, hlog⟩ :=
    computes_writeResult dr (readValue s ea) (s.setInQ (queueAfterRead s.inQ ea))
  exact ⟨hreg, hcc, hpc, hdiag, hcontrol, hmem, hinQ, hlog⟩

/-- A permitted load, in the terms of the claims. -/
theorem loadFrom_loads (dr : Reg) {ea : Word} {s : State} (h : Permitted s.cfg ea) :
    ∃ t, loadFrom dr ea s = .next t ∧ Loads dr ea s t :=
  ⟨_, loadFrom_permitted dr h, loads_writeResult dr ea s⟩

/-! Execution. -/

theorem exec_ld (dr : Reg) (off : BitVec 9) (s : State) :
    exec (.ld dr off) s = loadFrom dr (wrap (s.pc.toNat + off.toInt)) s := by
  rw [← add_sext_eq_wrap]
  rfl

theorem exec_ldr (dr b : Reg) (off : BitVec 6) (s : State) :
    exec (.ldr dr b off) s = loadFrom dr (wrap ((s.reg b).toNat + off.toInt)) s := by
  rw [← add_sext_eq_wrap]
  rfl

theorem exec_lea (dr : Reg) (off : BitVec 9) (s : State) :
    exec (.lea dr off) s = .next (s.setReg dr (wrap (s.pc.toNat + off.toInt))) := by
  rw [← add_sext_eq_wrap]
  rfl

/-- LDI with a permitted pointer address is a load at the pointer, from the state the pointer read leaves. -/
theorem exec_ldi_permitted (dr : Reg) {off : BitVec 9} {s : State}
    (h : Permitted s.cfg (wrap (s.pc.toNat + off.toInt))) :
    exec (.ldi dr off) s =
      loadFrom dr (readValue s (wrap (s.pc.toNat + off.toInt)))
        (s.setInQ (queueAfterRead s.inQ (wrap (s.pc.toNat + off.toInt)))) := by
  change execLdi dr off s = _
  unfold execLdi pcRelative
  rw [add_sext_eq_wrap, memRead_permitted h]

theorem exec_ldi_not_permitted (dr : Reg) {off : BitVec 9} {s : State}
    (h : ¬ Permitted s.cfg (wrap (s.pc.toNat + off.toInt))) :
    exec (.ldi dr off) s = denied (wrap (s.pc.toNat + off.toInt)) s := by
  change execLdi dr off s = _
  unfold execLdi pcRelative
  rw [add_sext_eq_wrap, memRead_not_permitted h]
  rfl

/-- The control state stands when a register is written. -/
theorem sameControl_setReg (s : State) (r : Reg) (v : Word) : SameControl s (s.setReg r v) :=
  ⟨rfl, rfl, rfl, rfl, rfl, rfl, rfl, rfl⟩

/-! The obligations. -/

/-- Settles O17: LD is a load at PC plus offset, with the two outcomes of a load. -/
theorem ldLoadsTheWordAtPcPlusOffset : Obligations.LdLoadsTheWordAtPcPlusOffset := by
  intro dr off s
  rw [exec_ld]
  exact ⟨decode_eq_ld_iff dr off, loadFrom_loads dr, loadFrom_not_permitted dr⟩

/-- Settles O18: LDR is a load at base plus offset, an address computed before DR is written. -/
theorem ldrLoadsTheWordAtBasePlusOffset : Obligations.LdrLoadsTheWordAtBasePlusOffset := by
  intro dr b off s
  rw [exec_ldr]
  exact ⟨decode_eq_ldr_iff dr b off, loadFrom_loads dr, loadFrom_not_permitted dr⟩

/-- Settles O19: past a permitted pointer read LDI is a load at the pointer, whose permission test reads the
configuration alone, which the pointer read keeps. -/
theorem ldiLoadsThroughThePointer : Obligations.LdiLoadsThroughThePointer := by
  rintro dr off s _ _ _ rfl rfl rfl
  refine ⟨decode_eq_ldi_iff dr off, exec_ldi_not_permitted dr, fun hpa hp => ?_, fun hpa hp => ?_⟩
  · rw [exec_ldi_permitted dr hpa]
    exact loadFrom_not_permitted dr hp
  · rw [exec_ldi_permitted dr hpa]
    exact loadFrom_loads dr hp

/-- Settles O20: LEA is the write of one register, which leaves every other field. -/
theorem leaWritesTheAddressAndKeepsCc : Obligations.LeaWritesTheAddressAndKeepsCc :=
  fun dr off s => ⟨decode_eq_lea_iff dr off, _, exec_lea dr off s, fun r => State.reg_setReg s dr r _,
    rfl, rfl, rfl, sameControl_setReg s dr _, fun _ => rfl, rfl, rfl⟩

end Sys2Proof.Machine
end

section
/-! Stores (rules R150 to R152): the words that decode to ST, STR and STI, the two outcomes of a store to an
address, and the equation of each instruction, with obligations O21 to O23 assembled from them. -/

namespace Sys2Proof.Machine

/-! Encoding: the formats of LD, LDR and LDI, with SR in the place of DR (rule R82). -/

theorem decode_eq_st_iff (sr : Reg) (off : BitVec 9) (w : Word) :
    decode w = .st sr off ↔ bitsAt w 12 4 = 0x3 ∧ bitsAt w 9 3 = sr.toBits.toNat ∧
      bitsAt w 0 9 = off.toNat := by
  have hop : (opcodeBits (Instr.st sr off).opcode).toNat = 0x3 := rfl
  rw [decode_eq_iff, hop, ← registerOffset9_iff, Instr.opcode, decodeAs, Instr.st.injEq]

theorem decode_eq_sti_iff (sr : Reg) (off : BitVec 9) (w : Word) :
    decode w = .sti sr off ↔ bitsAt w 12 4 = 0xB ∧ bitsAt w 9 3 = sr.toBits.toNat ∧
      bitsAt w 0 9 = off.toNat := by
  have hop : (opcodeBits (Instr.sti sr off).opcode).toNat = 0xB := rfl
  rw [decode_eq_iff, hop, ← registerOffset9_iff, Instr.opcode, decodeAs, Instr.sti.injEq]

theorem decode_eq_str_iff (sr b : Reg) (off : BitVec 6) (w : Word) :
    decode w = .str sr b off ↔ bitsAt w 12 4 = 0x7 ∧ bitsAt w 9 3 = sr.toBits.toNat ∧
      bitsAt w 6 3 = b.toBits.toNat ∧ bitsAt w 0 6 = off.toNat := by
  have hop : (opcodeBits (Instr.str sr b off).opcode).toNat = 0x7 := rfl
  rw [decode_eq_iff, hop, Instr.opcode, decodeAs, Instr.str.injEq, reg11to9_eq_iff_bitsAt,
    reg8to6_eq_iff_bitsAt, extract_eq_iff]

/-! A store to an address: `storeTo_next` and `storeTo_fault` say what its outcomes mean, these say which
one it has. -/

/-- A write to a refused 16-bit address is the fault alone. -/
theorem memWrite_not_permitted (v : Word) {a : Word} {s : State} (h : ¬ Permitted s.cfg a) :
    memWrite (a.toNat : Int) v s = .error (accessFault (a.toNat : Int) s) :=
  memWrite_of_permOK_false v ((permOK_word_eq_false_iff s.cfg a).mpr h)

/-- A permitted store, in the terms of the claims. -/
theorem storeTo_stores (v : Word) {ea : Word} {s : State} (h : Permitted s.cfg ea) :
    ∃ t, storeTo ea v s = .next t ∧ Stores ea v s t := by
  obtain ⟨t, hw, hstores⟩ := memWrite_permitted v h
  refine ⟨t, ?_, hstores⟩
  unfold storeTo
  rw [hw]

theorem storeTo_not_permitted (v : Word) {ea : Word} {s : State} (h : ¬ Permitted s.cfg ea) :
    storeTo ea v s = denied ea s := by
  unfold storeTo
  rw [memWrite_not_permitted v h]
  rfl

/-! Execution. -/

theorem exec_st (sr : Reg) (off : BitVec 9) (s : State) :
    exec (.st sr off) s = storeTo (wrap (s.pc.toNat + off.toInt)) (s.reg sr) s := by
  rw [← add_sext_eq_wrap]
  rfl

theorem exec_str (sr b : Reg) (off : BitVec 6) (s : State) :
    exec (.str sr b off) s = storeTo (wrap ((s.reg b).toNat + off.toInt)) (s.reg sr) s := by
  rw [← add_sext_eq_wrap]
  rfl

/-- STI with a permitted pointer address is a store at the pointer, from the state the pointer read leaves;
that read keeps the registers, so the stored value is the old x[SR]. -/
theorem exec_sti_permitted (sr : Reg) {off : BitVec 9} {s : State}
    (h : Permitted s.cfg (wrap (s.pc.toNat + off.toInt))) :
    exec (.sti sr off) s =
      storeTo (readValue s (wrap (s.pc.toNat + off.toInt))) (s.reg sr)
        (s.setInQ (queueAfterRead s.inQ (wrap (s.pc.toNat + off.toInt)))) := by
  change execSti sr off s = _
  unfold execSti pcRelative
  rw [add_sext_eq_wrap, memRead_permitted h]
  rfl

theorem exec_sti_not_permitted (sr : Reg) {off : BitVec 9} {s : State}
    (h : ¬ Permitted s.cfg (wrap (s.pc.toNat + off.toInt))) :
    exec (.sti sr off) s = denied (wrap (s.pc.toNat + off.toInt)) s := by
  change execSti sr off s = _
  unfold execSti pcRelative
  rw [add_sext_eq_wrap, memRead_not_permitted h]
  rfl

/-! The obligations. -/

/-- Settles O21: ST is a store at PC plus offset, with the two outcomes of a store. -/
theorem stStoresAtPcPlusOffset : Obligations.StStoresAtPcPlusOffset := by
  intro sr off s
  rw [exec_st]
  exact ⟨decode_eq_st_iff sr off, storeTo_stores (s.reg sr), storeTo_not_permitted (s.reg sr)⟩

/-- Settles O22: STR is a store at base plus offset; it writes no register, so SR may be the base. -/
theorem strStoresAtBasePlusOffset : Obligations.StrStoresAtBasePlusOffset := by
  intro sr b off s
  rw [exec_str]
  exact ⟨decode_eq_str_iff sr b off, storeTo_stores (s.reg sr), storeTo_not_permitted (s.reg sr)⟩

/-- Settles O23: past a permitted pointer read STI is a store at the pointer, whose permission test reads the
configuration alone, which the pointer read keeps. -/
theorem stiStoresThroughThePointer : Obligations.StiStoresThroughThePointer := by
  rintro sr off s _ _ _ rfl rfl rfl
  refine ⟨decode_eq_sti_iff sr off, exec_sti_not_permitted sr, fun hpa hp => ?_, fun hpa hp => ?_⟩
  · rw [exec_sti_permitted sr hpa]
    exact storeTo_not_permitted (s.reg sr) hp
  · rw [exec_sti_permitted sr hpa]
    exact storeTo_stores (s.reg sr) hp

end Sys2Proof.Machine
end

section
/-! Control transfer (rules R160 to R162): the words that decode to JSR, JSRR and JMP, the effect and frame of
the one call behind JSR and JSRR and of the jump behind JMP, with obligations O24 to O26 assembled from them. -/

namespace Sys2Proof.Machine

/-! Encoding. JSR and JSRR share an opcode and are told apart by bit 11 (rules R82, R83). -/

theorem jsrToggle_eq_iff_bitsAt (w : Word) (b : Bool) :
    jsrToggle w = b ↔ bitsAt w 11 1 = b.toNat :=
  (bitsAt_one_iff w 11 b).symm

theorem decode_eq_jsr_iff (off : BitVec 11) (w : Word) :
    decode w = .jsr off ↔ bitsAt w 12 4 = 0x4 ∧ bitsAt w 11 1 = 1 ∧ bitsAt w 0 11 = off.toNat := by
  have hop : (opcodeBits (Instr.jsr off).opcode).toNat = 0x4 := rfl
  have hset : jsrToggle w = true ↔ bitsAt w 11 1 = 1 := jsrToggle_eq_iff_bitsAt w true
  rw [decode_eq_iff, hop, ← hset, ← extract_eq_iff, Instr.opcode, decodeAs]
  cases jsrToggle w <;> simp

theorem decode_eq_jsrr_iff (b : Reg) (w : Word) :
    decode w = .jsrr b ↔ bitsAt w 12 4 = 0x4 ∧ bitsAt w 11 1 = 0 ∧ bitsAt w 6 3 = b.toBits.toNat := by
  have hop : (opcodeBits (Instr.jsrr b).opcode).toNat = 0x4 := rfl
  have hclear : jsrToggle w = false ↔ bitsAt w 11 1 = 0 := jsrToggle_eq_iff_bitsAt w false
  rw [decode_eq_iff, hop, ← hclear, ← reg8to6_eq_iff_bitsAt, Instr.opcode, decodeAs]
  cases jsrToggle w <;> simp

theorem decode_eq_jmp_iff (b : Reg) (w : Word) :
    decode w = .jmp b ↔ bitsAt w 12 4 = 0xC ∧ bitsAt w 6 3 = b.toBits.toNat := by
  have hop : (opcodeBits (Instr.jmp b).opcode).toNat = 0xC := rfl
  rw [decode_eq_iff, hop, ← reg8to6_eq_iff_bitsAt, Instr.opcode, decodeAs, Instr.jmp.injEq]

/-! Calls. -/

/-- Effect and frame of a call to `target`: the return address in R7 and on the diagnostic call stack. -/
def Calls (target : Word) (s t : State) : Prop :=
  OnlyRegister .r7 s.pc s t ∧ t.pc = target ∧ t.diag = s.diag ++ [s.pc] ∧ t.cc = s.cc ∧
    SameControl s t ∧ SameMemory s t ∧ SameDevices s t

/-- A call raises nothing: its target is tested by the next fetch only. -/
theorem callTo_calls (target : Word) (s : State) : ∃ t, callTo target s = .next t ∧ Calls target s t :=
  ⟨_, rfl, fun r => State.reg_setReg (s.setDiag (s.diag ++ [s.pc])) .r7 r s.pc, rfl, rfl, rfl,
    ⟨rfl, rfl, rfl, rfl, rfl, rfl, rfl, rfl⟩, fun _ => rfl, rfl, rfl⟩

theorem exec_jsr (off : BitVec 11) (s : State) :
    exec (.jsr off) s = callTo (wrap (s.pc.toNat + off.toInt)) s := by
  rw [← add_sext_eq_wrap]
  rfl

theorem exec_jsrr (b : Reg) (s : State) : exec (.jsrr b) s = callTo (s.reg b) s := rfl

/-! Jumps. -/

/-- The diagnostic call stack after a jump through a register: a jump through R7 drops the last entry. -/
def diagAfterJump (b : Reg) (d : List Word) : List Word := if b = .r7 then d.dropLast else d

theorem diagAfterJump_of_ne {b : Reg} (h : b ≠ .r7) (d : List Word) : diagAfterJump b d = d := if_neg h

theorem diagAfterJump_r7_nil : diagAfterJump .r7 [] = [] := rfl

theorem diagAfterJump_r7_append (d : List Word) (x : Word) : diagAfterJump .r7 (d ++ [x]) = d :=
  List.dropLast_concat

theorem exec_jmp (b : Reg) (s : State) :
    exec (.jmp b) s = .next ((s.setPc (s.reg b)).setDiag (diagAfterJump b s.diag)) := rfl

/-! The obligations. -/

/-- Settles O24: JSR is a call to PC plus offset. -/
theorem jsrLinksAndJumps : Obligations.JsrLinksAndJumps := by
  intro off s
  rw [exec_jsr]
  exact ⟨decode_eq_jsr_iff off, callTo_calls _ s⟩

/-- Settles O25: JSRR is a call to the base register's value, read before the call writes R7. -/
theorem jsrrLinksAndJumpsThroughTheOldBase : Obligations.JsrrLinksAndJumpsThroughTheOldBase := by
  intro b s
  rw [exec_jsrr]
  exact ⟨decode_eq_jsrr_iff b, callTo_calls _ s⟩

/-- Settles O26: JMP writes PC and the diagnostic call stack alone, and what it leaves of that stack is read
off case by case. -/
theorem jmpTakesTheBaseAndReturnPops : Obligations.JmpTakesTheBaseAndReturnPops := by
  intro b s
  refine ⟨decode_eq_jmp_iff b, _, exec_jmp b s, rfl, fun hb => diagAfterJump_of_ne hb s.diag, ?_, ?_,
    fun _ => rfl, rfl, ⟨rfl, rfl, rfl, rfl, rfl, rfl, rfl, rfl⟩, fun _ => rfl, rfl, rfl⟩
  · rintro rfl hempty
    rw [State.setDiag_diag, hempty, diagAfterJump_r7_nil]
  · rintro d x rfl hlast
    rw [State.setDiag_diag, hlast, diagAfterJump_r7_append]

end Sys2Proof.Machine
end

section
/-! System instructions (rules R171 to R173): the words that decode to TRAP and RTI, the order of the
permission tests that come before the first access of each, and what each does past them, with obligations
O28, O29 and O31 assembled from them. -/

namespace Sys2Proof.Machine

/-! Encoding. -/

theorem decode_eq_trap_iff (vect : BitVec 8) (w : Word) :
    decode w = .trap vect ↔ bitsAt w 12 4 = 0xF ∧ bitsAt w 0 8 = vect.toNat := by
  have hop : (opcodeBits (Instr.trap vect).opcode).toNat = 0xF := rfl
  rw [decode_eq_iff, hop, Instr.opcode, decodeAs, Instr.trap.injEq, extract_eq_iff]

/-- RTI has no operand: its opcode alone decides (rules R83, R173). -/
theorem decode_eq_rti_iff (w : Word) : decode w = .rti ↔ bitsAt w 12 4 = 0x8 := by
  have hop : (opcodeBits Instr.rti.opcode).toNat = 0x8 := rfl
  rw [decode_eq_iff, hop]
  exact and_iff_left rfl

/-! The tests before the first access, in their order (rule R170). -/

theorem firstDenied_nil (cfg : Config) : firstDenied cfg [] = none := rfl

theorem firstDenied_cons_permitted {cfg : Config} {a : Word} (h : Permitted cfg a) (as : List Word) :
    firstDenied cfg (a :: as) = firstDenied cfg as := by
  unfold firstDenied
  rw [List.find?_cons, (permOK_word_iff cfg a).mpr h]
  rfl

theorem firstDenied_cons_not_permitted {cfg : Config} {a : Word} (h : ¬ Permitted cfg a)
    (as : List Word) : firstDenied cfg (a :: as) = some a := by
  unfold firstDenied
  rw [List.find?_cons, (permOK_word_eq_false_iff cfg a).mpr h]
  rfl

/-! TRAP. -/

theorem exec_trap_halt (s : State) :
    exec (.trap s.cfg.haltVector) s = .next (s.setHalted true) := by
  change execTrap s.cfg.haltVector s = _
  unfold execTrap
  rw [if_pos rfl]

theorem exec_trap_of_ne {vect : BitVec 8} {s : State} (h : vect ≠ s.cfg.haltVector) :
    exec (.trap vect) s = trapEntry vect s := by
  change execTrap vect s = _
  unfold execTrap
  rw [if_neg h]

theorem trapEntry_denied {vect : BitVec 8} {s : State} {a : Word}
    (h : firstDenied s.cfg [trapStack s - 1, trapStack s - 2, trapTableEntry vect] = some a) :
    trapEntry vect s = denied a s := by
  unfold trapEntry
  rw [h]
  rfl

/-- The trap-vector table lies below the device registers, so reading an entry is reading its word. -/
theorem memRead_trapTableEntry {vect : BitVec 8} {s : State}
    (h : Permitted s.cfg (trapTableEntry vect)) :
    memRead ((trapTableEntry vect).toNat : Int) s =
      .ok (s.mem.read (trapTableEntry vect).toNat, s) := by
  have hlow : (trapTableEntry vect).toNat < 0xFE00 := by
    rw [trapTableEntry_toNat]
    have := vect.isLt
    omega
  obtain ⟨hvalue, hqueue⟩ := readValue_plain s (Or.inl hlow)
  rw [memRead_permitted h, hvalue, hqueue, setInQ_self]

/-- A trap entry past its tests: the store of PC, the store of the status word, then the register writes.
The table is read after the stores, which may have changed it. -/
theorem trapEntry_permitted {vect : BitVec 8} {s : State} (h1 : Permitted s.cfg (trapStack s - 1))
    (h2 : Permitted s.cfg (trapStack s - 2)) (h3 : Permitted s.cfg (trapTableEntry vect)) :
    ∃ s1 s2, Stores (trapStack s - 1) s.pc s s1 ∧
      Stores (trapStack s - 2) (statusWord s.mode) s1 s2 ∧
      trapEntry vect s = .next
        (enterSupervisor (trapStack s - 2) (s2.mem.read (trapTableEntry vect).toNat) s2) := by
  have htests : firstDenied s.cfg [trapStack s - 1, trapStack s - 2, trapTableEntry vect] = none := by
    rw [firstDenied_cons_permitted h1, firstDenied_cons_permitted h2, firstDenied_cons_permitted h3,
      firstDenied_nil]
  obtain ⟨s1, hw1, hs1⟩ := memWrite_permitted s.pc h1
  have hcfg1 : s1.cfg = s.cfg := (memWrite_same hw1).1
  rw [← hcfg1] at h2
  obtain ⟨s2, hw2, hs2⟩ := memWrite_permitted (statusWord s.mode) h2
  have hcfg2 : s2.cfg = s.cfg := (memWrite_same hw2).1.trans hcfg1
  rw [← hcfg2] at h3
  refine ⟨s1, s2, hs1, hs2, ?_⟩
  unfold trapEntry
  simp only [htests, hw1, hw2, memRead_trapTableEntry h3]

/-- What a store appends to the output log. -/
theorem Stores.outLog_eq {ea v : Word} {s t : State} (h : Stores ea v s t) :
    t.outLog = s.outLog ++ if ea = 0xFE06#16 then [v] else [] := by
  obtain ⟨-, hlog, -⟩ := h
  rw [hlog]
  split
  · rfl
  · rw [List.append_nil]

/-! RTI. -/

theorem exec_rti (s : State) : exec .rti s = trapReturn s := rfl

theorem trapReturn_denied {s : State} {a : Word}
    (h : firstDenied s.cfg [s.reg .r6, s.reg .r6 + 1] = some a) : trapReturn s = denied a s := by
  unfold trapReturn
  rw [h]
  rfl

/-- Reading an address does not change what the next one answers: only KBDR takes from the input queue, and
the address after it is plain memory. -/
theorem readValue_succ_after_read (s : State) (a : Word) :
    readValue (s.setInQ (queueAfterRead s.inQ a)) (a + 1) = readValue s (a + 1) := by
  by_cases ha : a = 0xFE02#16
  · subst ha
    rfl
  · rw [queueAfterRead, if_neg ha, setInQ_self]

/-- A trap return past its tests: two reads, the status word and then PC, and the register writes. -/
theorem trapReturn_permitted {s : State} (h1 : Permitted s.cfg (s.reg .r6))
    (h2 : Permitted s.cfg (s.reg .r6 + 1)) :
    trapReturn s = .next (leaveTrap (s.reg .r6 + 2) (readValue s (s.reg .r6))
      (readValue s (s.reg .r6 + 1))
      (s.setInQ (queueAfterRead (queueAfterRead s.inQ (s.reg .r6)) (s.reg .r6 + 1)))) := by
  have htests : firstDenied s.cfg [s.reg .r6, s.reg .r6 + 1] = none := by
    rw [firstDenied_cons_permitted h1, firstDenied_cons_permitted h2, firstDenied_nil]
  have hread := memRead_permitted (s := s.setInQ (queueAfterRead s.inQ (s.reg .r6))) h2
  rw [readValue_succ_after_read] at hread
  unfold trapReturn
  simp only [htests, memRead_permitted h1, hread]
  rfl

theorem modeOfStatus_of_lt {w : Word} (h : w.toNat < 0x8000) : modeOfStatus w = .supervisor := by
  rw [modeOfStatus_eq, if_neg (Nat.not_le.mpr h)]

theorem modeOfStatus_of_le {w : Word} (h : 0x8000 ≤ w.toNat) : modeOfStatus w = .user := by
  rw [modeOfStatus_eq, if_pos h]

theorem leaveTrap_supervisor {status : Word} (h : status.toNat < 0x8000) (top target : Word)
    (s : State) :
    (leaveTrap top status target s).mode = .supervisor ∧
      OnlyRegister .r6 top s (leaveTrap top status target s) ∧
      (leaveTrap top status target s).savedSSP = s.savedSSP := by
  have hne : ¬ modeOfStatus status = .user := by
    rw [modeOfStatus_of_lt h]
    decide
  refine ⟨?_, fun r => ?_, ?_⟩
  · rw [leaveTrap_mode, modeOfStatus_of_lt h]
  · rw [leaveTrap_reg, if_neg hne]
  · rw [leaveTrap_savedSSP, if_neg hne]

theorem leaveTrap_user {status : Word} (h : 0x8000 ≤ status.toNat) (top target : Word) (s : State) :
    (leaveTrap top status target s).mode = .user ∧
      OnlyRegister .r6 s.savedUSP s (leaveTrap top status target s) ∧
      (leaveTrap top status target s).savedSSP = top := by
  have hmode := modeOfStatus_of_le h
  refine ⟨?_, fun r => ?_, ?_⟩
  · rw [leaveTrap_mode, hmode]
  · rw [leaveTrap_reg, if_pos hmode]
  · rw [leaveTrap_savedSSP, if_pos hmode]

/-! The obligations. -/

/-- Settles O28: HALT is the write of one field. -/
theorem haltTrapOnlySetsHalted : Obligations.HaltTrapOnlySetsHalted :=
  fun s => ⟨decode_eq_trap_iff s.cfg.haltVector, _, exec_trap_halt s, rfl, rfl, rfl, rfl, fun _ => rfl,
    fun _ => rfl, ⟨rfl, rfl⟩, rfl, rfl, rfl, rfl, rfl, rfl, rfl⟩

/-- Settles O29: the first refused address of the three is the fault; past the tests the entry is two stores
in sequence, whose frames compose, and the register writes that end it. -/
theorem trapEntersSupervisorMode : Obligations.TrapEntersSupervisorMode := by
  rintro vect s sp0 a1 a2 tvec hne hsp0 ha1 ha2 htvec
  obtain rfl : sp0 = trapStack s := hsp0
  obtain rfl : a1 = trapStack s - 1 := ha1.trans (wrap_toNat_sub _ 1)
  obtain rfl : a2 = trapStack s - 2 := ha2.trans (wrap_toNat_sub _ 2)
  obtain rfl : tvec = trapTableEntry vect := htvec.trans (trapTableEntry_eq vect).symm
  rw [exec_trap_of_ne hne, ← statusWord_eq]
  refine ⟨decode_eq_trap_iff vect, fun h1 => ?_, fun h1 h2 => ?_, fun h1 h2 h3 => ?_,
    fun h1 h2 h3 => ?_⟩
  · exact trapEntry_denied (firstDenied_cons_not_permitted h1 _)
  · apply trapEntry_denied
    rw [firstDenied_cons_permitted h1, firstDenied_cons_not_permitted h2]
  · apply trapEntry_denied
    rw [firstDenied_cons_permitted h1, firstDenied_cons_permitted h2,
      firstDenied_cons_not_permitted h3]
  · obtain ⟨s1, s2, hs1, hs2, hentry⟩ := trapEntry_permitted h1 h2 h3
    have hlog1 := hs1.outLog_eq
    have hlog2 := hs2.outLog_eq
    obtain ⟨hmem1, -, hinQ1, hreg1, hcc1, -, hdiag1, hcfg1, hir1, hmode1, husp1, hssp1, hhalted1,
      hbudget1, htimer1⟩ := hs1
    obtain ⟨hmem2, -, hinQ2, hreg2, hcc2, -, hdiag2, hcfg2, hir2, hmode2, husp2, hssp2, hhalted2,
      hbudget2, htimer2⟩ := hs2
    refine ⟨_, hentry, fun r => ?_, rfl, rfl, ?_, hssp2.trans hssp1, fun a => ?_, ?_,
      hinQ2.trans hinQ1, hcc2.trans hcc1, hdiag2.trans hdiag1, hcfg2.trans hcfg1, hir2.trans hir1,
      hhalted2.trans hhalted1, hbudget2.trans hbudget1, htimer2.trans htimer1⟩
    · rw [enterSupervisor_reg, hreg2, hreg1]
    · rw [enterSupervisor_savedUSP, hmode2, hmode1, hreg2, hreg1, husp2, husp1]
    · rw [enterSupervisor_mem, hmem2, hmem1]
    · rw [enterSupervisor_outLog, hlog2, hlog1]

/-- Settles O31: the first refused address of the two is the fault; past the tests the return is two reads,
of which only one at KBDR changes the state, and the register writes that the status word selects. -/
theorem rtiPopsStatusAndPc : Obligations.RtiPopsStatusAndPc := by
  rintro s a1 a2 top status rfl ha2 htop rfl
  obtain rfl : a2 = s.reg .r6 + 1 := ha2.trans (wrap_toNat_add _ 1)
  obtain rfl : top = s.reg .r6 + 2 := htop.trans (wrap_toNat_add _ 2)
  rw [exec_rti]
  refine ⟨decode_eq_rti_iff, fun h1 => ?_, fun h1 h2 => ?_, fun h1 h2 => ?_⟩
  · exact trapReturn_denied (firstDenied_cons_not_permitted h1 _)
  · apply trapReturn_denied
    rw [firstDenied_cons_permitted h1, firstDenied_cons_not_permitted h2]
  · exact ⟨_, trapReturn_permitted h1 h2, leaveTrap_pc .., fun h => leaveTrap_supervisor h _ _ _,
      fun h => leaveTrap_user h _ _ _, leaveTrap_savedUSP .., fun a => by rw [leaveTrap_mem]; rfl,
      leaveTrap_outLog .., leaveTrap_inQ .., leaveTrap_cc .., leaveTrap_diag .., leaveTrap_cfg ..,
      leaveTrap_ir .., leaveTrap_halted .., leaveTrap_budget .., leaveTrap_timer ..⟩

end Sys2Proof.Machine
end

section
/-! Encoding, from instructions to words. A field placed in the zero bits of a word adds its value times its
place (rules R83, R93), which gives the canonical word of each instruction as a number: obligation O4. The
fields are then read back from that number: obligation O1. A word matches a table row when it agrees on the
row's fixed bits with a canonical word of the row: obligation O3. Fixed words of the vectors: obligation O6. -/

namespace Sys2Proof.Machine

/-! Fields as numbers. -/

/-- A field that fits above its place is worth its value times the place. -/
theorem toNat_place {n : Nat} (f : BitVec n) {lo : Nat} (h : lo + n ≤ 16) :
    (place f lo).toNat = f.toNat * 2 ^ lo := by
  have hlt : f.toNat * 2 ^ lo < 2 ^ 16 :=
    calc f.toNat * 2 ^ lo < 2 ^ n * 2 ^ lo := Nat.mul_lt_mul_of_pos_right f.isLt (Nat.two_pow_pos lo)
      _ = 2 ^ (lo + n) := by rw [Nat.mul_comm, ← Nat.pow_add]
      _ ≤ 2 ^ 16 := Nat.pow_le_pow_right Nat.two_pos h
  unfold place
  rw [BitVec.toNat_shiftLeft, BitVec.toNat_setWidth_of_le (by omega), Nat.shiftLeft_eq, Nat.mod_eq_of_lt hlt]

/-- A field placed below every set bit of a word adds to its number. -/
theorem toNat_or_place {n lo x : Nat} {w : Word} (hw : w.toNat = x) (f : BitVec n) (h : lo + n ≤ 16)
    (hx : 2 ^ (lo + n) ∣ x) : (w ||| place f lo).toNat = x + f.toNat * 2 ^ lo := by
  obtain ⟨k, rfl⟩ := hx
  have hlt : f.toNat * 2 ^ lo < 2 ^ (lo + n) := by
    rw [Nat.pow_add, Nat.mul_comm]
    exact Nat.mul_lt_mul_of_pos_left f.isLt (Nat.two_pow_pos lo)
  rw [BitVec.toNat_or, hw, toNat_place f h, Nat.two_pow_add_eq_or_of_lt hlt]

/-- A last field at bit 0. -/
theorem toNat_or_place_zero {n x : Nat} {w : Word} (hw : w.toNat = x) (f : BitVec n) (h : n ≤ 16)
    (hx : 2 ^ n ∣ x) : (w ||| place f 0).toNat = x + f.toNat := by
  have hsum := toNat_or_place hw f (lo := 0) (by omega) (by rwa [Nat.zero_add])
  rwa [Nat.pow_zero, Nat.mul_one] at hsum

/-! The formats of rule R83, from the opcode down: `op` is the opcode's place in the number. -/

section
variable {i : Instr} (o : Opcode) {op : Nat} (ho : i.opcode = o) (hop : (opcodeBits o).toNat * 4096 = op)
include ho hop

/-- The opcode above an empty operand field. -/
theorem toNat_opcodePlace : (place (opcodeBits i.opcode) 12).toNat = op :=
  ho ▸ (toNat_place _ (by decide)).trans hop

/-- The opcode and a register in bits 11:9. -/
theorem toNat_opcode_reg (r : Reg) :
    (place (opcodeBits i.opcode) 12 ||| place r.toBits 9).toNat = op + r.toBits.toNat * 512 :=
  toNat_or_place (toNat_opcodePlace o ho hop) r.toBits (by decide) (by omega)

/-- The opcode and the registers in bits 11:9 and 8:6. -/
theorem toNat_opcode_reg_reg (r q : Reg) :
    (place (opcodeBits i.opcode) 12 ||| place r.toBits 9 ||| place q.toBits 6).toNat =
      op + r.toBits.toNat * 512 + q.toBits.toNat * 64 :=
  toNat_or_place (toNat_opcode_reg o ho hop r) q.toBits (by decide) (by omega)

/-- A register and a 9-bit offset: LD, LDI, LEA, ST and STI. -/
theorem toNat_encode_registerOffset9 {r : Reg} {off : BitVec 9}
    (hi : operandBits i = place r.toBits 9 ||| place off 0) :
    (encode i).toNat = op + r.toBits.toNat * 512 + off.toNat := by
  rw [encode, hi, ← BitVec.or_assoc]
  exact toNat_or_place_zero (toNat_opcode_reg o ho hop r) off (by decide) (by omega)

/-- Two registers and a last field of at most 6 bits: LDR, STR, NOT, and ADD and AND between registers. -/
theorem toNat_encode_registersField {r q : Reg} {n : Nat} {f : BitVec n}
    (hi : operandBits i = place r.toBits 9 ||| place q.toBits 6 ||| place f 0) (hn : n ≤ 6) :
    (encode i).toNat = op + r.toBits.toNat * 512 + q.toBits.toNat * 64 + f.toNat := by
  have hdvd : 2 ^ n ∣ 2 ^ 6 := Nat.pow_dvd_pow 2 hn
  rw [encode, hi, ← BitVec.or_assoc, ← BitVec.or_assoc]
  exact toNat_or_place_zero (toNat_opcode_reg_reg o ho hop r q) f (by omega) (hdvd.trans (by omega))

/-- Two registers, the toggle bit and an immediate: ADD and AND with an immediate. -/
theorem toNat_encode_registersImm5 {r q : Reg} {imm : BitVec 5}
    (hi : operandBits i = place r.toBits 9 ||| place q.toBits 6 ||| place 1#1 5 ||| place imm 0) :
    (encode i).toNat = op + 32 + r.toBits.toNat * 512 + q.toBits.toNat * 64 + imm.toNat := by
  have htoggle : (place (opcodeBits i.opcode) 12 ||| place r.toBits 9 ||| place q.toBits 6 |||
      place 1#1 5).toNat = op + r.toBits.toNat * 512 + q.toBits.toNat * 64 + 32 :=
    toNat_or_place (toNat_opcode_reg_reg o ho hop r q) 1#1 (by decide) (by omega)
  have hsum := toNat_or_place_zero htoggle imm (by decide) (by omega)
  rw [encode, hi, ← BitVec.or_assoc, ← BitVec.or_assoc, ← BitVec.or_assoc]
  omega

/-- One register in bits 8:6: JSRR and JMP. -/
theorem toNat_encode_base {b : Reg} (hi : operandBits i = place b.toBits 6) :
    (encode i).toNat = op + b.toBits.toNat * 64 := by
  rw [encode, hi]
  exact toNat_or_place (toNat_opcodePlace o ho hop) b.toBits (by decide) (by omega)

/-- One field at bit 0: TRAP and the reserved opcode. -/
theorem toNat_encode_field {n : Nat} {f : BitVec n} (hi : operandBits i = place f 0)
    (hn : n ≤ 12) : (encode i).toNat = op + f.toNat := by
  have hdvd : 2 ^ n ∣ 2 ^ 12 := Nat.pow_dvd_pow 2 hn
  rw [encode, hi]
  exact toNat_or_place_zero (toNat_opcodePlace o ho hop) f (by omega) (hdvd.trans (by omega))

/-- The toggle bit 11 and an 11-bit offset: JSR. -/
theorem toNat_encode_toggleOffset11 {off : BitVec 11} (hi : operandBits i = place 1#1 11 ||| place off 0) :
    (encode i).toNat = op + 2048 + off.toNat := by
  have htoggle : (place (opcodeBits i.opcode) 12 ||| place 1#1 11).toNat = op + 2048 :=
    toNat_or_place (toNat_opcodePlace o ho hop) 1#1 (by decide) (by omega)
  rw [encode, hi, ← BitVec.or_assoc]
  exact toNat_or_place_zero htoggle off (by decide) (by omega)

end

/-- Three mask bits and a 9-bit offset: BR, whose opcode is 0. -/
theorem toNat_encode_br (n z p : Bool) (off : BitVec 9) :
    (encode (.br n z p off)).toNat = n.toNat * 2048 + z.toNat * 1024 + p.toNat * 512 + off.toNat := by
  have hop : (place (opcodeBits (Instr.br n z p off).opcode) 12).toNat = 0 :=
    toNat_opcodePlace .br rfl rfl
  have hn := toNat_or_place hop (lo := 11) (BitVec.ofBool n) (by decide) (by decide)
  have hz := toNat_or_place hn (lo := 10) (BitVec.ofBool z) (by decide) (by omega)
  have hp := toNat_or_place hz (lo := 9) (BitVec.ofBool p) (by decide) (by omega)
  have hoff := toNat_or_place_zero hp off (by decide) (by omega)
  simp only [BitVec.toNat_ofBool, Nat.zero_add] at hoff
  rw [encode, operandBits, ← BitVec.or_assoc, ← BitVec.or_assoc, ← BitVec.or_assoc]
  exact hoff

/-! The formula of each instruction (rule R93). -/

theorem toNat_encode_addReg (dr sr1 sr2 : Reg) : (encode (.addReg dr sr1 sr2)).toNat =
    0x1000 + dr.toBits.toNat * 512 + sr1.toBits.toNat * 64 + sr2.toBits.toNat :=
  toNat_encode_registersField .add rfl rfl rfl (by decide)

theorem toNat_encode_addImm (dr sr1 : Reg) (imm : BitVec 5) : (encode (.addImm dr sr1 imm)).toNat =
    0x1020 + dr.toBits.toNat * 512 + sr1.toBits.toNat * 64 + imm.toNat :=
  toNat_encode_registersImm5 .add rfl rfl rfl

theorem toNat_encode_andReg (dr sr1 sr2 : Reg) : (encode (.andReg dr sr1 sr2)).toNat =
    0x5000 + dr.toBits.toNat * 512 + sr1.toBits.toNat * 64 + sr2.toBits.toNat :=
  toNat_encode_registersField .and rfl rfl rfl (by decide)

theorem toNat_encode_andImm (dr sr1 : Reg) (imm : BitVec 5) : (encode (.andImm dr sr1 imm)).toNat =
    0x5020 + dr.toBits.toNat * 512 + sr1.toBits.toNat * 64 + imm.toNat :=
  toNat_encode_registersImm5 .and rfl rfl rfl

/-- The unused bits of NOT are ones (log 12). -/
theorem toNat_encode_not (dr sr : Reg) : (encode (.not dr sr)).toNat =
    0x903F + dr.toBits.toNat * 512 + sr.toBits.toNat * 64 := by
  have h : (encode (.not dr sr)).toNat =
      0x9000 + dr.toBits.toNat * 512 + sr.toBits.toNat * 64 + (0x3F#6).toNat :=
    toNat_encode_registersField .not rfl rfl rfl le_rfl
  have hones : (0x3F#6).toNat = 0x3F := rfl
  omega

theorem toNat_encode_ld (dr : Reg) (off : BitVec 9) :
    (encode (.ld dr off)).toNat = 0x2000 + dr.toBits.toNat * 512 + off.toNat :=
  toNat_encode_registerOffset9 .ld rfl rfl rfl

theorem toNat_encode_ldi (dr : Reg) (off : BitVec 9) :
    (encode (.ldi dr off)).toNat = 0xA000 + dr.toBits.toNat * 512 + off.toNat :=
  toNat_encode_registerOffset9 .ldi rfl rfl rfl

theorem toNat_encode_lea (dr : Reg) (off : BitVec 9) :
    (encode (.lea dr off)).toNat = 0xE000 + dr.toBits.toNat * 512 + off.toNat :=
  toNat_encode_registerOffset9 .lea rfl rfl rfl

theorem toNat_encode_ldr (dr b : Reg) (off : BitVec 6) : (encode (.ldr dr b off)).toNat =
    0x6000 + dr.toBits.toNat * 512 + b.toBits.toNat * 64 + off.toNat :=
  toNat_encode_registersField .ldr rfl rfl rfl le_rfl

theorem toNat_encode_st (sr : Reg) (off : BitVec 9) :
    (encode (.st sr off)).toNat = 0x3000 + sr.toBits.toNat * 512 + off.toNat :=
  toNat_encode_registerOffset9 .st rfl rfl rfl

theorem toNat_encode_sti (sr : Reg) (off : BitVec 9) :
    (encode (.sti sr off)).toNat = 0xB000 + sr.toBits.toNat * 512 + off.toNat :=
  toNat_encode_registerOffset9 .sti rfl rfl rfl

theorem toNat_encode_str (sr b : Reg) (off : BitVec 6) : (encode (.str sr b off)).toNat =
    0x7000 + sr.toBits.toNat * 512 + b.toBits.toNat * 64 + off.toNat :=
  toNat_encode_registersField .str rfl rfl rfl le_rfl

theorem toNat_encode_jsr (off : BitVec 11) : (encode (.jsr off)).toNat = 0x4800 + off.toNat :=
  toNat_encode_toggleOffset11 .jsr rfl rfl rfl

theorem toNat_encode_jsrr (b : Reg) : (encode (.jsrr b)).toNat = 0x4000 + b.toBits.toNat * 64 :=
  toNat_encode_base .jsr rfl rfl rfl

theorem toNat_encode_jmp (b : Reg) : (encode (.jmp b)).toNat = 0xC000 + b.toBits.toNat * 64 :=
  toNat_encode_base .jmp rfl rfl rfl

theorem toNat_encode_trap (v : BitVec 8) : (encode (.trap v)).toNat = 0xF000 + v.toNat :=
  toNat_encode_field .trap rfl rfl rfl (by decide)

theorem toNat_encode_reserved (any : BitVec 12) : (encode (.reserved any)).toNat = 0xD000 + any.toNat :=
  toNat_encode_field .reserved rfl rfl rfl le_rfl

theorem toNat_encode_rti : (encode .rti).toNat = 0x8000 := rfl

/-- Settles O4, format by format. -/
theorem encodingIsTheSumOfItsFields : Obligations.EncodingIsTheSumOfItsFields :=
  ⟨toNat_encode_br, toNat_encode_addReg, toNat_encode_addImm, toNat_encode_andReg, toNat_encode_andImm,
    toNat_encode_not, toNat_encode_ld, toNat_encode_ldi, toNat_encode_lea, toNat_encode_ldr,
    toNat_encode_st, toNat_encode_sti, toNat_encode_str, toNat_encode_jsr, toNat_encode_jsrr,
    toNat_encode_jmp, toNat_encode_trap, toNat_encode_reserved, toNat_encode_rti⟩

/-! Reading the fields back. -/

theorem decode_eq_reserved_iff (any : BitVec 12) (w : Word) :
    decode w = .reserved any ↔ bitsAt w 12 4 = 0xD ∧ bitsAt w 0 12 = any.toNat := by
  have hop : (opcodeBits (Instr.reserved any).opcode).toNat = 0xD := rfl
  rw [decode_eq_iff, hop, Instr.opcode, decodeAs, Instr.reserved.injEq, extract_eq_iff]

/-- Settles O1: the fields of each canonical word, cut out of its number, are those put into it. -/
theorem decodeOfEncodeIsTheInstruction : Obligations.DecodeOfEncodeIsTheInstruction := by
  intro i
  cases i with
  | br n z p off =>
    rw [decode_eq_br_iff]; simp only [bitsAt, toNat_encode_br]
    have := n.toNat_lt; have := z.toNat_lt; have := p.toNat_lt
    omega
  | addReg dr sr1 sr2 => rw [decode_eq_addReg_iff]; simp only [bitsAt, toNat_encode_addReg]; omega
  | addImm dr sr1 imm => rw [decode_eq_addImm_iff]; simp only [bitsAt, toNat_encode_addImm]; omega
  | andReg dr sr1 sr2 => rw [decode_eq_andReg_iff]; simp only [bitsAt, toNat_encode_andReg]; omega
  | andImm dr sr1 imm => rw [decode_eq_andImm_iff]; simp only [bitsAt, toNat_encode_andImm]; omega
  | not dr sr => rw [decode_eq_not_iff]; simp only [bitsAt, toNat_encode_not]; omega
  | ld dr off => rw [decode_eq_ld_iff]; simp only [bitsAt, toNat_encode_ld]; omega
  | ldi dr off => rw [decode_eq_ldi_iff]; simp only [bitsAt, toNat_encode_ldi]; omega
  | lea dr off => rw [decode_eq_lea_iff]; simp only [bitsAt, toNat_encode_lea]; omega
  | ldr dr b off => rw [decode_eq_ldr_iff]; simp only [bitsAt, toNat_encode_ldr]; omega
  | st sr off => rw [decode_eq_st_iff]; simp only [bitsAt, toNat_encode_st]; omega
  | sti sr off => rw [decode_eq_sti_iff]; simp only [bitsAt, toNat_encode_sti]; omega
  | str sr b off => rw [decode_eq_str_iff]; simp only [bitsAt, toNat_encode_str]; omega
  | jsr off => rw [decode_eq_jsr_iff]; simp only [bitsAt, toNat_encode_jsr]; omega
  | jsrr b => rw [decode_eq_jsrr_iff]; simp only [bitsAt, toNat_encode_jsrr]; omega
  | jmp b => rw [decode_eq_jmp_iff]; simp only [bitsAt, toNat_encode_jmp]; omega
  | trap v => rw [decode_eq_trap_iff]; simp only [bitsAt, toNat_encode_trap]; omega
  | reserved any => rw [decode_eq_reserved_iff]; simp only [bitsAt, toNat_encode_reserved]; omega
  | rti => rw [decode_eq_rti_iff]; rfl

/-! The rows of the opcode table. -/

/-- The bits that tell apart the rows of one opcode: the toggle bit of its format, if it has one (rule R85). -/
def toggleMask (i : Instr) : Word :=
  match i with
  | .addReg _ _ _ | .addImm _ _ _ | .andReg _ _ _ | .andImm _ _ _ => fieldMask 5 1
  | .jsr _ | .jsrr _ => fieldMask 11 1
  | _ => 0

/-- A row fixes the opcode field and the toggle bit. -/
theorem row_mask (i : Instr) : i.row.mask = fieldMask 12 4 ||| toggleMask i := by
  cases i <;> simp [Instr.row, toggleMask, fieldMask, place]

/-- The canonical word of every instruction matches its own row. -/
theorem encode_matches_row (i : Instr) : encode i &&& i.row.mask = i.row.pattern := by
  cases i with
  | br n z p off => exact Laws.EncodeMatchesRow.br n z p off
  | addReg dr sr1 sr2 => exact Laws.EncodeMatchesRow.addReg dr sr1 sr2
  | addImm dr sr1 imm => exact Laws.EncodeMatchesRow.addImm dr sr1 imm
  | andReg dr sr1 sr2 => exact Laws.EncodeMatchesRow.andReg dr sr1 sr2
  | andImm dr sr1 imm => exact Laws.EncodeMatchesRow.andImm dr sr1 imm
  | not dr sr => exact Laws.EncodeMatchesRow.not dr sr
  | ld dr off => exact Laws.EncodeMatchesRow.ld dr off
  | ldi dr off => exact Laws.EncodeMatchesRow.ldi dr off
  | lea dr off => exact Laws.EncodeMatchesRow.lea dr off
  | ldr dr b off => exact Laws.EncodeMatchesRow.ldr dr b off
  | st sr off => exact Laws.EncodeMatchesRow.st sr off
  | sti sr off => exact Laws.EncodeMatchesRow.sti sr off
  | str sr b off => exact Laws.EncodeMatchesRow.str sr b off
  | jsr off => exact Laws.EncodeMatchesRow.jsr off
  | jsrr b => exact Laws.EncodeMatchesRow.jsrr b
  | jmp b => exact Laws.EncodeMatchesRow.jmp b
  | trap v => exact Laws.EncodeMatchesRow.trap v
  | reserved any => exact Laws.EncodeMatchesRow.reserved any
  | rti => exact Laws.EncodeMatchesRow.rti

/-- Instructions of one row have one opcode: their canonical words agree on the fixed bits of the row. -/
theorem opcode_eq_of_row_eq {i j : Instr} (h : i.row = j.row) : i.opcode = j.opcode := by
  have hagree : AgreeOn i.row.mask (encode i) (encode j) := by
    rw [AgreeOn, encode_matches_row, h, encode_matches_row]
  rw [row_mask, agreeOn_or, ← opcodeField_eq_iff, opcodeField_encode, opcodeField_encode] at hagree
  rw [← opcodeAt_opcodeBits i.opcode, hagree.left, opcodeAt_opcodeBits]

/-- Words of one opcode are in the same row exactly when they agree on the toggle bit of its format. -/
theorem decodeAs_row_eq_iff (o : Opcode) (w' w : Word) :
    (decodeAs o w').row = (decodeAs o w).row ↔ AgreeOn (toggleMask (decodeAs o w')) w w' := by
  cases o with
  | add | and =>
    cases h : immToggle w <;> cases h' : immToggle w' <;>
      simp [decodeAs, h, h', Instr.row, toggleMask, ← immToggle_eq_iff]
  | jsr =>
    cases h : jsrToggle w <;> cases h' : jsrToggle w' <;>
      simp [decodeAs, h, h', Instr.row, toggleMask, ← jsrToggle_eq_iff]
  | _ => exact iff_of_true rfl (agreeOn_zero w w')

/-- Two words are in the same row exactly when they agree on the fixed bits of the row of either. -/
theorem decode_row_eq_iff (w' w : Word) :
    (decode w').row = (decode w).row ↔ AgreeOn (decode w').row.mask w w' := by
  rw [row_mask, agreeOn_or, ← opcodeField_eq_iff]
  by_cases hop : opcodeField w = opcodeField w'
  · have hsame : decode w = decodeAs (opcodeAt (opcodeField w')) w := by rw [← hop]; rfl
    rw [hsame, and_iff_right hop]
    exact decodeAs_row_eq_iff _ w' w
  · refine iff_of_false (fun h => hop ?_) (fun ⟨hfield, _⟩ => hop hfield)
    have hname := opcode_eq_of_row_eq h
    rw [decode_opcode, decode_opcode, opcodeAt_eq_iff, opcodeBits_opcodeAt] at hname
    exact hname.symm

/-- Settles O3: the pattern of a row is what its canonical words have on its fixed bits. -/
theorem everyWordMatchesExactlyItsTableRow : Obligations.EveryWordMatchesExactlyItsTableRow := by
  intro w i
  have h := decode_row_eq_iff (encode i) w
  rw [decodeOfEncodeIsTheInstruction i, AgreeOn, encode_matches_row] at h
  exact h.symm

/-- Settles O6, by reading each word. -/
theorem specVectorWordsDecode : Obligations.SpecVectorWordsDecode := by
  unfold Obligations.SpecVectorWordsDecode
  decide

end Sys2Proof.Machine
end

section
/-! What an instruction can do, said once. A next state is one of nine effects (`Effect`), from which the
registers, PC, mode and `halted` it may write are read off: obligations O37 to O39. A fault is a refused
16-bit address or the reserved opcode (`exec_fault`): obligation O41. No instruction is refused. -/

namespace Sys2Proof.Machine

/-! Reads and the input queue. -/

/-- A read takes entries from the head of the input queue only (rule R32). -/
theorem queueAfterRead_suffix (q : List Word) (a : Word) : queueAfterRead q a <:+ q := by
  unfold queueAfterRead
  split
  · exact List.tail_suffix q
  · exact List.suffix_rfl

/-- A read takes one entry or none. -/
theorem queueAfterRead_eq_or (q : List Word) (a : Word) :
    queueAfterRead q a = q ∨ queueAfterRead q a = q.tail := by
  unfold queueAfterRead
  split
  · exact Or.inr rfl
  · exact Or.inl rfl

/-- A read leaves the state as it was, or takes one entry from the input queue. -/
theorem setInQ_queueAfterRead (s : State) (a : Word) :
    s.setInQ (queueAfterRead s.inQ a) = s ∨ s.setInQ (queueAfterRead s.inQ a) = s.setInQ s.inQ.tail :=
  (queueAfterRead_eq_or s.inQ a).imp (congrArg s.setInQ) (congrArg s.setInQ)

/-! Next states. -/

/-- The nine effects of an instruction on the state after the fetch. What a write through the MAC does to
memory and output log is left open here: `exec_keeps` speaks of it. -/
inductive Effect (s : State) : Instr → State → Prop where
  /-- ADD, AND, NOT and the loads: a result and its condition code, after the reads of a load. -/
  | result {i : Instr} {dr : Reg} (hi : ccSource i = some dr) (v : Word) {q : List Word}
      (hq : q <:+ s.inQ) : Effect s i (writeResult dr v (s.setInQ q))
  /-- LEA. -/
  | address (dr : Reg) (off : BitVec 9) (v : Word) : Effect s (.lea dr off) (s.setReg dr v)
  /-- Memory or the output log alone: the stores, after the pointer read of STI. -/
  | store (i : Instr) (m : Memory) (o : List Word) {q : List Word} (hq : q <:+ s.inQ) :
      Effect s i (((s.setInQ q).setMem m).setOutLog o)
  /-- BR. -/
  | branch (n z p : Bool) (off : BitVec 9) (target : Word) : Effect s (.br n z p off) (s.setPc target)
  /-- JSR and JSRR. -/
  | call {i : Instr} (hi : writtenReg i = some .r7) (hpc : writesPc i = true) (target : Word) (d : List Word) :
      Effect s i (((s.setDiag d).setReg .r7 s.pc).setPc target)
  /-- JMP. -/
  | jump (b : Reg) (target : Word) (d : List Word) : Effect s (.jmp b) ((s.setPc target).setDiag d)
  /-- TRAP with the HALT vector. -/
  | halt : Effect s (.trap s.cfg.haltVector) (s.setHalted true)
  /-- TRAP with any other vector. -/
  | enter {v : BitVec 8} (hv : v ≠ s.cfg.haltVector) (m : Memory) (o : List Word) (top target : Word) :
      Effect s (.trap v) (enterSupervisor top target ((s.setMem m).setOutLog o))
  /-- RTI. -/
  | leave (top status target : Word) {q : List Word} (hq : q <:+ s.inQ) :
      Effect s .rti (leaveTrap top status target (s.setInQ q))

/-- A load from an address is a result. -/
theorem effect_of_loadFrom {s t : State} {i : Instr} {dr : Reg} {ea : Word} {q : List Word}
    (hi : ccSource i = some dr) (hq : q <:+ s.inQ) (h : loadFrom dr ea (s.setInQ q) = .next t) :
    Effect s i t := by
  obtain ⟨-, rfl⟩ := loadFrom_next h
  exact .result hi _ ((queueAfterRead_suffix q ea).trans hq)

/-- A store to an address writes memory or the output log. -/
theorem effect_of_storeTo {s t : State} (i : Instr) {ea v : Word} {q : List Word} (hq : q <:+ s.inQ)
    (h : storeTo ea v (s.setInQ q) = .next t) : Effect s i t := by
  obtain ⟨m, o, rfl⟩ := memWrite_frame (memWrite_of_storeTo h)
  exact .store i m o hq

theorem effect_of_trapEntry {s t : State} {v : BitVec 8} (hv : v ≠ s.cfg.haltVector)
    (h : trapEntry v s = .next t) : Effect s (.trap v) t := by
  obtain ⟨s1, s2, target, h1, h2, -, rfl⟩ := trapEntry_next h
  obtain ⟨m1, o1, rfl⟩ := memWrite_frame h1
  obtain ⟨m2, o2, rfl⟩ := memWrite_frame h2
  exact .enter hv m2 o2 _ target

theorem effect_of_trapReturn {s t : State} (h : trapReturn s = .next t) : Effect s .rti t := by
  obtain ⟨status, s1, target, s2, h1, h2, rfl⟩ := trapReturn_next h
  obtain ⟨-, -, rfl⟩ := memRead_ok h1
  obtain ⟨-, -, rfl⟩ := memRead_ok h2
  exact .leave _ status target ((queueAfterRead_suffix _ _).trans (queueAfterRead_suffix _ _))

/-- Everything an instruction can do when it answers. -/
theorem effect_of_exec {i : Instr} {s t : State} (h : exec i s = .next t) : Effect s i t := by
  cases i with
  | br n z p off =>
    rw [exec_br] at h; cases h
    exact .branch n z p off _
  | addReg | addImm | andReg | andImm | not => cases h; exact .result rfl _ List.suffix_rfl
  | ld | ldr => exact effect_of_loadFrom rfl List.suffix_rfl h
  | ldi => exact effect_of_loadFrom rfl (queueAfterRead_suffix _ _) (execLdi_next h).2
  | lea dr off => cases h; exact .address dr off _
  | st | str => exact effect_of_storeTo _ List.suffix_rfl h
  | sti => exact effect_of_storeTo _ (queueAfterRead_suffix _ _) (execSti_next h).2
  | jsr | jsrr => cases h; exact .call rfl rfl _ _
  | jmp b => cases h; exact .jump b _ _
  | trap v =>
    by_cases hv : v = s.cfg.haltVector
    · subst hv
      rw [exec_trap_halt] at h; cases h
      exact .halt
    · rw [exec_trap_of_ne hv] at h
      exact effect_of_trapEntry hv h
  | rti => exact effect_of_trapReturn h
  | reserved => cases h

/-- The writer of a condition code is the writer of its register, and no trap. -/
theorem writtenReg_of_ccSource {i : Instr} {dr : Reg} (h : ccSource i = some dr) :
    writtenReg i = some dr ∧ ∀ v, i ≠ .trap v := by
  cases i with
  | addReg | addImm | andReg | andImm | not | ld | ldr | ldi => exact ⟨h, fun _ => by simp⟩
  | _ => cases h

theorem ne_trap_of_writtenReg_r7 {i : Instr} (h : writtenReg i = some .r7) (v : BitVec 8) :
    i ≠ .trap v := by
  rintro rfl
  cases h

/-- Settles O37: of the effects only a trap entry and a trap return write the mode. -/
theorem onlyTrapAndRtiChangeTheMode : Obligations.OnlyTrapAndRtiChangeTheMode := by
  intro i s t h hne
  cases effect_of_exec h with
  | enter hv => exact Or.inr ⟨_, rfl, hv, rfl⟩
  | leave => exact Or.inl rfl
  | _ => exact absurd rfl hne

/-- A register that an effect leaves with another value is the one it writes. -/
theorem eq_of_ite_ne {r dr : Reg} {x v : Word} (h : (if r = dr then v else x) ≠ x) : dr = r := by
  by_contra hne
  exact h (if_neg (Ne.symm hne))

/-- Settles O38: each effect writes one register or none. -/
theorem onlyTheNamedRegisterIsWritten : Obligations.OnlyTheNamedRegisterIsWritten := by
  intro i s t r h hne
  cases effect_of_exec h with
  | result hi =>
    obtain ⟨hw, htrap⟩ := writtenReg_of_ccSource hi
    rw [writeResult_reg, State.reg_setInQ] at hne
    exact ⟨eq_of_ite_ne hne ▸ hw, htrap _⟩
  | address =>
    rw [State.reg_setReg] at hne
    exact ⟨congrArg some (eq_of_ite_ne hne), by simp⟩
  | call hi =>
    rw [State.reg_setPc, State.reg_setReg, State.reg_setDiag] at hne
    exact ⟨eq_of_ite_ne hne ▸ hi, ne_trap_of_writtenReg_r7 hi _⟩
  | enter hv =>
    rw [enterSupervisor_reg, State.reg_setOutLog, State.reg_setMem] at hne
    exact ⟨congrArg some (eq_of_ite_ne hne), by simpa using hv⟩
  | leave =>
    rw [leaveTrap_reg, State.reg_setInQ] at hne
    exact ⟨congrArg some (eq_of_ite_ne hne), by simp⟩
  | store | branch | jump | halt => exact absurd rfl hne

/-- Settles O39: the effects that write PC are those of control transfers. -/
theorem onlyControlTransfersChangePc : Obligations.OnlyControlTransfersChangePc := by
  intro i s t h hne
  cases effect_of_exec h with
  | branch | jump | leave => exact ⟨rfl, by simp⟩
  | call hi hpc => exact ⟨hpc, ne_trap_of_writtenReg_r7 hi _⟩
  | enter hv => exact ⟨rfl, by simpa using hv⟩
  | result | address | store | halt => exact absurd rfl hne

/-- An instruction halts the machine only by the HALT trap (rules R34, R172). -/
theorem eq_halt_of_exec_halted {i : Instr} {s t : State} (h : exec i s = .next t)
    (hs : s.halted = false) (ht : t.halted = true) : i = .trap s.cfg.haltVector := by
  have hne : t.halted ≠ s.halted := by rw [hs, ht]; decide
  cases effect_of_exec h with
  | halt => rfl
  | leave => exact absurd (leaveTrap_halted ..) hne
  | _ => exact absurd rfl hne

/-- An instruction takes entries from the head of the input queue only (rule R32). -/
theorem exec_inQ_suffix {i : Instr} {s t : State} (h : exec i s = .next t) : t.inQ <:+ s.inQ := by
  cases effect_of_exec h with
  | result hi v hq => exact hq
  | store i m o hq => exact hq
  | leave top status target hq => rw [leaveTrap_inQ]; exact hq
  | _ => exact List.suffix_rfl

/-! Faults. -/

/-- A fault that is the refusal of a 16-bit address and leaves `u`. -/
def Refuses (u : State) (f : Fault) : Prop :=
  ∃ a : Word, ¬ Permitted u.cfg a ∧ f = accessFault (a.toNat : Int) u

theorem refuses_of_permOK_false {u : State} {f : Fault} {a : Word}
    (h : permOK u.cfg (a.toNat : Int) = false ∧ f = accessFault (a.toNat : Int) u) : Refuses u f :=
  ⟨a, (permOK_word_eq_false_iff _ _).mp h.left, h.right⟩

theorem refuses_of_firstDenied {s : State} {f : Fault} {as : List Word}
    (h : ∃ a, firstDenied s.cfg as = some a ∧ f = accessFault (a.toNat : Int) s) : Refuses s f := by
  obtain ⟨a, ha, rfl⟩ := h
  obtain ⟨-, hp⟩ := firstDenied_some ha
  exact refuses_of_permOK_false ⟨hp, rfl⟩

theorem refuses_of_denied {u : State} {f : Fault} {a : Word} (ha : ¬ Permitted u.cfg a)
    (h : denied a u = .fault f) : Refuses u f := by
  cases h
  exact ⟨a, ha, rfl⟩

theorem refuses_after_read {s : State} {a : Word} {f : Fault}
    (h : Refuses (s.setInQ (queueAfterRead s.inQ a)) f) :
    Refuses s f ∨ Refuses (s.setInQ s.inQ.tail) f := by
  rcases setInQ_queueAfterRead s a with e | e
  · exact Or.inl (e ▸ h)
  · exact Or.inr (e ▸ h)

/-- What LDI leaves when it faults: the state before, or that after its pointer read. -/
theorem exec_ldi_fault {dr : Reg} {off : BitVec 9} {s : State} {f : Fault}
    (h : exec (.ldi dr off) s = .fault f) : Refuses s f ∨ Refuses (s.setInQ s.inQ.tail) f := by
  by_cases hp : Permitted s.cfg (wrap (s.pc.toNat + off.toInt))
  · rw [exec_ldi_permitted dr hp] at h
    exact refuses_after_read (refuses_of_permOK_false (loadFrom_fault h))
  · rw [exec_ldi_not_permitted dr hp] at h
    exact Or.inl (refuses_of_denied hp h)

/-- What STI leaves when it faults: the state before, or that after its pointer read. -/
theorem exec_sti_fault {sr : Reg} {off : BitVec 9} {s : State} {f : Fault}
    (h : exec (.sti sr off) s = .fault f) : Refuses s f ∨ Refuses (s.setInQ s.inQ.tail) f := by
  by_cases hp : Permitted s.cfg (wrap (s.pc.toNat + off.toInt))
  · rw [exec_sti_permitted sr hp] at h
    exact refuses_after_read (refuses_of_permOK_false (storeTo_fault h))
  · rw [exec_sti_not_permitted sr hp] at h
    exact Or.inl (refuses_of_denied hp h)

/-- The instructions that read a pointer first. -/
def ReadsPointer (i : Instr) : Prop := (∃ r off, i = .ldi r off) ∨ (∃ r off, i = .sti r off)

/-- Everything an instruction can do when it faults. -/
theorem exec_fault {i : Instr} {s : State} {f : Fault} (h : exec i s = .fault f) :
    f = .unknownInstruction s.ir 0xD s ∨ Refuses s f ∨
      (Refuses (s.setInQ s.inQ.tail) f ∧ ReadsPointer i) := by
  cases i with
  | reserved => cases h; exact Or.inl rfl
  | br | addReg | addImm | andReg | andImm | not | lea | jsr | jsrr | jmp => cases h
  | ld | ldr => exact Or.inr (Or.inl (refuses_of_permOK_false (loadFrom_fault h)))
  | st | str => exact Or.inr (Or.inl (refuses_of_permOK_false (storeTo_fault h)))
  | ldi dr off => exact Or.inr ((exec_ldi_fault h).imp_right fun hr => ⟨hr, Or.inl ⟨dr, off, rfl⟩⟩)
  | sti sr off => exact Or.inr ((exec_sti_fault h).imp_right fun hr => ⟨hr, Or.inr ⟨sr, off, rfl⟩⟩)
  | trap v =>
    by_cases hv : v = s.cfg.haltVector
    · subst hv
      rw [exec_trap_halt] at h
      cases h
    · rw [exec_trap_of_ne hv] at h
      exact Or.inr (Or.inl (refuses_of_firstDenied (trapEntry_fault h)))
  | rti => exact Or.inr (Or.inl (refuses_of_firstDenied (trapReturn_fault h)))

/-- Settles O41: a refusal leaves the state before, or the one after a pointer read, which has the same
configuration, PC and IR. -/
theorem faultingInstructionsLeaveTheStateIntact : Obligations.FaultingInstructionsLeaveTheStateIntact := by
  intro i s f h
  rcases exec_fault h with rfl | ⟨a, ha, rfl⟩ | ⟨⟨a, ha, rfl⟩, hi⟩
  · exact ⟨Or.inr rfl, Or.inl rfl⟩
  · exact ⟨Or.inl ⟨_, rfl, (permOK_word_eq_false_iff _ _).mpr ha⟩, Or.inl rfl⟩
  · exact ⟨Or.inl ⟨_, rfl, (permOK_word_eq_false_iff _ _).mpr ha⟩, Or.inr ⟨rfl, hi⟩⟩

/-! Refusals. -/

/-- Every instruction has a meaning (rule R103). -/
theorem exec_not_refused (i : Instr) (s : State) (r : Refusal) : exec i s ≠ .refused r := by
  cases i with
  | br | addReg | addImm | andReg | andImm | not | lea | jsr | jsrr | jmp | reserved => nofun
  | ld | ldr => exact loadFrom_not_refused _ _ s r
  | st | str => exact storeTo_not_refused _ _ s r
  | ldi dr off =>
    by_cases hp : Permitted s.cfg (wrap (s.pc.toNat + off.toInt))
    · rw [exec_ldi_permitted dr hp]
      exact loadFrom_not_refused _ _ _ r
    · rw [exec_ldi_not_permitted dr hp]
      nofun
  | sti sr off =>
    by_cases hp : Permitted s.cfg (wrap (s.pc.toNat + off.toInt))
    · rw [exec_sti_permitted sr hp]
      exact storeTo_not_refused _ _ _ r
    · rw [exec_sti_not_permitted sr hp]
      nofun
  | trap v =>
    by_cases hv : v = s.cfg.haltVector
    · subst hv
      rw [exec_trap_halt]
      nofun
    · rw [exec_trap_of_ne hv]
      exact trapEntry_not_refused v s r
  | rti => exact trapReturn_not_refused s r

end Sys2Proof.Machine
end

section
/-! The step: what it runs (obligations O42 and O44), what its faults leave and which it has (O45 to O47), its
invariants (O48, O50, O51), their start at construction (O49, O53), and a tick as one step (O60). -/

namespace Sys2Proof.Machine

/-! Fetching. -/

/-- Outside KBSR, KBDR and DSR a read answers the backing word and takes nothing from the queue: as
`readValue_plain`, for each address. -/
theorem readValue_of_ne {a : Word} (s : State) (h0 : a.toNat ≠ 0xFE00) (h2 : a.toNat ≠ 0xFE02)
    (h4 : a.toNat ≠ 0xFE04) : readValue s a = s.mem.read a.toNat ∧ queueAfterRead s.inQ a = s.inQ := by
  have hne : ∀ k : Word, a.toNat ≠ k.toNat → a ≠ k := fun k h e => h (congrArg BitVec.toNat e)
  unfold readValue queueAfterRead
  rw [if_neg (hne 0xFE00#16 h0), if_neg (hne 0xFE02#16 h2), if_neg (hne 0xFE04#16 h4),
    if_neg (hne 0xFE02#16 h2)]
  exact ⟨rfl, rfl⟩

theorem fetched_eq (s : State) :
    fetched s = ((s.setInQ (queueAfterRead s.inQ s.pc)).setIr (readValue s s.pc)).setPc
      (wrap (s.pc.toNat + 1)) := by
  have hpc : wrap (s.pc.toNat + 1) = s.pc + 1 := wrap_toNat_add s.pc 1
  rw [hpc]
  rfl

theorem step_of_fetchable {s : State} (hh : s.halted = false) (hf : Fetchable s) :
    step s = exec (decode (readValue s s.pc)) (fetched s) := by
  rcases step_cases s with ⟨h, -⟩ | ⟨-, h, -⟩ | ⟨-, -, e⟩
  · simp [hh] at h
  · exact absurd hf h
  · exact e

/-- Settles O42: the state after the fetch is the one named in the claim. -/
theorem stepRunsTheDecodedInstruction : Obligations.StepRunsTheDecodedInstruction := by
  intro s hh hf
  rw [← fetched_eq]
  exact step_of_fetchable hh hf

/-- Settles O44: the written word is what the fetch reads back. -/
theorem storedWordIsTheNextInstruction : Obligations.StoredWordIsTheNextInstruction := by
  rintro a v s t hw hh rfl hf h0 h2 h4 h6
  obtain ⟨hmem, -⟩ := stores_of_memWrite hw
  obtain ⟨hvalue, hqueue⟩ := readValue_of_ne t h0 h2 h4
  have hv : readValue t t.pc = v := by
    rw [hvalue, hmem, if_pos ⟨rfl, fun e => h6 (congrArg BitVec.toNat e)⟩]
  rw [stepRunsTheDecodedInstruction t hh hf, hv, hqueue, setInQ_self]

/-! Faults. -/

/-- With privilege checks on the fetch takes nothing from the input queue: PC is below the device registers. -/
theorem fetched_inQ {s : State} (hf : Fetchable s) (hchecks : s.cfg.ignorePrivilege ≠ true) :
    (fetched s).inQ = s.inQ := by
  obtain ⟨-, hlt⟩ := hf.resolve_left hchecks
  obtain ⟨-, hqueue⟩ := readValue_plain s (Or.inl hlt)
  exact hqueue

/-- With privilege checks off no 16-bit address is refused. -/
theorem Refuses.checks_on {u : State} {f : Fault} (h : Refuses u f) : u.cfg.ignorePrivilege ≠ true := by
  obtain ⟨a, ha, -⟩ := h
  exact fun hoff => ha (Or.inl hoff)

/-- Everything a step can do when it faults: it stops before the fetch, at the reserved opcode, or at a
refused access, before which an instruction that reads a pointer may have taken one entry of the queue. -/
theorem step_fault {s : State} {f : Fault} (h : step s = .fault f) :
    s.halted = false ∧
      ((¬ Fetchable s ∧ f = .outOfBounds s.pc s) ∨
        (Fetchable s ∧ (f = .unknownInstruction (readValue s s.pc) 0xD (fetched s) ∨
          Refuses (fetched s) f ∨ Refuses ((fetched s).setInQ (fetched s).inQ.tail) f))) := by
  rcases step_cases s with ⟨-, e⟩ | ⟨hh, hf, e⟩ | ⟨hh, hf, e⟩
  · cases e.symm.trans h
  · cases e.symm.trans h
    exact ⟨hh, Or.inl ⟨hf, rfl⟩⟩
  · refine ⟨hh, Or.inr ⟨hf, ?_⟩⟩
    exact (exec_fault (e.symm.trans h)).imp_right (Or.imp_right And.left)

/-- What a faulting step leaves after its fetch, but for the input queue. -/
def LeftAfterFetch (s u : State) : Prop :=
  u.pc = wrap (s.pc.toNat + 1) ∧ u.ir = readValue s s.pc ∧ u.regs = s.regs ∧ u.cc = s.cc ∧
    u.mode = s.mode ∧ u.savedUSP = s.savedUSP ∧ u.savedSSP = s.savedSSP ∧ u.mem = s.mem ∧
    u.outLog = s.outLog ∧ u.diag = s.diag ∧ u.halted = s.halted

theorem leftAfterFetch_fetched (s : State) (q : List Word) : LeftAfterFetch s ((fetched s).setInQ q) :=
  ⟨(wrap_toNat_add s.pc 1).symm, rfl, rfl, rfl, rfl, rfl, rfl, rfl, rfl, rfl, rfl⟩

/-- Settles O45: a refused access needs privilege checks on, and then the fetch took nothing from the queue,
so that the entry a pointer read may take is the only one gone. -/
theorem faultingStepsLeaveTheStateOfTheFault : Obligations.FaultingStepsLeaveTheStateOfTheFault := by
  intro s f h
  obtain ⟨hh, ⟨hf, rfl⟩ | ⟨hf, hfault⟩⟩ := step_fault h
  · exact ⟨hh, Or.inl ⟨rfl, hf⟩⟩
  refine ⟨hh, Or.inr ⟨hf, ?_⟩⟩
  have hleft : ∃ q, f.left = (fetched s).setInQ q ∧ (q = s.inQ ∨ q = s.inQ.tail) ∧
      (f = .unknownInstruction (readValue s s.pc) 0xD f.left ∨
        ∃ a : Int, permOK s.cfg a = false ∧ f = .accessViolation a f.left.pc f.left.ir f.left) := by
    rcases hfault with rfl | hr | hr
    · exact ⟨(fetched s).inQ, rfl, queueAfterRead_eq_or s.inQ s.pc, Or.inl rfl⟩
    · have hq := fetched_inQ hf hr.checks_on
      obtain ⟨a, ha, rfl⟩ := hr
      exact ⟨(fetched s).inQ, rfl, Or.inl hq, Or.inr ⟨_, (permOK_word_eq_false_iff _ _).mpr ha, rfl⟩⟩
    · have hq := congrArg List.tail (fetched_inQ hf hr.checks_on)
      obtain ⟨a, ha, rfl⟩ := hr
      exact ⟨_, rfl, Or.inr hq, Or.inr ⟨_, (permOK_word_eq_false_iff _ _).mpr ha, rfl⟩⟩
  obtain ⟨q, hl, hq, hkind⟩ := hleft
  obtain ⟨hpc, hir, hregs, hcc, hmode, husp, hssp, hmem, hlog, hdiag, hhalted⟩ :=
    hl ▸ leftAfterFetch_fetched s q
  have hinQ : f.left.inQ = q := by rw [hl, State.setInQ_inQ]
  exact ⟨hpc, hir, hregs, hcc, hmode, husp, hssp, hmem, hlog, hdiag, hhalted.trans hh,
    hinQ ▸ hq, hkind⟩

/-- Settles O46: with privilege checks off every PC is in the fetch range and every address permitted. -/
theorem checksOffOnlyTheReservedOpcodeFaults : Obligations.ChecksOffOnlyTheReservedOpcodeFaults := by
  intro s f hoff h
  obtain ⟨-, ⟨hf, -⟩ | ⟨-, rfl | hr | hr⟩⟩ := step_fault h
  · exact absurd (Or.inl hoff) hf
  · exact ⟨_, _, rfl⟩
  · exact absurd hoff hr.checks_on
  · exact absurd hoff hr.checks_on

theorem step_not_refused (s : State) (r : Refusal) : step s ≠ .refused r := by
  rcases step_cases s with ⟨-, e⟩ | ⟨-, -, e⟩ | ⟨-, -, e⟩ <;> rw [e]
  · nofun
  · nofun
  · exact exec_not_refused _ _ r

/-- Settles O47: a refused Run would end at a refused step. -/
theorem nothingIsRefused : Obligations.NothingIsRefused := by
  intro s r
  refine ⟨step_not_refused s r, fun h => ?_⟩
  obtain ⟨k, m, t, -, -, hend⟩ :=
    (runLoop_eq_iff (s := s.setBudget s.cfg.executionLimit) rfl _).mp h
  cases hend with
  | refused _ _ hs => exact step_not_refused t r hs

/-! Invariants: what every accepted write keeps, every step keeps (`step_keeps`). -/

/-- Settles O48: every accepted write keeps the form, since its address is a word. -/
theorem stepKeepsMemoryCanonical : Obligations.StepKeepsMemoryCanonical :=
  fun _ _ hs h => step_keeps (P := fun m _ => m.wf = true) (fun _ _ _ _ _ hw => memWrite_wf hw) rfl h hs

/-- Settles O49: the fill and the image are built by writes inside the address space. -/
theorem resetAndConstructedMemoryIsCanonical : Obligations.ResetAndConstructedMemoryIsCanonical := by
  refine ⟨rfl, fun cfg fill image => Memory.wf_overlay ?_ image⟩
  split
  · exact Memory.wf_fill fill le_rfl
  · rfl

/-- A word no store may reach while privilege checks are on: outside user space and no KBSR, KBDR or DSR. -/
def Protected (a : Nat) : Prop :=
  a < 0x3000 ∨ (0xFE00 ≤ a ∧ a ≠ 0xFE00 ∧ a ≠ 0xFE02 ∧ a ≠ 0xFE04)

/-- A write that the permission test lets pass with checks on changes no protected word: DDR's goes to the
output log. -/
theorem memWrite_keeps_protected {a v : Word} {b : Nat} {s t : State}
    (hon : s.cfg.ignorePrivilege = false) (hb : Protected b) (h : memWrite (a.toNat : Int) v s = .ok t) :
    t.mem.read b = s.mem.read b := by
  obtain ⟨hp, -⟩ := memWrite_ok h
  obtain ⟨hmem, -⟩ := stores_of_memWrite h
  rw [hmem, if_neg]
  rintro ⟨rfl, h6⟩
  have h6' : a.toNat ≠ 0xFE06 := fun e => h6 (BitVec.eq_of_toNat_eq e)
  obtain ⟨-, hregion⟩ := (permOK_iff _ _).mp hp
  have huser := hregion.resolve_left (by simp [hon])
  rw [isDeviceRegister_iff] at huser
  unfold Protected at hb
  omega

/-- Settles O50: every accepted write keeps the protected words. -/
theorem checksOnProtectedWordsNeverChange : Obligations.ChecksOnProtectedWordsNeverChange :=
  fun s _ a hon h ha => step_keeps (c := s.cfg) (P := fun m _ => m.read a = s.mem.read a)
    (fun _ _ _ _ hc hw hu => (memWrite_keeps_protected (hc ▸ hon) ha hw).trans hu) rfl h rfl

/-- A write appends to the output log or leaves it. -/
theorem memWrite_outLog {a : Int} {v : Word} {s t : State} (h : memWrite a v s = .ok t) :
    s.outLog <+: t.outLog := by
  rcases (memWrite_ok h).2 with ⟨-, rfl⟩ | ⟨-, rfl⟩
  · exact List.prefix_append _ _
  · exact List.prefix_rfl

theorem step_outLog_prefix {s t : State} (h : step s = .next t) : s.outLog <+: t.outLog :=
  step_keeps (P := fun _ o => s.outLog <+: o)
    (fun _ _ _ _ _ hw hu => hu.trans (memWrite_outLog hw)) rfl h List.prefix_rfl

/-- Settles O51: over the fetch and the instruction, or over nothing on a halted machine. -/
theorem stepHistoryOnlyGrows : Obligations.StepHistoryOnlyGrows := by
  intro s t h
  obtain ⟨new, hnew⟩ := step_outLog_prefix h
  rcases step_cases s with ⟨hh, e⟩ | ⟨-, -, e⟩ | ⟨hh, -, e⟩
  · cases e.symm.trans h
    exact ⟨rfl, rfl, rfl, fun _ => rfl, fun hf => by simp [hh] at hf, ⟨new, hnew.symm⟩, [], rfl⟩
  · cases e.symm.trans h
  · have hexec := e.symm.trans h
    obtain ⟨hcfg, hir, hbudget, htimer⟩ := exec_next_same hexec
    obtain ⟨taken, htaken⟩ := (exec_inQ_suffix hexec).trans (queueAfterRead_suffix s.inQ s.pc)
    refine ⟨hcfg, hbudget, htimer, fun ht => by simp [hh] at ht, fun _ ht => ?_, ⟨new, hnew.symm⟩,
      taken, htaken.symm⟩
    have hhalt := eq_halt_of_exec_halted hexec hh ht
    rw [hir]
    exact hhalt

/-- Settles O53: the reset state is that construction, field by field. -/
theorem resetIsTheDefaultConstruction : Obligations.ResetIsTheDefaultConstruction :=
  ⟨fun _ => rfl, rfl, rfl, rfl, rfl, rfl, rfl⟩

/-! A tick. -/

/-- A pending timer's tick is the step, but that a fault cancels the timer (rule R109). -/
theorem tick_runTick (s : State) :
    tick (runTick s) = mapFaultState (fun t => t.setTimer none) (step (runTick s)) := by
  have ht : (runTick s).timer = some s.cfg.tickRate := rfl
  unfold tick
  rw [ht]
  cases step (runTick s) <;> rfl

theorem Fault.left_withLeft (f : Fault) (g : State → State) : (f.withLeft g).left = g f.left := by
  cases f <;> rfl

theorem faultCode_withLeft (f : Fault) (g : State → State) : faultCode (f.withLeft g) = faultCode f := by
  cases f <;> rfl

/-- Settles O60: each clause is the equation of the tick at one outcome of the step. -/
theorem tickIsOneStep : Obligations.TickIsOneStep := by
  intro s
  rw [tick_runTick]
  refine ⟨fun t h => ?_, fun f h => ⟨?_, Fault.left_withLeft f _, faultCode_withLeft f _⟩,
    fun a pc ir t h => ?_, fun ir op t h => ?_, fun pc t h => ?_⟩
  all_goals rw [h]; rfl

end Sys2Proof.Machine
end

section
/-! Calls, traps and the stack: a call and its return (O27), a trap with privilege checks on (O30), a push and
its pop (O33), TRAP and RTI as pushes and pops (O34), a trap and its return (O32), and the keyboard queue
(O12). -/

namespace Sys2Proof.Machine

/-! Calls. -/

theorem exec_call_next {i : Instr} {s t : State} (hi : (∃ off, i = .jsr off) ∨ (∃ b, i = .jsrr b))
    (h : exec i s = .next t) : t.reg .r7 = s.pc ∧ t.diag = s.diag ++ [s.pc] := by
  have hcall : ∃ target, callTo target s = .next t := by
    rcases hi with ⟨off, rfl⟩ | ⟨b, rfl⟩
    · exact ⟨_, h⟩
    · exact ⟨_, h⟩
  obtain ⟨target, hcall⟩ := hcall
  cases hcall
  exact ⟨by simp, rfl⟩

/-- Settles O27: the return takes back from R7 and the diagnostic call stack what the call put there. -/
theorem callThenReturnComesBack : Obligations.CallThenReturnComesBack := by
  intro i s t u v hi h hreg hdiag hret
  obtain ⟨hr7, hd⟩ := exec_call_next hi h
  rw [exec_jmp] at hret
  cases hret
  refine ⟨hreg.trans hr7, ?_⟩
  rw [State.setDiag_diag, hdiag, hd, diagAfterJump_r7_append]

/-! Traps. -/

/-- The trap-vector table lies in supervisor space. -/
theorem not_permitted_trapTableEntry {cfg : Config} (hon : cfg.ignorePrivilege = false)
    (vect : BitVec 8) : ¬ Permitted cfg (trapTableEntry vect) := by
  rintro (hoff | ⟨hlow, -⟩)
  · simp [hon] at hoff
  · have hlt := vect.isLt
    rw [trapTableEntry_toNat] at hlow
    omega

/-- Settles O30: the table entry is refused, if no push slot was before it. -/
theorem trapFaultsWhilePrivilegeChecksAreOn : Obligations.TrapFaultsWhilePrivilegeChecksAreOn := by
  intro vect s hon hv
  rw [exec_trap_of_ne hv]
  cases hd : firstDenied s.cfg [trapStack s - 1, trapStack s - 2, trapTableEntry vect] with
  | some a =>
    obtain ⟨-, hp⟩ := firstDenied_some hd
    exact ⟨a, (permOK_word_eq_false_iff _ _).mp hp, trapEntry_denied hd⟩
  | none =>
    have hp := firstDenied_none hd (a := trapTableEntry vect) (by simp)
    exact absurd ((permOK_word_iff _ _).mp hp) (not_permitted_trapTableEntry hon vect)

/-! The stack primitives. -/

/-- No access reads or writes a general register. -/
theorem bystander_setReg (r : Reg) (x : Word) : Bystander (fun t => t.setReg r x) where
  cfg _ := rfl
  pc _ := rfl
  ir _ := rfl
  mem _ := rfl
  inQ _ := rfl
  outLog _ := rfl
  setMem _ _ := rfl
  setInQ _ _ := rfl
  setOutLog _ _ := rfl

/-- Of two writes to a register the later counts. -/
theorem setReg_setReg (s : State) (r : Reg) (x y : Word) : (s.setReg r x).setReg r y = s.setReg r y := by
  cases r <;> rfl

/-- A push is a write below the stack pointer, which moves to it. -/
theorem push_of_memWrite {v : Word} {s t : State} {sp : Word}
    (h : memWrite ((sp - 1).toNat : Int) v s = .ok t) :
    push v (s.setReg .r6 sp) = .ok (t.setReg .r6 (sp - 1)) := by
  have hsp : (s.setReg .r6 sp).reg .r6 = sp := by simp
  unfold push
  rw [hsp, setReg_setReg, memWrite_bystander (bystander_setReg .r6 (sp - 1)), h]
  rfl

/-- A pop is a read at the stack pointer, which moves past it. -/
theorem pop_of_memRead {v : Word} {s t : State} {sp : Word} (h : memRead (sp.toNat : Int) s = .ok (v, t)) :
    pop (s.setReg .r6 sp) = .ok (v, t.setReg .r6 (sp + 1)) := by
  have hsp : (s.setReg .r6 sp).reg .r6 = sp := by simp
  unfold pop
  rw [hsp, memRead_bystander (bystander_setReg .r6 sp), h, mapRead]
  simp only [setReg_setReg]

/-- Writing to a register what it holds changes nothing. -/
theorem setReg_reg (s : State) (r : Reg) : s.setReg r (s.reg r) = s := by
  cases r <;> rfl

/-- Everything a push can do when it answers. -/
theorem push_ok {v : Word} {s t : State} (h : push v s = .ok t) :
    ∃ u, memWrite ((s.reg .r6 - 1).toNat : Int) v s = .ok u ∧ t = u.setReg .r6 (s.reg .r6 - 1) := by
  unfold push at h
  rw [memWrite_bystander (bystander_setReg .r6 (s.reg .r6 - 1))] at h
  cases hw : memWrite ((s.reg .r6 - 1).toNat : Int) v s with
  | error f => rw [hw] at h; cases h
  | ok u => rw [hw] at h; cases h; exact ⟨u, rfl, rfl⟩

/-- Settles O33: the pop reads back the word the push stored, and its increment undoes the decrement. -/
theorem popReturnsWhatPushStored : Obligations.PopReturnsWhatPushStored := by
  intro v s t h h0 h2 h4 h6
  obtain ⟨u, hw, rfl⟩ := push_ok h
  obtain ⟨hp, -⟩ := memWrite_ok hw
  obtain ⟨hmem, -, -, hregs, -, -, -, hcfg, -⟩ := stores_of_memWrite hw
  have hr6 : (u.setReg .r6 (s.reg .r6 - 1)).reg .r6 = s.reg .r6 - 1 := by simp
  rw [hr6] at h0 h2 h4 h6 ⊢
  obtain ⟨hvalue, hqueue⟩ := readValue_of_ne u h0 h2 h4
  have hne : s.reg .r6 - 1 ≠ 0xFE06#16 := fun e => h6 (congrArg BitVec.toNat e)
  have hread := memRead_permitted (s := u) (by rw [hcfg]; exact (permOK_word_iff _ _).mp hp)
  rw [hvalue, hmem, if_pos ⟨rfl, hne⟩, hqueue, setInQ_self] at hread
  refine ⟨_, pop_of_memRead hread, fun r => ?_, rfl, fun a ha => ?_⟩
  · rw [BitVec.sub_add_cancel, State.reg_setReg, hregs]
    split
    · next hr => rw [hr]
    · rfl
  · rw [State.setReg_mem, hmem, if_neg fun hb => ha hb.left]

/-- Settles O34: the accesses of TRAP and RTI are those of the stack primitives, which move R6 as they go,
where TRAP and RTI write it at the end. -/
theorem trapAndRtiUseTheStackPrimitives : Obligations.TrapAndRtiUseTheStackPrimitives := by
  constructor
  · intro vect s t hv h
    rw [exec_trap_of_ne hv] at h
    obtain ⟨s1, s2, target, h1, h2, h3, rfl⟩ := trapEntry_next h
    have hsub : trapStack s - 2 = trapStack s - 1 - 1 := by bv_omega
    obtain ⟨hp, -, -⟩ := memRead_ok h3
    have htarget := h3.symm.trans (memRead_trapTableEntry hp)
    rw [trapTableEntry_toNat] at htarget
    rw [hsub] at h2 ⊢
    have hstack : (if s.mode = .user then s.savedSSP else s.reg .r6) = trapStack s := rfl
    rw [← statusWord_eq, hstack]
    refine ⟨_, _, push_of_memWrite h1, push_of_memWrite h2, ?_, rfl, rfl, ?_⟩
    · simp
    · cases htarget; rfl
  · intro s t h
    rw [exec_rti] at h
    obtain ⟨status, s1, target, s2, h1, h2, rfl⟩ := trapReturn_next h
    have hadd : s.reg .r6 + 2 = s.reg .r6 + 1 + 1 := by bv_omega
    have hpop1 := pop_of_memRead h1
    rw [setReg_reg] at hpop1
    rw [hadd]
    refine ⟨status, _, target, _, hpop1, pop_of_memRead h2, leaveTrap_pc .., ?_, ?_, fun hm => ?_,
      fun hm => ?_⟩
    · rw [leaveTrap_inQ]; rfl
    · rw [leaveTrap_mem]; rfl
    · rw [leaveTrap_mode] at hm
      simp [hm]
    · rw [leaveTrap_mode] at hm
      simp [hm]

/-! A trap and its return. -/

/-- Two words from `a` on that are plain memory: neither is a device register, and the second does not wrap
to address 0. -/
def PlainPair (a : Word) : Prop := (a.toNat < 0xFDFF ∨ 0xFE06 < a.toNat) ∧ a.toNat ≠ 0xFFFF

theorem PlainPair.toNat_succ {a : Word} (h : PlainPair a) : (a + 1).toNat = a.toNat + 1 := by
  have hlt := a.isLt
  obtain ⟨-, hne⟩ := h
  have hone : (1 : Word).toNat = 1 := rfl
  rw [BitVec.toNat_add]
  omega

/-- What a trap entry leaves for the return: the status word at the new stack top and PC above it, and from
user mode the user's R6 in savedUSP. -/
theorem exec_trap_saves {vect : BitVec 8} {s t : State} (hv : vect ≠ s.cfg.haltVector)
    (h : exec (.trap vect) s = .next t) (hplain : PlainPair (t.reg .r6)) :
    t.reg .r6 + 2 = trapStack s ∧
      t.savedUSP = (if s.mode = .user then s.reg .r6 else s.savedUSP) ∧
      t.mem.read (t.reg .r6).toNat = statusWord s.mode ∧
      t.mem.read ((t.reg .r6).toNat + 1) = s.pc := by
  rw [exec_trap_of_ne hv] at h
  obtain ⟨s1, s2, target, h1, h2, -, rfl⟩ := trapEntry_next h
  have hr6 : (enterSupervisor (trapStack s - 2) target s2).reg .r6 = trapStack s - 2 := by simp
  have hpcSlot : trapStack s - 1 = trapStack s - 2 + 1 := by bv_omega
  rw [hr6] at hplain ⊢
  rw [hpcSlot] at h1
  obtain ⟨hmem1, -, -, hreg1, -, -, -, -, -, hmode1, husp1, -⟩ := stores_of_memWrite h1
  obtain ⟨hmem2, -, -, hreg2, -, -, -, -, -, hmode2, husp2, -⟩ := stores_of_memWrite h2
  have hsucc := hplain.toNat_succ
  have hne : ∀ x : Word, x.toNat ≠ 0xFE06 → x ≠ 0xFE06#16 := fun x hx e => hx (congrArg BitVec.toNat e)
  obtain ⟨hrange, -⟩ := hplain
  refine ⟨BitVec.sub_add_cancel .., ?_, ?_, ?_⟩
  · rw [enterSupervisor_savedUSP, hmode2, hmode1, hreg2, hreg1, husp2, husp1]
  · rw [enterSupervisor_mem, hmem2, if_pos ⟨rfl, hne _ (by omega)⟩]
  · rw [enterSupervisor_mem, hmem2, if_neg (by omega), hmem1, hsucc, if_pos ⟨rfl, hne _ (by omega)⟩]

/-- What a trap return from plain memory does. -/
theorem exec_rti_plain {u v : State} (h : exec .rti u = .next v) (hplain : PlainPair (u.reg .r6)) :
    v = leaveTrap (u.reg .r6 + 2) (u.mem.read (u.reg .r6).toNat)
      (u.mem.read ((u.reg .r6).toNat + 1)) u := by
  rw [exec_rti] at h
  obtain ⟨status, u1, target, u2, h1, h2, rfl⟩ := trapReturn_next h
  obtain ⟨-, rfl, rfl⟩ := memRead_ok h1
  obtain ⟨-, rfl, rfl⟩ := memRead_ok h2
  have hsucc := hplain.toNat_succ
  obtain ⟨hrange, -⟩ := hplain
  obtain ⟨hvalue1, hqueue1⟩ := readValue_plain (a := u.reg .r6) u (by omega)
  obtain ⟨hvalue2, hqueue2⟩ := readValue_plain (a := u.reg .r6 + 1) u (by omega)
  rw [hvalue1, hqueue1, setInQ_self, hvalue2, hqueue2, setInQ_self, hsucc]

/-- Settles O32: the return pops what the entry pushed, from where it pushed it. -/
theorem trapThenRtiRestoresTheCaller : Obligations.TrapThenRtiRestoresTheCaller := by
  intro vect s t u v hv htrap hrange hmax hr6 husp hstatus hpc hrti
  obtain ⟨htop, husp', hstatus', hpc'⟩ := exec_trap_saves hv htrap ⟨hrange, hmax⟩
  have hleave := exec_rti_plain hrti (by rw [hr6]; exact ⟨hrange, hmax⟩)
  rw [hr6, htop, hstatus, hstatus', hpc, hpc'] at hleave
  subst hleave
  refine ⟨leaveTrap_pc .., ?_, ?_, fun hmode => ?_⟩
  · rw [leaveTrap_mode, modeOfStatus_statusWord]
  · rw [leaveTrap_reg, if_pos rfl, modeOfStatus_statusWord, husp, husp', trapStack]
    split <;> rfl
  · rw [leaveTrap_savedSSP, modeOfStatus_statusWord, if_pos hmode, trapStack, if_pos hmode]

/-! The keyboard. -/

/-- A read of KBDR takes the head of the input queue. -/
theorem memRead_kbdr (s : State) :
    memRead 0xFE02 s = .ok (s.inQ.headD 0x0000#16, s.setInQ s.inQ.tail) :=
  memRead_permitted (a := 0xFE02#16) (permitted_of_device s.cfg (by decide))

/-- Reads of KBDR give the queue in order, and once it is empty 0. -/
theorem keyReads_of_inQ {q : List Word} {s : State} (hq : s.inQ = q) :
    keyReads (q.length + 1) s = q ++ [0x0000#16] := by
  induction q generalizing s with
  | nil => simp [keyReads, memRead_kbdr, hq]
  | cons c rest ih =>
    rw [keyReads, memRead_kbdr, hq]
    exact congrArg (List.cons c) (ih rfl)

theorem inQ_foldl_pushInput (cs : List Word) (s : State) :
    (cs.foldl (fun t c => pushInput c t) s).inQ = s.inQ ++ cs := by
  induction cs generalizing s with
  | nil => exact (List.append_nil _).symm
  | cons c cs ih =>
    rw [List.foldl_cons, ih, pushInput, State.setInQ_inQ, List.append_assoc, List.singleton_append]

/-- Settles O12: the pushed characters are the queue, which the reads give back. -/
theorem keyboardReadsReturnPushesInOrder : Obligations.KeyboardReadsReturnPushesInOrder := by
  intro cs s hq
  apply keyReads_of_inQ
  rw [inQ_foldl_pushInput, hq, List.nil_append]

end Sys2Proof.Machine
end

section
/-! What instructions cannot see. A change of the state that no access and no computation reads or writes
(`Unseen`) is carried through every instruction but the calls, jumps and traps. The mode with the saved stack
pointers is such a change, and calls and jumps carry it too: obligation O36. The diagnostic call stack is one,
which calls and jumps only write: obligation O40. -/

namespace Sys2Proof.Machine

/-- A change that touches neither what the memory access controller uses nor a register, PC or the condition
code. -/
structure Unseen (g : State → State) : Prop extends Bystander g where
  reg : ∀ s r, (g s).reg r = s.reg r
  cc : ∀ s, (g s).cc = s.cc
  setReg : ∀ s r x, g (s.setReg r x) = (g s).setReg r x
  setCc : ∀ s x, g (s.setCc x) = (g s).setCc x
  setPc : ∀ s x, g (s.setPc x) = (g s).setPc x

theorem unseen_rebank (m : Mode) (usp ssp : Word) : Unseen (rebank m usp ssp) where
  cfg _ := rfl
  pc _ := rfl
  ir _ := rfl
  mem _ := rfl
  inQ _ := rfl
  outLog _ := rfl
  setMem _ _ := rfl
  setInQ _ _ := rfl
  setOutLog _ _ := rfl
  reg _ _ := rfl
  cc _ := rfl
  setReg _ _ _ := rfl
  setCc _ _ := rfl
  setPc _ _ := rfl

theorem unseen_setDiag (d : List Word) : Unseen (fun t => t.setDiag d) where
  cfg _ := rfl
  pc _ := rfl
  ir _ := rfl
  mem _ := rfl
  inQ _ := rfl
  outLog _ := rfl
  setMem _ _ := rfl
  setInQ _ _ := rfl
  setOutLog _ _ := rfl
  reg _ _ := rfl
  cc _ := rfl
  setReg _ _ _ := rfl
  setCc _ _ := rfl
  setPc _ _ := rfl

/-! Computations, branches, loads and stores. -/

section
variable {g : State → State} (hg : Unseen g)
include hg

theorem writeResult_unseen (dr : Reg) (v : Word) (s : State) :
    writeResult dr v (g s) = g (writeResult dr v s) := by
  unfold writeResult setcc
  rw [hg.setCc, hg.setReg]

theorem pcRelative_unseen {n : Nat} (off : BitVec n) (s : State) :
    pcRelative (g s) off = pcRelative s off := by
  unfold pcRelative
  rw [hg.pc]

theorem loadFrom_unseen (dr : Reg) (ea : Word) (s : State) :
    loadFrom dr ea (g s) = mapStates g (loadFrom dr ea s) := by
  unfold loadFrom
  rw [memRead_bystander hg.toBystander]
  cases memRead (ea.toNat : Int) s with
  | error f => rfl
  | ok p => exact congrArg Host.Outcome.next (writeResult_unseen hg dr p.1 p.2)

theorem execLdi_unseen (dr : Reg) (off : BitVec 9) (s : State) :
    execLdi dr off (g s) = mapStates g (execLdi dr off s) := by
  unfold execLdi
  rw [pcRelative_unseen hg, memRead_bystander hg.toBystander]
  cases memRead ((pcRelative s off).toNat : Int) s with
  | error f => rfl
  | ok p => exact loadFrom_unseen hg dr p.1 p.2

theorem execSti_unseen (sr : Reg) (off : BitVec 9) (s : State) :
    execSti sr off (g s) = mapStates g (execSti sr off s) := by
  unfold execSti
  rw [pcRelative_unseen hg, memRead_bystander hg.toBystander]
  cases memRead ((pcRelative s off).toNat : Int) s with
  | error f => rfl
  | ok p =>
    simp only [mapRead, hg.reg]
    exact storeTo_bystander hg.toBystander p.1 (p.2.reg sr) p.2

theorem execBr_unseen (n z p : Bool) (off : BitVec 9) (s : State) :
    execBr n z p off (g s) = mapStates g (execBr n z p off s) := by
  unfold execBr
  rw [hg.cc, pcRelative_unseen hg, ← hg.setPc]
  split <;> rfl

end

/-- The calls, jumps and traps. -/
def isCallOrTrap (i : Instr) : Bool :=
  match i with
  | .jsr _ | .jsrr _ | .jmp _ | .trap _ | .rti => true
  | _ => false

/-- An unseen change is carried through every computation, branch, load and store. -/
theorem exec_unseen {g : State → State} (hg : Unseen g) {i : Instr} (hi : isCallOrTrap i = false)
    (s : State) : exec i (g s) = mapStates g (exec i s) := by
  cases i with
  | br n z p off => exact execBr_unseen hg n z p off s
  | addReg | addImm | andReg | andImm | not =>
    simp only [exec_addReg, exec_addImm, exec_andReg, exec_andImm, exec_not, hg.reg, mapStates,
      writeResult_unseen hg]
  | lea => simp only [exec_lea, hg.pc, mapStates, hg.setReg]
  | ld dr off =>
    simp only [exec_ld, hg.pc]
    exact loadFrom_unseen hg dr _ s
  | ldr dr b off =>
    simp only [exec_ldr, hg.reg]
    exact loadFrom_unseen hg dr _ s
  | ldi dr off => exact execLdi_unseen hg dr off s
  | st sr off =>
    simp only [exec_st, hg.pc, hg.reg]
    exact storeTo_bystander hg.toBystander _ _ s
  | str sr b off =>
    simp only [exec_str, hg.reg]
    exact storeTo_bystander hg.toBystander _ _ s
  | sti sr off => exact execSti_unseen hg sr off s
  | reserved any =>
    have hfault : ∀ u, exec (.reserved any) u = .fault (.unknownInstruction u.ir 0xD u) := fun _ => rfl
    rw [hfault, hfault, hg.ir]
    rfl
  | jsr | jsrr | jmp | trap | rti => cases hi

/-! Traps. -/

/-- An outcome with its next state changed by `k` and the state its fault leaves by `g`. -/
def mapOutcome (k g : State → State) (o : Host.Outcome State Fault Refusal) :
    Host.Outcome State Fault Refusal :=
  match o with
  | .next t => .next (k t)
  | .fault f => .fault (f.withLeft g)
  | .refused r => .refused r

theorem mapOutcome_self (g : State → State) (o : Host.Outcome State Fault Refusal) :
    mapOutcome g g o = mapStates g o := by
  cases o <;> rfl

/-- A change that no access sees reaches the end of a trap return, which turns `g` into `k`. -/
theorem trapReturn_bystander {k g : State → State} (hg : Bystander g)
    (hreg : ∀ s r, (g s).reg r = s.reg r)
    (hend : ∀ top status target s, leaveTrap top status target (g s) = k (leaveTrap top status target s))
    (s : State) : trapReturn (g s) = mapOutcome k g (trapReturn s) := by
  unfold trapReturn
  rw [hreg, hg.cfg, memRead_bystander hg]
  cases firstDenied s.cfg [s.reg .r6, s.reg .r6 + 1] with
  | some a => exact congrArg Host.Outcome.fault (accessFault_bystander hg (a.toNat : Int) s)
  | none =>
    cases memRead ((s.reg .r6).toNat : Int) s with
    | error f => rfl
    | ok p =>
      obtain ⟨status, s1⟩ := p
      simp only [mapRead, memRead_bystander hg]
      cases memRead ((s.reg .r6 + 1).toNat : Int) s1 with
      | error f => rfl
      | ok q => exact congrArg Host.Outcome.next (hend (s.reg .r6 + 2) status q.1 q.2)

/-- A change that no access sees and that keeps the mode and the banked stack pointers reaches the end of a
trap entry. -/
theorem trapEntry_bystander {g : State → State} (hg : Bystander g)
    (hmode : ∀ s, (g s).mode = s.mode) (hstack : ∀ s, trapStack (g s) = trapStack s)
    (hend : ∀ top target s, enterSupervisor top target (g s) = g (enterSupervisor top target s))
    (vect : BitVec 8) (s : State) : trapEntry vect (g s) = mapStates g (trapEntry vect s) := by
  unfold trapEntry
  rw [hstack, hg.cfg, hg.pc, hmode, memWrite_bystander hg]
  cases firstDenied s.cfg [trapStack s - 1, trapStack s - 2, trapTableEntry vect] with
  | some a => exact congrArg Host.Outcome.fault (accessFault_bystander hg (a.toNat : Int) s)
  | none =>
    cases memWrite ((trapStack s - 1).toNat : Int) s.pc s with
    | error f => rfl
    | ok s1 =>
      simp only [mapWrite, memWrite_bystander hg]
      cases memWrite ((trapStack s - 2).toNat : Int) (statusWord s.mode) s1 with
      | error f => rfl
      | ok s2 =>
        simp only [memRead_bystander hg]
        cases memRead ((trapTableEntry vect).toNat : Int) s2 with
        | error f => rfl
        | ok p => exact congrArg Host.Outcome.next (hend (trapStack s - 2) p.1 p.2)

/-! Another mode and other saved stack pointers. -/

/-- No access reads or writes the mode. -/
theorem bystander_setMode (m : Mode) : Bystander (fun t => t.setMode m) where
  cfg _ := rfl
  pc _ := rfl
  ir _ := rfl
  mem _ := rfl
  inQ _ := rfl
  outLog _ := rfl
  setMem _ _ := rfl
  setInQ _ _ := rfl
  setOutLog _ _ := rfl

theorem exec_rebank {i : Instr} (htrap : ∀ v, i ≠ .trap v) (hrti : i ≠ .rti) (m : Mode) (usp ssp : Word)
    (s : State) : exec i (rebank m usp ssp s) = mapStates (rebank m usp ssp) (exec i s) := by
  cases hi : isCallOrTrap i with
  | false => exact exec_unseen (unseen_rebank m usp ssp) hi s
  | true =>
    cases i with
    | jsr | jsrr | jmp => rfl
    | trap v => exact absurd rfl (htrap v)
    | rti => exact absurd rfl hrti
    | _ => cases hi

/-- A trap return overwrites the mode it finds, so only a fault can leave it. -/
theorem exec_rti_setMode (m : Mode) (s : State) :
    exec .rti (s.setMode m) = mapOutcome id (fun t => t.setMode m) (exec .rti s) := by
  refine trapReturn_bystander (bystander_setMode m) (fun _ _ => rfl) (fun top status target u => ?_) s
  unfold leaveTrap
  split <;> rfl

/-- Settles O36: all but TRAP and RTI carry the change, and RTI loses it unless it faults. -/
theorem instructionsRunAlikeInBothModes : Obligations.InstructionsRunAlikeInBothModes := by
  refine ⟨fun i m usp ssp s htrap hrti => exec_rebank htrap hrti m usp ssp s, fun m s t h => ?_,
    fun m s f h => ?_⟩
  · rw [exec_rti_setMode, h]
    rfl
  · rw [exec_rti_setMode, h]
    rfl

/-! Another diagnostic call stack. -/

theorem mapStates_mapStates (f g : State → State) (o : Host.Outcome State Fault Refusal) :
    mapStates f (mapStates g o) = mapStates (fun t => f (g t)) o := by
  cases o with
  | next t => rfl
  | fault e => cases e <;> rfl
  | refused r => rfl

theorem exec_trap_setDiag (v : BitVec 8) (s : State) (d : List Word) :
    exec (.trap v) (s.setDiag d) = mapStates (fun t => t.setDiag d) (exec (.trap v) s) := by
  by_cases hv : v = s.cfg.haltVector
  · subst hv
    rw [exec_trap_halt]
    exact exec_trap_halt (s.setDiag d)
  · rw [exec_trap_of_ne hv, exec_trap_of_ne (s := s.setDiag d) hv]
    exact trapEntry_bystander (unseen_setDiag d).toBystander (fun _ => rfl) (fun _ => rfl)
      (fun _ _ _ => rfl) v s

theorem exec_rti_setDiag (s : State) (d : List Word) :
    exec .rti (s.setDiag d) = mapStates (fun t => t.setDiag d) (exec .rti s) := by
  rw [← mapOutcome_self]
  refine trapReturn_bystander (unseen_setDiag d).toBystander (fun _ _ => rfl)
    (fun top status target u => ?_) s
  unfold leaveTrap
  split <;> rfl

/-- Where an instruction carries the diagnostic call stack, forgetting it forgets the difference. -/
theorem forget_diag_of_carried {i : Instr} {s : State} {d : List Word}
    (h : exec i (s.setDiag d) = mapStates (fun t => t.setDiag d) (exec i s)) :
    mapStates (fun t => t.setDiag []) (exec i (s.setDiag d)) =
      mapStates (fun t => t.setDiag []) (exec i s) := by
  rw [h, mapStates_mapStates]
  rfl

/-- Settles O40: the calls and the jump write the diagnostic call stack and nothing from it; every other
instruction carries it through. -/
theorem diagnosticStackInfluencesNothing : Obligations.DiagnosticStackInfluencesNothing := by
  intro i s d
  cases hi : isCallOrTrap i with
  | false => exact forget_diag_of_carried (exec_unseen (unseen_setDiag d) hi s)
  | true =>
    cases i with
    | jsr | jsrr | jmp => rfl
    | trap v => exact forget_diag_of_carried (exec_trap_setDiag v s d)
    | rti => exact forget_diag_of_carried (exec_rti_setDiag s d)
    | _ => cases hi

end Sys2Proof.Machine
end

section
/-! The loader: its structure check on whole and on cut images (O56), what its writes may change (O55), and
what they do up to the first refused one (O54, O57). -/

namespace Sys2Proof.Machine

/-! The structure check. -/

/-- Every segment is short enough for a length word. -/
def LengthsFit (segs : List Segment) : Prop := ∀ g ∈ segs, g.data.length < 65536

theorem imageWords_cons (g : Segment) (rest : List Segment) :
    imageWords (g :: rest) =
      g.start :: BitVec.ofNat 16 g.data.length :: (g.data ++ imageWords rest) := rfl

/-- Each header takes two words. -/
theorem length_le_imageWords (segs : List Segment) : segs.length ≤ (imageWords segs).length := by
  induction segs with
  | nil => exact Nat.zero_le _
  | cons g rest ih =>
    rw [imageWords_cons]
    simp only [List.length_cons, List.length_append]
    omega

/-- The structure check answers for the words after some whole segments, one header's fuel each. -/
theorem parseSegments_imageWords_append {segs : List Segment} (h : LengthsFit segs) (k offset : Nat)
    (tail : List Word) :
    parseSegments (k + segs.length) offset (imageWords segs ++ tail) =
      (parseSegments k (offset + (imageWords segs).length) tail).map (segs ++ ·) := by
  induction segs generalizing offset with
  | nil =>
    change parseSegments k offset tail = (parseSegments k offset tail).map _
    cases parseSegments k offset tail <;> rfl
  | cons g rest ih =>
    obtain ⟨hg, hrest⟩ := List.forall_mem_cons.mp h
    have hlen : (BitVec.ofNat 16 g.data.length).toNat = g.data.length := by
      rw [BitVec.toNat_ofNat, Nat.mod_eq_of_lt hg]
    have hshort : ¬ (g.data ++ imageWords rest ++ tail).length < g.data.length := by
      simp only [List.length_append]
      omega
    have hoff : offset + (imageWords (g :: rest)).length =
        offset + 2 + g.data.length + (imageWords rest).length := by
      rw [imageWords_cons]
      simp only [List.length_cons, List.length_append]
      omega
    rw [hoff, imageWords_cons, List.length_cons, ← Nat.add_assoc, List.cons_append, List.cons_append,
      parseSegments, hlen, if_neg hshort, List.append_assoc, List.drop_left, List.take_left, ih hrest]
    cases parseSegments k (offset + 2 + g.data.length + (imageWords rest).length) tail <;> rfl

/-- The structure check of a whole image, whose length is fuel enough, goes on after its whole segments. -/
theorem parseImage_imageWords_append {segs : List Segment} (h : LengthsFit segs) (tail : List Word) :
    ∃ k, tail.length ≤ k ∧ parseImage (imageWords segs ++ tail) =
      (parseSegments k (imageWords segs).length tail).map (segs ++ ·) := by
  have hle := length_le_imageWords segs
  refine ⟨(imageWords segs ++ tail).length - segs.length, ?_, ?_⟩
  · rw [List.length_append]
    omega
  · have hfuel : (imageWords segs ++ tail).length =
        (imageWords segs ++ tail).length - segs.length + segs.length := by
      rw [List.length_append]
      omega
    rw [parseImage, hfuel, parseSegments_imageWords_append h, Nat.add_sub_cancel, Nat.zero_add]

theorem parseImage_imageWords {segs : List Segment} (h : LengthsFit segs) :
    parseImage (imageWords segs) = .ok segs := by
  obtain ⟨k, -, hparse⟩ := parseImage_imageWords_append h []
  rw [List.append_nil] at hparse
  rw [hparse]
  cases k <;> exact congrArg Except.ok (List.append_nil segs)

/-- What an image cut inside a segment ends with: a header without its length, or data too short for it. -/
def CutSegment (tail : List Word) : Prop :=
  ∃ (start length : Word) (data : List Word),
    tail = [start] ∨ (tail = start :: length :: data ∧ data.length < length.toNat)

theorem parseSegments_cut {k offset : Nat} {tail : List Word} (h : CutSegment tail)
    (hk : tail.length ≤ k) : parseSegments k offset tail = .error offset := by
  obtain ⟨start, length, data, rfl | ⟨rfl, hlt⟩⟩ := h
  · obtain ⟨k, rfl⟩ := Nat.exists_eq_add_one.mpr hk
    rfl
  · obtain ⟨k, rfl⟩ := Nat.exists_eq_add_one.mpr (Nat.lt_of_lt_of_le (by simp) hk)
    rw [parseSegments, if_pos hlt]

/-- An image cut after whole segments raises MalformedImage at its last header (rule R214). -/
theorem load_cut {segs : List Segment} (h : LengthsFit segs) {tail : List Word} (hcut : CutSegment tail)
    (s : State) :
    load (imageWords segs ++ tail) s = .fault (.malformedImage (imageWords segs).length s) := by
  obtain ⟨k, hk, hparse⟩ := parseImage_imageWords_append h tail
  rw [load, hparse, parseSegments_cut hcut hk]
  rfl

/-- Settles O56: the check goes past whole segments and stops at the header of a cut one. -/
theorem loaderChecksTheStructureFirst : Obligations.LoaderChecksTheStructureFirst :=
  ⟨fun _ h => parseImage_imageWords h,
    fun _ start length data _ s h hcut => load_cut h ⟨start, length, data, hcut⟩ s⟩

/-! Loads as lists of writes. -/

theorem load_of_performWrites_ok {img : List Word} {segs : List Segment} {s t : State}
    (hparse : parseImage img = .ok segs) (h : performWrites (imageWrites segs) s = .ok t) :
    load img s = .next t := by
  rw [load, hparse]
  simp only [loadSegments_eq, h]

theorem load_of_performWrites_error {img : List Word} {segs : List Segment} {s : State} {f : Fault}
    (hparse : parseImage img = .ok segs) (h : performWrites (imageWrites segs) s = .error f) :
    load img s = .fault f := by
  rw [load, hparse]
  simp only [loadSegments_eq, h]

/-! What the writes may change. -/

/-- The states differ in memory and in what was appended to the output log, at most. -/
def ChangesMemoryAndLogOnly (s t : State) : Prop :=
  ∃ m new, t = (s.setMem m).setOutLog (s.outLog ++ new)

theorem ChangesMemoryAndLogOnly.refl (s : State) : ChangesMemoryAndLogOnly s s :=
  ⟨s.mem, [], by rw [List.append_nil]; rfl⟩

theorem ChangesMemoryAndLogOnly.trans {s t u : State} (hst : ChangesMemoryAndLogOnly s t)
    (htu : ChangesMemoryAndLogOnly t u) : ChangesMemoryAndLogOnly s u := by
  obtain ⟨m, new, rfl⟩ := hst
  obtain ⟨m', new', rfl⟩ := htu
  exact ⟨m', new ++ new', by rw [← List.append_assoc]; rfl⟩

theorem memWrite_changes {a : Int} {v : Word} {s t : State} (h : memWrite a v s = .ok t) :
    ChangesMemoryAndLogOnly s t := by
  rcases (memWrite_ok h).2 with ⟨-, rfl⟩ | ⟨-, rfl⟩
  · exact ⟨s.mem, [v], rfl⟩
  · exact ⟨s.mem.write a.toNat v, [], by rw [List.append_nil]; rfl⟩

/-- What the two outcomes of a list of writes may change. -/
def OutcomeChanges (s : State) (x : Except Fault State) : Prop :=
  match x with
  | .ok t => ChangesMemoryAndLogOnly s t
  | .error f => ChangesMemoryAndLogOnly s f.left

theorem OutcomeChanges.after {s t : State} {x : Except Fault State} (h : ChangesMemoryAndLogOnly s t)
    (hx : OutcomeChanges t x) : OutcomeChanges s x := by
  cases x with
  | ok u => exact h.trans hx
  | error f => exact h.trans hx

/-- Whether all writes of a list are accepted or one is refused, they change memory and the log only. -/
theorem performWrites_changes (ws : List (Nat × Word)) (s : State) :
    OutcomeChanges s (performWrites ws s) := by
  induction ws generalizing s with
  | nil => exact .refl s
  | cons e rest ih =>
    obtain ⟨a, v⟩ := e
    rw [performWrites]
    cases hw : memWrite (a : Int) v s with
    | error f =>
      obtain ⟨-, rfl⟩ := memWrite_error hw
      exact .refl s
    | ok s1 => exact OutcomeChanges.after (memWrite_changes hw) (ih s1)

theorem load_changes {img : List Word} {s t : State}
    (h : load img s = .next t ∨ ∃ f, load img s = .fault f ∧ t = f.left) :
    ChangesMemoryAndLogOnly s t := by
  cases hparse : parseImage img with
  | error offset =>
    have hload : load img s = .fault (.malformedImage offset s) := by rw [load, hparse]
    rw [hload] at h
    obtain h | ⟨f, h, rfl⟩ := h
    · cases h
    · cases h; exact .refl s
  | ok segs =>
    have hchanges := performWrites_changes (imageWrites segs) s
    cases hw : performWrites (imageWrites segs) s with
    | error f =>
      rw [hw] at hchanges
      rw [load_of_performWrites_error hparse hw] at h
      obtain h | ⟨f, h, rfl⟩ := h
      · cases h
      · cases h; exact hchanges
    | ok u =>
      rw [hw] at hchanges
      rw [load_of_performWrites_ok hparse hw] at h
      obtain h | ⟨f, h, -⟩ := h
      · cases h; exact hchanges
      · cases h

/-- Settles O55: nothing but memory and the log differs, however the load ends. -/
theorem loadWritesMemoryAndTheLogOnly : Obligations.LoadWritesMemoryAndTheLogOnly := by
  intro img s t h
  obtain ⟨m, new, rfl⟩ := load_changes h
  exact ⟨fun _ => rfl, rfl, rfl, rfl, ⟨rfl, rfl, rfl, rfl, rfl, rfl, rfl, rfl⟩, rfl, new, rfl⟩

/-! What the writes do. -/

theorem written_nil (s : State) : Written [] s s :=
  ⟨fun _ => (ite_self _).symm, (List.append_nil _).symm, rfl, fun _ => rfl, rfl, rfl, rfl,
    rfl, rfl, rfl, rfl, rfl, rfl, rfl, rfl⟩

theorem SameControl.trans {s t u : State} (h : SameControl s t) (h' : SameControl t u) :
    SameControl s u := by
  obtain ⟨hcfg, hir, hmode, husp, hssp, hhalted, hbudget, htimer⟩ := h
  obtain ⟨hcfg', hir', hmode', husp', hssp', hhalted', hbudget', htimer'⟩ := h'
  exact ⟨hcfg'.trans hcfg, hir'.trans hir, hmode'.trans hmode, husp'.trans husp, hssp'.trans hssp,
    hhalted'.trans hhalted, hbudget'.trans hbudget, htimer'.trans htimer⟩

/-- Lists of writes in sequence: the last write to an address counts, and the log keeps the order. -/
theorem Written.trans {xs ys : List (Nat × Word)} {s t u : State} (h : Written xs s t)
    (h' : Written ys t u) : Written (xs ++ ys) s u := by
  obtain ⟨hmem, hlog, hinQ, hregs, hcc, hpc, hdiag, hcontrol⟩ := h
  obtain ⟨hmem', hlog', hinQ', hregs', hcc', hpc', hdiag', hcontrol'⟩ := h'
  refine ⟨fun a => ?_, ?_, hinQ'.trans hinQ, fun r => (hregs' r).trans (hregs r), hcc'.trans hcc,
    hpc'.trans hpc, hdiag'.trans hdiag, hcontrol.trans hcontrol'⟩
  · rw [hmem', hmem, List.reverse_append, List.lookup_append]
    split
    · rfl
    · cases ys.reverse.lookup a <;> rfl
  · rw [hlog', hlog, List.append_assoc, List.filter_append, List.map_append]

theorem lookup_single (a b : Nat) (v : Word) : [(a, v)].lookup b = if b = a then some v else none := by
  by_cases hb : b = a
  · rw [if_pos hb, hb, List.lookup_cons_self]
  · rw [if_neg hb, List.lookup_cons, beq_false_of_ne hb]
    rfl

/-- One accepted write. -/
theorem written_of_memWrite {a : Nat} {v : Word} {s t : State} (h : memWrite (a : Int) v s = .ok t) :
    Written [(a, v)] s t := by
  have hsame := memWrite_nat_ok h
  by_cases ha : a = 0xFE06
  · rw [if_pos ha] at hsame
    subst hsame
    refine ⟨fun b => ?_, ?_, rfl, fun _ => rfl, rfl, rfl, rfl, rfl, rfl, rfl, rfl, rfl, rfl, rfl, rfl⟩
    · rw [State.setOutLog_mem, List.reverse_singleton, lookup_single]
      by_cases hb : b = 0xFE06
      · rw [if_pos hb]
      · rw [if_neg hb, if_neg (ha ▸ hb), Option.getD_none]
    · simp [ha]
  · rw [if_neg ha] at hsame
    subst hsame
    refine ⟨fun b => ?_, ?_, rfl, fun _ => rfl, rfl, rfl, rfl, rfl, rfl, rfl, rfl, rfl, rfl, rfl, rfl⟩
    · rw [State.setMem_mem, Memory.read_write, List.reverse_singleton, lookup_single]
      by_cases hb : b = a
      · simp [hb, ha]
      · simp [hb]
    · simp [ha]

/-- A list of permitted writes is performed to its end. -/
theorem performWrites_permitted {ws : List (Nat × Word)} {s : State}
    (h : ∀ e ∈ ws, permOK s.cfg (e.1 : Int) = true) :
    ∃ t, performWrites ws s = .ok t ∧ Written ws s t := by
  induction ws generalizing s with
  | nil => exact ⟨s, rfl, written_nil s⟩
  | cons e rest ih =>
    obtain ⟨a, v⟩ := e
    obtain ⟨ha, hrest⟩ := List.forall_mem_cons.mp h
    obtain ⟨s1, hw⟩ := memWrite_exists (v := v) ha
    have hcfg : s1.cfg = s.cfg := (memWrite_same hw).1
    obtain ⟨t, hperform, hwritten⟩ := ih (s := s1) (by rwa [hcfg])
    refine ⟨t, ?_, (written_of_memWrite hw).trans hwritten⟩
    rw [performWrites, hw]
    exact hperform

/-- Permitted writes followed by a refused one: they are done, and the refused one is the fault. -/
theorem performWrites_refused {before after : List (Nat × Word)} {a : Nat} {v : Word} {s : State}
    (h : ∀ e ∈ before, permOK s.cfg (e.1 : Int) = true) (ha : permOK s.cfg (a : Int) = false) :
    ∃ t, performWrites (before ++ (a, v) :: after) s = .error (.accessViolation (a : Int) s.pc s.ir t) ∧
      Written before s t := by
  obtain ⟨t, hperform, hwritten⟩ := performWrites_permitted h
  refine ⟨t, ?_, hwritten⟩
  obtain ⟨-, -, -, -, -, hpc, -, hcfg, hir, -⟩ := hwritten
  rw [← hcfg] at ha
  rw [performWrites_append, hperform]
  simp only [performWrites, memWrite_of_permOK_false v ha, accessFault, hpc, hir]

/-! The writes of one segment. -/

/-- The data words of one segment from address `start` on. -/
def segmentWrites (start : Nat) (data : List Word) : List (Nat × Word) :=
  (List.range' start data.length).zip data

theorem imageWrites_single (start : Word) (data : List Word) :
    imageWrites [⟨start, data⟩] = segmentWrites start.toNat data :=
  List.append_nil _

theorem segmentWrites_cons (start : Nat) (v : Word) (data : List Word) :
    segmentWrites start (v :: data) = (start, v) :: segmentWrites (start + 1) data := by
  rw [segmentWrites, List.length_cons, List.range'_succ, List.zip_cons_cons, segmentWrites]

theorem segmentWrites_append (start : Nat) (xs ys : List Word) :
    segmentWrites start (xs ++ ys) = segmentWrites start xs ++ segmentWrites (start + xs.length) ys := by
  induction xs generalizing start with
  | nil => rfl
  | cons x xs ih =>
    rw [List.cons_append, segmentWrites_cons, segmentWrites_cons, ih, List.length_cons, List.cons_append,
      Nat.add_right_comm, Nat.add_assoc]

/-- A segment writes inside its own addresses. -/
theorem mem_segmentWrites {start : Nat} {data : List Word} {e : Nat × Word}
    (h : e ∈ segmentWrites start data) : start ≤ e.1 ∧ e.1 < start + data.length := by
  have hmem : e.1 ∈ List.range' start data.length := (List.of_mem_zip h).left
  exact List.mem_range'_1.mp hmem

/-- The word a segment writes to an address, if any. -/
theorem lookup_reverse_segmentWrites (start : Nat) (data : List Word) (a : Nat) :
    (segmentWrites start data).reverse.lookup a = if start ≤ a then data[a - start]? else none := by
  induction data generalizing start with
  | nil => simp [segmentWrites]
  | cons v data ih =>
    rw [segmentWrites_cons, List.reverse_cons, List.lookup_append, ih]
    rw [lookup_single]
    rcases Nat.lt_trichotomy a start with hlt | rfl | hgt
    · simp [Nat.not_le.mpr hlt, hlt.ne, show ¬ start + 1 ≤ a by omega]
    · simp
    · obtain ⟨k, rfl⟩ : ∃ k, a = start + 1 + k := Nat.exists_eq_add_of_le hgt
      have hk : start + 1 + k - start = k + 1 := by omega
      have hle : start ≤ start + 1 + k := by omega
      have hne : start + 1 + k ≠ start := by omega
      rw [if_pos (Nat.le_add_right _ _), if_neg hne, if_pos hle, Nat.add_sub_cancel_left, hk,
        List.getElem?_cons_succ, Option.or_none]

/-- What the words of memory are after a segment's writes, if none goes to the output log. -/
theorem Written.read_segment {start : Nat} {data : List Word} {s t : State}
    (h : Written (segmentWrites start data) s t)
    (hddr : start + data.length ≤ 0xFE06 ∨ 0xFE06 < start) (a : Nat) :
    t.mem.read a = if start ≤ a ∧ a < start + data.length then data.getD (a - start) 0x0000#16
      else s.mem.read a := by
  obtain ⟨hmem, -⟩ := h
  rw [hmem, lookup_reverse_segmentWrites]
  by_cases hin : start ≤ a ∧ a < start + data.length
  · obtain ⟨hle, hlt⟩ := hin
    have hget : a - start < data.length := by omega
    rw [if_neg (by omega), if_pos hle, if_pos ⟨hle, hlt⟩, List.getElem?_eq_getElem hget,
      List.getD_eq_getElem _ _ hget, Option.getD_some]
  · have hnone : (if start ≤ a then data[a - start]? else none) = none := by
      split
      · next hle => exact List.getElem?_eq_none (by omega)
      · rfl
    rw [hnone, if_neg hin, Option.getD_none, ite_self]

/-! The obligations. -/

/-- An image of one segment is that segment's words. -/
theorem imageWords_single (start : Word) (data : List Word) :
    imageWords [⟨start, data⟩] = start :: BitVec.ofNat 16 data.length :: data := by
  rw [imageWords_cons]
  exact congrArg (fun l => start :: _ :: l) (List.append_nil data)

theorem load_permitted {segs : List Segment} {s : State} (hlen : LengthsFit segs)
    (h : ∀ e ∈ imageWrites segs, permOK s.cfg (e.1 : Int) = true) :
    ∃ t, load (imageWords segs) s = .next t ∧ Written (imageWrites segs) s t := by
  obtain ⟨t, hperform, hwritten⟩ := performWrites_permitted h
  exact ⟨t, load_of_performWrites_ok (parseImage_imageWords hlen) hperform, hwritten⟩

theorem load_refused {segs : List Segment} {before after : List (Nat × Word)} {a : Nat} {v : Word}
    {s : State} (hlen : LengthsFit segs) (hwrites : imageWrites segs = before ++ (a, v) :: after)
    (h : ∀ e ∈ before, permOK s.cfg (e.1 : Int) = true) (ha : permOK s.cfg (a : Int) = false) :
    ∃ t, load (imageWords segs) s = .fault (.accessViolation (a : Int) s.pc s.ir t) ∧
      Written before s t := by
  obtain ⟨t, hperform, hwritten⟩ := performWrites_refused (after := after) (v := v) h ha
  rw [← hwrites] at hperform
  exact ⟨t, load_of_performWrites_error (parseImage_imageWords hlen) hperform, hwritten⟩

/-- Settles O54: user space is permitted, and a segment in it writes each of its addresses once. -/
theorem loadPlacesASegmentAndNothingElse : Obligations.LoadPlacesASegmentAndNothingElse := by
  refine ⟨fun start data s hlen hlo hhi => ?_, fun segs s hlen h => load_permitted hlen h⟩
  have hperm : ∀ e ∈ imageWrites [⟨start, data⟩], permOK s.cfg (e.1 : Int) = true := by
    intro e he
    rw [imageWrites_single] at he
    obtain ⟨h1, h2⟩ := mem_segmentWrites he
    exact (permOK_iff _ _).mpr ⟨by omega, Or.inr ⟨by omega, Or.inl (by omega)⟩⟩
  have hfit : LengthsFit [⟨start, data⟩] := List.forall_mem_singleton.mpr hlen
  obtain ⟨t, hload, hwritten⟩ := load_permitted hfit hperm
  rw [imageWords_single] at hload
  rw [imageWrites_single] at hwritten
  have hread := hwritten.read_segment (by omega)
  obtain ⟨-, hlog, hinQ, hregs, hcc, hpc, hdiag, hcontrol⟩ := hwritten
  have hquiet : (segmentWrites start.toNat data).filter (fun e => e.1 == 0xFE06) = [] := by
    rw [List.filter_eq_nil_iff]
    intro e he
    obtain ⟨-, h2⟩ := mem_segmentWrites he
    rw [beq_iff_eq]
    omega
  rw [hquiet, List.map_nil, List.append_nil] at hlog
  exact ⟨t, hload, hread, hregs, hpc, hcc, hdiag, hcontrol, hinQ, hlog⟩

/-- Settles O57: the writes below the top are permitted with checks off, and the one at 0x10000 fails the
range test. -/
theorem loadPastTheTopFaultsAtTheRangeTest : Obligations.LoadPastTheTopFaultsAtTheRangeTest := by
  refine ⟨fun start before after v s hoff htop hddr hlen => ?_,
    fun segs before after a v s hlen hwrites h ha => load_refused hlen hwrites h ha⟩
  have hwrites : imageWrites [⟨start, before ++ v :: after⟩] = segmentWrites start.toNat before ++
      (0x10000, v) :: segmentWrites 0x10001 after := by
    rw [imageWrites_single, segmentWrites_append, segmentWrites_cons, htop]
  have hperm : ∀ e ∈ segmentWrites start.toNat before, permOK s.cfg (e.1 : Int) = true := by
    intro e he
    obtain ⟨-, h2⟩ := mem_segmentWrites he
    exact (permOK_iff _ _).mpr ⟨by omega, Or.inl hoff⟩
  have hrange : permOK s.cfg ((0x10000 : Nat) : Int) = false :=
    (permOK_eq_false_iff _ _).mpr (Or.inl (Or.inl (by decide)))
  have hfit : LengthsFit [⟨start, before ++ v :: after⟩] := List.forall_mem_singleton.mpr hlen
  obtain ⟨t, hload, hwritten⟩ := load_refused hfit hwrites hperm hrange
  rw [imageWords_single] at hload
  refine ⟨t, hload, fun a => ?_⟩
  rw [hwritten.read_segment (Or.inr hddr), htop]

end Sys2Proof.Machine
end
